-- ==== Sys2Proof/Word.lean ====
section
/-! DEFINITION. The two word types of WTE-EF (`00_scope.md` R8, R16). -/

namespace Sys2Proof

/-- A data word: every staging cell, frame cell and FIFO element (R8). -/
abbrev Word := BitVec 32

/-- A counter, the capacity, or the ARG field of an operation word (R16, R101). -/
abbrev Count := BitVec 16

end Sys2Proof
end

