-- ==== Sys2Proof/Config.lean ====
section
/-! DEFINITION. The two nodes and the implementation parameters of `00_scope.md` section 4. -/

namespace Sys2Proof

/-- The two nodes of a WTE-EF system (R15, R288). -/
inductive Node where
  | a
  | b
deriving DecidableEq, Repr

/-- `peer(n)`, the other node (R19). -/
def Node.peer : Node → Node
  | .a => .b
  | .b => .a

/-- The parameters of `00_scope.md` R10 to R14. They are arguments of the model: State carries one `Config`
that no step changes (log 1). -/
structure Config where
  /-- `HANDSHAKE` (R14): true adds Rewind and the Stage gate, false is the literal text of the source. -/
  handshake : Bool
  /-- `CAP_MAX` (R10). -/
  capMax : Nat
  /-- `FRAME_MAX` (R11). -/
  frameMax : Nat
  /-- `FIFO_CAP_IN[A]` (R12). -/
  fifoCapInA : Nat
  /-- `FIFO_CAP_IN[B]` (R12). -/
  fifoCapInB : Nat
  /-- `FIFO_CAP_OUT[A]` (R12). -/
  fifoCapOutA : Nat
  /-- `FIFO_CAP_OUT[B]` (R12). -/
  fifoCapOutB : Nat
  /-- `RSV_IDLE` (R13). -/
  rsvIdle : Word
  /-- `RSV_ESCAPE` (R13). -/
  rsvEscape : Word
  /-- `RSV_UNDERRUN` (R13). -/
  rsvUnderrun : Word
  /-- `RSV_OVERRUN` (R13). -/
  rsvOverrun : Word
deriving DecidableEq, Repr

/-- The four reserved values (R111). -/
def Config.rsv (c : Config) : List Word :=
  [c.rsvIdle, c.rsvEscape, c.rsvUnderrun, c.rsvOverrun]

/-- A FIFO capacity: at least 1 (R12), and small enough for a RESULT word to hold every size and free space
(R103; DEDUCED, log 10). -/
abbrev fifoCapOk (k : Nat) : Prop := 1 ≤ k ∧ k < 2 ^ 32

/-- The configurations of the spec: the ranges of R10, R11, R12, and reserved values that are pairwise distinct
(R13, R116: a configuration with two equal values is no WTE-EF configuration). -/
abbrev Config.wf (c : Config) : Prop :=
  (1 ≤ c.capMax ∧ c.capMax ≤ 65535) ∧ (1 ≤ c.frameMax ∧ c.frameMax ≤ 65535) ∧
  fifoCapOk c.fifoCapInA ∧ fifoCapOk c.fifoCapInB ∧ fifoCapOk c.fifoCapOutA ∧ fifoCapOk c.fifoCapOutB ∧
  c.rsvIdle ≠ c.rsvEscape ∧ c.rsvIdle ≠ c.rsvUnderrun ∧ c.rsvIdle ≠ c.rsvOverrun ∧
  c.rsvEscape ≠ c.rsvUnderrun ∧ c.rsvEscape ≠ c.rsvOverrun ∧ c.rsvUnderrun ≠ c.rsvOverrun

/-- The configuration of the spec's test vectors (`95_test_vectors.md` section 0, reserved values of D7).
DESIGN CHOICE: State.reset carries it (log 1, unsafe for a claim about that one configuration). -/
def Config.reference : Config where
  handshake := true
  capMax := 1024
  frameMax := 16
  fifoCapInA := 8
  fifoCapInB := 8
  fifoCapOutA := 8
  fifoCapOutB := 8
  rsvIdle := 0xFFFFFFFF#32
  rsvEscape := 0xFFFFFFFE#32
  rsvUnderrun := 0xFFFFFFFD#32
  rsvOverrun := 0xFFFFFFFC#32

end Sys2Proof
end

