-- ==== Sys2Proof/Syntax.lean ====
section
/-! DEFINITION. The operations and the frame words of `spec/opcode_table.json`, one constructor a row. -/

namespace Sys2Proof

/-- FIFO select, the SEL field of FPUSH to FPEEK (R106). -/
inductive FifoSel where
  | input
  | output
deriving DecidableEq, Repr

/-- Register select, the SEL field of RDREG (R107, R53). -/
inductive RegSel where
  | lifecycle
  | capacity
  | lss
  | lrs
  | rss
  | rrs
  | fxFlags
  | fxCount
deriving DecidableEq, Repr

/-- Array select, the SEL field of RDARR (R108, R54). -/
inductive ArrSel where
  | sendData
  | recvData
  | txFrame
  | rxFrame
deriving DecidableEq, Repr

/-- One constructor per row of the opcode table: the 18 operations that agents issue (R104), then the five kinds of
frame word that DECODE meets while it scans a frame (R112). `n` is NODE, `arg` is ARG, `data` is DATA. -/
inductive Instr where
  /-- ADVANCE (R142). -/
  | advance (n : Node)
  /-- ENCODE, `arg` frame slots (R182). -/
  | encode (n : Node) (arg : Count)
  /-- DECODE, `arg` frame words (R190). -/
  | decode (n : Node) (arg : Count)
  /-- INIT with capacity `arg` (R140). -/
  | init (n : Node) (arg : Count)
  /-- DESTROY (R141). -/
  | destroy (n : Node)
  /-- XCHG (R241). -/
  | xchg
  /-- FRAME, `arg` words, sent by node `n` (R244). -/
  | frame (n : Node) (arg : Count)
  /-- SET_RECV at index `arg` (R245). -/
  | setRecv (n : Node) (arg : Count) (data : Word)
  /-- SET_RSS to value `arg` (R246). -/
  | setRss (n : Node) (arg : Count)
  /-- SET_RRS to value `arg` (R247). -/
  | setRrs (n : Node) (arg : Count)
  /-- SET_RXF at index `arg` (R248). -/
  | setRxf (n : Node) (arg : Count) (data : Word)
  /-- FPUSH (R221). -/
  | fpush (n : Node) (q : FifoSel) (data : Word)
  /-- FPOP (R222). -/
  | fpop (n : Node) (q : FifoSel)
  /-- FSIZE (R223). -/
  | fsize (n : Node) (q : FifoSel)
  /-- FFREE (R224). -/
  | ffree (n : Node) (q : FifoSel)
  /-- FPEEK at index `arg` (R225). -/
  | fpeek (n : Node) (q : FifoSel) (arg : Count)
  /-- RDREG (R260). -/
  | rdreg (n : Node) (r : RegSel)
  /-- RDARR at index `arg` (R261). -/
  | rdarr (n : Node) (x : ArrSel) (arg : Count)
  /-- The frame word RSV_IDLE: padding (R112, R191). -/
  | idle
  /-- The frame word RSV_ESCAPE: the next word is a literal (R112, R192). -/
  | escape
  /-- The frame word RSV_UNDERRUN (R112, R193). -/
  | underrun
  /-- The frame word RSV_OVERRUN (R112, R193). -/
  | overrun
  /-- Any other frame word: a data word that carries its own value (R112). -/
  | literal (w : Word)
deriving DecidableEq, Repr

/-- Is this one of the 18 operations of R104 (and not a frame word)? -/
def Instr.isOperation : Instr → Bool
  | .advance _ | .encode _ _ | .decode _ _ | .init _ _ | .destroy _ | .xchg | .frame _ _ | .setRecv _ _ _
  | .setRss _ _ | .setRrs _ _ | .setRxf _ _ _ | .fpush _ _ _ | .fpop _ _ | .fsize _ _ | .ffree _ _ | .fpeek _ _ _
  | .rdreg _ _ | .rdarr _ _ _ => true
  | .idle | .escape | .underrun | .overrun | .literal _ => false

/-- The five kinds of frame word (R112): each frame word has exactly one. -/
inductive FrameWord where
  | idle
  | escape
  | underrun
  | overrun
  | literal (w : Word)
deriving DecidableEq, Repr

/-- A kind of frame word as the opcode table's row for it. -/
def FrameWord.toInstr : FrameWord → Instr
  | .idle => .idle
  | .escape => .escape
  | .underrun => .underrun
  | .overrun => .overrun
  | .literal w => .literal w

end Sys2Proof
end

