-- ==== Sys2Proof/Machine/State.lean ====
section
/-! DEFINITION. The state of a WTE-EF system (`10_state.md`), as plain data, its power-on value, and the reasons a step
can stop. -/

namespace Sys2Proof.Machine

/-- `life[n]` (R32). Its number is `lifeCode` in Operands.lean. -/
inductive Life where
  | unconfigured
  | active
  | destroyed
deriving DecidableEq, Repr

/-- A staging or frame cell: its mark and, where it is written, its word (R19, R51). -/
inductive Cell where
  | unwritten
  | written (w : Word)
deriving DecidableEq, Repr

/-- One word array of a node (R76), as (index, word) pairs. An index that is not listed reads `Unwritten`, which is
what the spec gives every cell at power-on (R55) and after INIT (R140). In its one canonical form, `Memory.wf`, the
indices strictly rise. -/
abbrev Memory := List (Nat × Word)

/-- The canonical form of a word array: indices strictly rising. No entry can equal what an unlisted index reads as,
since an entry holds a word and an unlisted index reads `Unwritten`. -/
abbrev Memory.wf (m : Memory) : Prop := m.Pairwise fun x y => x.1 < y.1

/-- Every listed index is below `k`, the length of the array. -/
abbrev Memory.below (m : Memory) (k : Nat) : Prop := ∀ x ∈ m, x.1 < k

/-- The state of one node (R30). `sendData` and `recvData` have `cap` cells, `txFrame` and `rxFrame` have FRAME_MAX. -/
structure NodeState where
  life : Life
  cap : Count
  lss : Count
  lrs : Count
  rss : Count
  rrs : Count
  sendData : Memory
  recvData : Memory
  txFrame : Memory
  rxFrame : Memory
  fxFlags : Word
  fxCount : Word
  /-- `IN[n]`, front first (R49). -/
  inFifo : List Word
  /-- `OUT[n]`, front first (R49). -/
  outFifo : List Word
deriving DecidableEq, Repr

/-- A node at power-on (R55). -/
def NodeState.powerOn : NodeState where
  life := .unconfigured
  cap := 0#16
  lss := 0#16
  lrs := 0#16
  rss := 0#16
  rrs := 0#16
  sendData := []
  recvData := []
  txFrame := []
  rxFrame := []
  fxFlags := 0#32
  fxCount := 0#32
  inFifo := []
  outFifo := []

/-- The codes of the fault record (R273 to R279). -/
inductive FaultCode where
  /-- Code 1 (R273): the operation word matches no row. -/
  | illegalOp
  /-- Code 2 (R274): the node is not ACTIVE. -/
  | notActive
  /-- Code 3 (R275): INIT of an ACTIVE node, or with an illegal capacity. -/
  | badInit
  /-- Code 4 (R277): an ARG value outside its range. -/
  | argRange
  /-- Code 5 (R278): pop or peek outside a FIFO. -/
  | fifoRange
  /-- Code 6 (R276): a read of a cell never written. -/
  | unwritten
  /-- Code 7 (R279): a batch that does not fit the peer's receive array. -/
  | xchgCapacity
deriving DecidableEq, Repr

/-- The agents that issue operations (R23, R285). -/
inductive Agent where
  | host (n : Node)
  | transport
  | test
deriving DecidableEq, Repr

/-- One issued operation: the agent, the operation word and the DATA word (R100, R102). An operation that carries no
DATA ignores `data`. -/
structure Issue where
  agent : Agent
  word : Word
  data : Word
deriving DecidableEq, Repr

/-- Where a DECODE stands in the frame it scans (R190): the node, the index `i`, the length `L` and the flags collected
so far. A field of the model (log 6). -/
structure Scan where
  node : Node
  pos : Nat
  len : Nat
  flags : Word
deriving DecidableEq, Repr

/-- A WTE-EF system: two nodes and one fault record (R30, R50), with the model's own fields (logs 1, 2, 3 and 6). -/
structure State where
  /-- The parameters (R9 to R14). No step changes them (log 1). -/
  cfg : Config
  /-- Node A. -/
  nodeA : NodeState
  /-- Node B. -/
  nodeB : NodeState
  /-- The sticky fault record (R50, R271). -/
  fault : Option FaultCode
  /-- The DECODE scan in progress: none between operations (log 6). -/
  scan : Option Scan
  /-- The operations that agents have issued and the block has not executed yet, next one first (R70; log 2). -/
  issued : List Issue
  /-- The agent whose operation was executed last, to whom RESULT goes (R103; log 3). -/
  issuer : Option Agent
  /-- RESULT of the operation executed last, none where it returns nothing (R103; log 3). -/
  result : Option Word
deriving DecidableEq, Repr

/-- Power-on reset under configuration `c` (R55, R300). -/
def State.powerOn (c : Config) : State where
  cfg := c
  nodeA := NodeState.powerOn
  nodeB := NodeState.powerOn
  fault := none
  scan := none
  issued := []
  issuer := none
  result := none

/-- The machine right after power-on reset, in the configuration of the spec's vectors (log 1). -/
def State.reset : State := State.powerOn Config.reference

/-- Why the machine stops. -/
inductive Fault where
  /-- Raised by `step`, in a state whose fault record holds `code`: no agent has a step any more, and only the code is
  observable (R272, U1 of `93_implementation_defined.md`). Safe: it is what the spec says. -/
  | stopped (code : FaultCode)
deriving DecidableEq, Repr

/-- Why an instruction has no meaning. -/
inductive Refusal where
  /-- Raised by an arm of `exec` that has no meaning yet. Safe. No arm raises it. -/
  | notModelled (mnemonic : String)
  /-- Raised by the five frame words where no DECODE is scanning a frame: a frame word has a meaning to the decoder
  only (R112), and no agent can issue one. Safe: no run reaches it (log 6). -/
  | noFrameScan
deriving DecidableEq, Repr

/-- What the next step executes. -/
inductive Fetched where
  /-- No operation is issued: the block is idle (R290). -/
  | nothing
  /-- The issued operation `q`, with the operations that wait behind it. -/
  | operation (q : Issue) (rest : List Issue)
  /-- The word `w` of the frame that a DECODE scans. -/
  | frameWord (w : Word)
  /-- The frame cell that a DECODE is about to read was never written. -/
  | unwrittenFrameCell
deriving DecidableEq, Repr

end Sys2Proof.Machine
end

