-- ==== Sys2Proof/Machine/Flags.lean ====
section
/-! DEFINITION. The fault-flag word `fx_flags` (`30_encoding.md` R117). -/

namespace Sys2Proof.Machine

/-- Bit 0. WTE-EF never sets it (R196). -/
def flagLocalUnderrun : Word := 0x00000001#32

/-- Bit 1. WTE-EF never sets it (R196). -/
def flagLocalOverrun : Word := 0x00000002#32

/-- Bit 2, set when OUT has no room for a word that DECODE must deliver (R194). -/
def flagLocalRxOverflow : Word := 0x00000004#32

/-- Bit 3, set by an UNDERRUN word (R193). -/
def flagRemoteUnderrun : Word := 0x00000008#32

/-- Bit 4, set by an OVERRUN word (R193). -/
def flagRemoteOverrun : Word := 0x00000010#32

/-- Bit 5. WTE-EF never sets it (R196). -/
def flagRemoteRxOverflow : Word := 0x00000020#32

/-- Bit 6, set by an ESCAPE that is the last word scanned (R195). -/
def flagTruncatedEscape : Word := 0x00000040#32

/-- The bits that DECODE can set: 2, 3, 4 and 6. Bits 0, 1, 5 and 31:7 are always 0 (R196). -/
def flagMask : Word :=
  flagLocalRxOverflow ||| flagRemoteUnderrun ||| flagRemoteOverrun ||| flagTruncatedEscape

/-- `flags <- flags | bit` (R190). -/
def raiseFlag (flags bit : Word) : Word := flags ||| bit

end Sys2Proof.Machine
end

