-- ==== Sys2Proof/WellFormed.lean ====
section
/-! DEFINITION. Well-formed instructions. The operand types leave no ill-formed operation: NODE is a node, SEL one of the
selectors of R106 to R108, ARG any 16-bit value (a value outside its range is a fault, not an illegal encoding, R109).
One check remains, on frame words: a LITERAL is a word outside the reserved set (R112). -/

namespace Sys2Proof

/-- The instruction has an encoding of its own under configuration `c`. -/
def Instr.wf (c : Config) : Instr → Bool
  | .advance _ | .encode _ _ | .decode _ _ | .init _ _ | .destroy _ | .xchg | .frame _ _ | .setRecv _ _ _
  | .setRss _ _ | .setRrs _ _ | .setRxf _ _ _ | .fpush _ _ _ | .fpop _ _ | .fsize _ _ | .ffree _ _ | .fpeek _ _ _
  | .rdreg _ _ | .rdarr _ _ _ | .idle | .escape | .underrun | .overrun => true
  | .literal w => decide (w ∉ c.rsv)

end Sys2Proof
end

