-- ==== Sys2Proof/Decode.lean ====
section
/-! DEFINITION. Decoding of operation words (`30_encoding.md` R101 to R110) and of frame words (R112), and the encoder. -/

namespace Sys2Proof

/-- Why a word is no operation word. The first five are the conditions of R105, all recorded as the one code
ILLEGAL_OP (R273). The last two say that the list of words handed to `decodeWords` is too short (R102). -/
inductive Illegal where
  | unassignedOp
  | selNotZero
  | selTooLarge
  | argNotZero
  | nodeNotZero
  | noWord
  | noData
deriving DecidableEq, Repr

/-- `OP = W[7:0]` (R101, R109). -/
def opOf (w : Word) : BitVec 8 := w.extractLsb' 0 8

/-- `SEL = W[14:8]` (R101, R109). -/
def selOf (w : Word) : BitVec 7 := w.extractLsb' 8 7

/-- NODE as a node: 0 is A, 1 is B (R15). -/
def Node.ofBit (x : BitVec 1) : Node := if x = 1#1 then .b else .a

/-- The NODE bit of a node (R15). -/
def Node.bit : Node → BitVec 1
  | .a => 0#1
  | .b => 1#1

/-- `NODE = W[15]` (R101, R109). -/
def nodeOf (w : Word) : Node := Node.ofBit (w.extractLsb' 15 1)

/-- `ARG = W[31:16]` (R101, R109). -/
def argOf (w : Word) : Count := w.extractLsb' 16 16

/-- FIFO select numbers (R106). -/
def FifoSel.ofSel : BitVec 7 → Option FifoSel
  | 0#7 => some .input
  | 1#7 => some .output
  | _ => none

/-- FIFO select numbers (R106). -/
def FifoSel.sel : FifoSel → BitVec 7
  | .input => 0#7
  | .output => 1#7

/-- Register numbers (R107, R53). -/
def RegSel.ofSel : BitVec 7 → Option RegSel
  | 0#7 => some .lifecycle
  | 1#7 => some .capacity
  | 2#7 => some .lss
  | 3#7 => some .lrs
  | 4#7 => some .rss
  | 5#7 => some .rrs
  | 6#7 => some .fxFlags
  | 7#7 => some .fxCount
  | _ => none

/-- Register numbers (R107, R53). -/
def RegSel.sel : RegSel → BitVec 7
  | .lifecycle => 0#7
  | .capacity => 1#7
  | .lss => 2#7
  | .lrs => 3#7
  | .rss => 4#7
  | .rrs => 5#7
  | .fxFlags => 6#7
  | .fxCount => 7#7

/-- Array numbers (R108, R54). -/
def ArrSel.ofSel : BitVec 7 → Option ArrSel
  | 0#7 => some .sendData
  | 1#7 => some .recvData
  | 2#7 => some .txFrame
  | 3#7 => some .rxFrame
  | _ => none

/-- Array numbers (R108, R54). -/
def ArrSel.sel : ArrSel → BitVec 7
  | .sendData => 0#7
  | .recvData => 1#7
  | .txFrame => 2#7
  | .rxFrame => 3#7

/-- The check "SEL must be 0" of R105. -/
def needSelZero (w : Word) (r : Except Illegal Instr) : Except Illegal Instr :=
  if selOf w = 0#7 then r else .error .selNotZero

/-- The check "ARG must be 0" of R105. -/
def needArgZero (w : Word) (r : Except Illegal Instr) : Except Illegal Instr :=
  if argOf w = 0#16 then r else .error .argNotZero

/-- The check "NODE must be 0" of R105, for XCHG. -/
def needNodeZero (w : Word) (r : Except Illegal Instr) : Except Illegal Instr :=
  if nodeOf w = .a then r else .error .nodeNotZero

/-- The range check of SEL in R105, for the operations that have a selector. -/
def needSel {α : Type} (ofSel : BitVec 7 → Option α) (w : Word) (k : α → Except Illegal Instr) : Except Illegal Instr :=
  match ofSel (selOf w) with
  | some x => k x
  | none => .error .selTooLarge

/-- The operation that a word and its DATA word stand for, or why it is illegal (R104, R105, R110). DATA is ignored by
every operation but FPUSH, SET_RECV and SET_RXF (R102). -/
def decodeOp (w data : Word) : Except Illegal Instr :=
  match (opOf w).toNat with
  | 0x01 => needSelZero w <| needArgZero w <| .ok (.advance (nodeOf w))
  | 0x02 => needSelZero w <| .ok (.encode (nodeOf w) (argOf w))
  | 0x03 => needSelZero w <| .ok (.decode (nodeOf w) (argOf w))
  | 0x04 => needSelZero w <| .ok (.init (nodeOf w) (argOf w))
  | 0x05 => needSelZero w <| needArgZero w <| .ok (.destroy (nodeOf w))
  | 0x10 => needSelZero w <| needArgZero w <| needNodeZero w <| .ok .xchg
  | 0x11 => needSelZero w <| .ok (.frame (nodeOf w) (argOf w))
  | 0x12 => needSelZero w <| .ok (.setRecv (nodeOf w) (argOf w) data)
  | 0x13 => needSelZero w <| .ok (.setRss (nodeOf w) (argOf w))
  | 0x14 => needSelZero w <| .ok (.setRrs (nodeOf w) (argOf w))
  | 0x15 => needSelZero w <| .ok (.setRxf (nodeOf w) (argOf w) data)
  | 0x20 => needSel FifoSel.ofSel w fun q => needArgZero w <| .ok (.fpush (nodeOf w) q data)
  | 0x21 => needSel FifoSel.ofSel w fun q => needArgZero w <| .ok (.fpop (nodeOf w) q)
  | 0x22 => needSel FifoSel.ofSel w fun q => needArgZero w <| .ok (.fsize (nodeOf w) q)
  | 0x23 => needSel FifoSel.ofSel w fun q => needArgZero w <| .ok (.ffree (nodeOf w) q)
  | 0x24 => needSel FifoSel.ofSel w fun q => .ok (.fpeek (nodeOf w) q (argOf w))
  | 0x30 => needSel RegSel.ofSel w fun r => needArgZero w <| .ok (.rdreg (nodeOf w) r)
  | 0x31 => needSel ArrSel.ofSel w fun x => .ok (.rdarr (nodeOf w) x (argOf w))
  | _ => .error .unassignedOp

/-- Does the operation word's OP carry a DATA word (R102)? -/
def carriesData (w : Word) : Bool :=
  opOf w = 0x12#8 || opOf w = 0x15#8 || opOf w = 0x20#8

/-- One operation read from the front of a list of words: its operation word, then its DATA word where it carries one
(R100, R102), with the words that follow it. -/
def decodeWords : List Word → Except Illegal (Instr × List Word)
  | [] => .error .noWord
  | w :: rest =>
    if carriesData w then
      match rest with
      | [] => .error .noData
      | d :: rest' => (decodeOp w d).map fun i => (i, rest')
    else (decodeOp w 0#32).map fun i => (i, rest)

/-- The kind of a frame word (R112), tested in the order of DECODE's pseudocode (R190). -/
def classify (c : Config) (w : Word) : FrameWord :=
  if w = c.rsvIdle then .idle
  else if w = c.rsvUnderrun then .underrun
  else if w = c.rsvOverrun then .overrun
  else if w = c.rsvEscape then .escape
  else .literal w

/-- The frame word that DECODE reads from a frame cell holding `w`. Every word is one (R115). -/
def decodeFrame (c : Config) (w : Word) : Instr := (classify c w).toInstr

/-- The instruction of the opcode table that a word of the table stands for. The table holds operation words and frame
words: a word that is a legal operation word is that operation, any other word is the frame word it is under the
reference reserved values, which are the values the table shows (log 7). An agent that issues such a word gets
ILLEGAL_OP all the same: `step` decodes issued words with `decodeOp`. -/
def decodeTableWord (nbits w : Nat) : Option Instr :=
  let v := w % 2 ^ nbits
  match decodeWords [BitVec.ofNat 32 v, BitVec.ofNat 32 (v / 2 ^ 32)] with
  | .ok (i, _) => some i
  | .error _ => some (decodeFrame Config.reference (BitVec.ofNat 32 v))

/-- An operation word from its fields, most significant field first (R101). -/
def packOp (op : BitVec 8) (sel : BitVec 7) (n : Node) (arg : Count) : Word :=
  arg ++ n.bit ++ sel ++ op

/-- The words of an instruction: its operation word and, for the three operations that carry one, its DATA word
(R101, R102, R104), or the one frame word (R112). -/
def encode (c : Config) : Instr → List Word
  | .advance n => [packOp 0x01#8 0#7 n 0#16]
  | .encode n x => [packOp 0x02#8 0#7 n x]
  | .decode n x => [packOp 0x03#8 0#7 n x]
  | .init n x => [packOp 0x04#8 0#7 n x]
  | .destroy n => [packOp 0x05#8 0#7 n 0#16]
  | .xchg => [packOp 0x10#8 0#7 .a 0#16]
  | .frame n x => [packOp 0x11#8 0#7 n x]
  | .setRecv n x d => [packOp 0x12#8 0#7 n x, d]
  | .setRss n x => [packOp 0x13#8 0#7 n x]
  | .setRrs n x => [packOp 0x14#8 0#7 n x]
  | .setRxf n x d => [packOp 0x15#8 0#7 n x, d]
  | .fpush n q d => [packOp 0x20#8 q.sel n 0#16, d]
  | .fpop n q => [packOp 0x21#8 q.sel n 0#16]
  | .fsize n q => [packOp 0x22#8 q.sel n 0#16]
  | .ffree n q => [packOp 0x23#8 q.sel n 0#16]
  | .fpeek n q x => [packOp 0x24#8 q.sel n x]
  | .rdreg n r => [packOp 0x30#8 r.sel n 0#16]
  | .rdarr n y x => [packOp 0x31#8 y.sel n x]
  | .idle => [c.rsvIdle]
  | .escape => [c.rsvEscape]
  | .underrun => [c.rsvUnderrun]
  | .overrun => [c.rsvOverrun]
  | .literal w => [w]

end Sys2Proof
end

