-- ==== Sys2Proof/Machine/Operands.lean ====
section
/-! DEFINITION. The operand forms: nodes, FIFOs, registers and arrays by number, and the width of what they return. -/

namespace Sys2Proof.Machine

/-- The state of node `n` (R19). -/
def State.node (s : State) : Node → NodeState
  | .a => s.nodeA
  | .b => s.nodeB

/-- `s` with node `n` replaced. -/
def State.setNode (s : State) (n : Node) (x : NodeState) : State :=
  match n with
  | .a => { s with nodeA := x }
  | .b => { s with nodeB := x }

/-- `zext_32` of a 16-bit register (R16, R17). -/
def zextCount (v : Count) : Word := v.setWidth 32

/-- `zext_32` of a count of words (R103). Exact below 2^32, which `Config.wf` ensures for every FIFO (log 10). -/
def zextNat (k : Nat) : Word := BitVec.ofNat 32 k

/-- The Boolean RESULT: 1 for true, 0 for false (R103). -/
def boolWord (b : Bool) : Word := if b then 1#32 else 0#32

/-- `cap(IN[n])` and `cap(OUT[n])` (R12, R220). -/
def fifoCap (c : Config) : Node → FifoSel → Nat
  | .a, .input => c.fifoCapInA
  | .b, .input => c.fifoCapInB
  | .a, .output => c.fifoCapOutA
  | .b, .output => c.fifoCapOutB

/-- The FIFO that SEL names (R106). -/
def NodeState.fifo (x : NodeState) : FifoSel → List Word
  | .input => x.inFifo
  | .output => x.outFifo

/-- `x` with the FIFO that SEL names replaced. -/
def NodeState.setFifo (x : NodeState) (q : FifoSel) (l : List Word) : NodeState :=
  match q with
  | .input => { x with inFifo := l }
  | .output => { x with outFifo := l }

/-- The number of a lifecycle state (R32). -/
def lifeCode : Life → Word
  | .unconfigured => 0#32
  | .active => 1#32
  | .destroyed => 2#32

/-- Registers 1 to 5 can be read on an ACTIVE node only (R53, R260). -/
def regNeedsActive : RegSel → Bool
  | .capacity | .lss | .lrs | .rss | .rrs => true
  | .lifecycle | .fxFlags | .fxCount => false

/-- The value of a register (R53, R260). -/
def readReg (x : NodeState) : RegSel → Word
  | .lifecycle => lifeCode x.life
  | .capacity => zextCount x.cap
  | .lss => zextCount x.lss
  | .lrs => zextCount x.lrs
  | .rss => zextCount x.rss
  | .rrs => zextCount x.rrs
  | .fxFlags => x.fxFlags
  | .fxCount => x.fxCount

/-- The staging arrays exist on an ACTIVE node only (R54, R261). -/
def arrNeedsActive : ArrSel → Bool
  | .sendData | .recvData => true
  | .txFrame | .rxFrame => false

/-- The array that SEL names (R54, R261). -/
def NodeState.array (x : NodeState) : ArrSel → Memory
  | .sendData => x.sendData
  | .recvData => x.recvData
  | .txFrame => x.txFrame
  | .rxFrame => x.rxFrame

/-- `length(arr)` (R76, R261). -/
def arrayLength (c : Config) (x : NodeState) : ArrSel → Nat
  | .sendData | .recvData => x.cap.toNat
  | .txFrame | .rxFrame => c.frameMax

end Sys2Proof.Machine
end

