-- ==== Sys2Proof/Machine/Ops.lean ====
section
/-! DEFINITION. The named operations that the meanings share: cells of a word array, FIFOs, taking a fault, the outcome of
an operation, and what the next step executes. -/

namespace Sys2Proof.Machine

/-! ## Word arrays (R19) -/

/-- Cell `i` of an array: an index that is not listed is `Unwritten`. -/
def Memory.read : Memory → Nat → Cell
  | [], _ => .unwritten
  | (j, v) :: m, i => if i = j then .written v else Memory.read m i

/-- Cell `i` replaced by `c`, in canonical form: an `Unwritten` cell is not listed. -/
def Memory.set : Memory → Nat → Cell → Memory
  | [], _, .unwritten => []
  | [], i, .written w => [(i, w)]
  | (j, v) :: m, i, c =>
    if i < j then
      match c with
      | .unwritten => (j, v) :: m
      | .written w => (i, w) :: (j, v) :: m
    else if i = j then
      match c with
      | .unwritten => m
      | .written w => (i, w) :: m
    else (j, v) :: Memory.set m i c

/-- `MemWrite` (R19): cell `i` becomes `W(w)`. -/
def Memory.write (m : Memory) (i : Nat) (w : Word) : Memory := m.set i (.written w)

/-- `for i in 0 .. k-1: dst[i] <- src[i]`, cell marks included (R241). -/
def copyCells (src : Memory) : Nat → Memory → Memory
  | 0, dst => dst
  | k + 1, dst => (copyCells src k dst).set k (src.read k)

/-- `for i in 0 .. k-1: dst[i] <- src[i]`, where an `Unwritten` source cell is Fault(UNWRITTEN) (R244). -/
def copyWritten (src : Memory) : Nat → Memory → Except FaultCode Memory
  | 0, dst => .ok dst
  | k + 1, dst =>
    match copyWritten src k dst with
    | .error c => .error c
    | .ok m =>
      match src.read k with
      | .unwritten => .error .unwritten
      | .written w => .ok (m.write k w)

/-! ## FIFOs (R20, R220) -/

/-- `Fifo.free(q)`. -/
def fifoFree (capacity : Nat) (q : List Word) : Nat := capacity - q.length

/-- `Fifo.push(q, w)`: at the back. -/
def fifoPush (q : List Word) (w : Word) : List Word := q ++ [w]

/-! ## Faults (R271, R281) -/

/-- `raise Fault(code)` (R21, R271): the code goes into the fault record, the operation ends and returns nothing. This
is the spec's whole exception entry: no other state is saved, no mode changes, and control goes nowhere (R284). There is
no return from it: only power-on reset (`State.powerOn`), which starts a run, clears the record. -/
def State.raise (s : State) (code : FaultCode) : State := { s with fault := some code, result := none }

/-- The number of a fault code (R273 to R279). Code 0 means no fault. -/
def FaultCode.number : FaultCode → Nat
  | .illegalOp => 1
  | .notActive => 2
  | .badInit => 3
  | .argRange => 4
  | .fifoRange => 5
  | .unwritten => 6
  | .xchgCapacity => 7

/-! ## The end of an operation (R103) -/

/-- The operation completes and returns nothing. -/
def State.done (s : State) : State := { s with result := none }

/-- The operation completes and returns RESULT `v`. -/
def State.answer (s : State) (v : Word) : State := { s with result := some v }

/-- The outcome of an operation that began in `s`: the state it computed, or the fault it raised. Effects made before
the fault are rolled back, which R272 allows (log 4). -/
def commit (s : State) : Except FaultCode State → Host.Outcome State Fault Refusal
  | .ok t => .next t
  | .error code => .next (s.raise code)

/-! ## What the next step executes (R70, R290) -/

/-- The frame word at which a DECODE stands, else the issued operation that is next, else nothing. -/
def fetch (s : State) : Fetched :=
  match s.scan with
  | some sc =>
    match (s.node sc.node).rxFrame.read sc.pos with
    | .unwritten => .unwrittenFrameCell
    | .written w => .frameWord w
  | none =>
    match s.issued with
    | [] => .nothing
    | q :: rest => .operation q rest

/-- The block takes up the issued operation `q`, with `rest` behind it. -/
def State.accept (s : State) (q : Issue) (rest : List Issue) : State :=
  { s with issued := rest, issuer := some q.agent }

/-- `s` with one more operation issued, ahead of all others. -/
def State.issueFirst (s : State) (q : Issue) : State :=
  { s with scan := none, issued := q :: s.issued }

/-- The words `ws` written into consecutive cells from index `i` on. -/
def Memory.writeFrom (m : Memory) (i : Nat) : List Word → Memory
  | [] => m
  | w :: ws => Memory.writeFrom (m.write i w) (i + 1) ws

/-- `s` with a DECODE of node A standing at the start of a frame that begins with the words `ws` and ends with them. -/
def State.frameFirst (s : State) (ws : List Word) : State :=
  { s with
    nodeA := { s.nodeA with rxFrame := s.nodeA.rxFrame.writeFrom 0 ws }
    scan := some { node := .a, pos := 0, len := ws.length, flags := 0#32 } }

end Sys2Proof.Machine
end

