-- ==== Sys2Proof/Machine/Engine.lean ====
section
/-! DEFINITION. The Windowed Transfer Engine: INIT, DESTROY and ADVANCE (`40_engine.md`). -/

namespace Sys2Proof.Machine

/-- The node state that INIT leaves (R140, R301, R302): `c` cells of each staging array, all `Unwritten`. -/
def initNode (x : NodeState) (c : Count) : NodeState :=
  { x with
    life := .active, cap := c, lss := 0#16, lrs := 0#16, rss := 0#16, rrs := 0#16, sendData := [], recvData := [] }

/-- The node state that DESTROY leaves (R141): no staging cells. -/
def destroyNode (x : NodeState) : NodeState :=
  { x with
    life := .destroyed, cap := 0#16, lss := 0#16, lrs := 0#16, rss := 0#16, rrs := 0#16, sendData := [], recvData := [] }

/-- Phase A, Deliver (R150), at most `k` rounds of its loop. Every round moves one word, so `rss - lrs` rounds are all
of them. -/
def deliverLoop (outCap : Nat) : Nat → NodeState → Except FaultCode NodeState
  | 0, x => .ok x
  | k + 1, x =>
    if x.lrs < x.rss ∧ 0 < fifoFree outCap x.outFifo then
      match x.recvData.read x.lrs.toNat with
      | .unwritten => .error .unwritten
      | .written w => deliverLoop outCap k { x with outFifo := fifoPush x.outFifo w, lrs := x.lrs + 1#16 }
    else .ok x

/-- Phase A, Deliver (R150). -/
def deliver (outCap : Nat) (x : NodeState) : Except FaultCode NodeState :=
  deliverLoop outCap (x.rss.toNat - x.lrs.toNat) x

/-- Phase A2, Rewind (R152), only with HANDSHAKE. -/
def rewind (handshake : Bool) (x : NodeState) : NodeState :=
  if handshake = true ∧ x.rss = 0#16 then { x with lrs := 0#16 } else x

/-- Phase B, Reclaim (R153). -/
def reclaim (x : NodeState) : NodeState :=
  if x.lss ≤ x.rrs then { x with lss := 0#16 } else x

/-- The loop of phase C, Stage (R155), over the words `q` of `IN[n]` not yet staged. -/
def stageLoop : List Word → NodeState → NodeState
  | [], x => { x with inFifo := [] }
  | w :: q, x =>
    if x.lss < x.cap then
      stageLoop q { x with sendData := x.sendData.write x.lss.toNat w, lss := x.lss + 1#16 }
    else { x with inFifo := w :: q }

/-- The Stage gate (R155): with HANDSHAKE a new batch starts only once the peer's receive count is back to 0. -/
def stageGate (handshake : Bool) (x : NodeState) : Bool :=
  !handshake || x.lss != 0#16 || x.rrs == 0#16

/-- Phase C, Stage (R155). -/
def stage (handshake : Bool) (x : NodeState) : NodeState :=
  if stageGate handshake x then stageLoop x.inFifo x else x

/-- The four phases of ADVANCE in their fixed order (R142, R143). -/
def advanceNode (handshake : Bool) (outCap : Nat) (x : NodeState) : Except FaultCode NodeState :=
  match deliver outCap x with
  | .error code => .error code
  | .ok y => .ok (stage handshake (reclaim (rewind handshake y)))

/-- ADVANCE (R142). -/
def execAdvance (n : Node) (s : State) : Host.Outcome State Fault Refusal :=
  commit s <|
    if (s.node n).life ≠ .active then .error .notActive
    else
      match advanceNode s.cfg.handshake (fifoCap s.cfg n .output) (s.node n) with
      | .error code => .error code
      | .ok x => .ok (s.setNode n x).done

/-- INIT (R140). -/
def execInit (n : Node) (arg : Count) (s : State) : Host.Outcome State Fault Refusal :=
  commit s <|
    if (s.node n).life = .active then .error .badInit
    else if arg = 0#16 ∨ s.cfg.capMax < arg.toNat then .error .badInit
    else .ok (s.setNode n (initNode (s.node n) arg)).done

/-- DESTROY (R141). -/
def execDestroy (n : Node) (s : State) : Host.Outcome State Fault Refusal :=
  commit s <|
    if (s.node n).life ≠ .active then .error .notActive
    else .ok (s.setNode n (destroyNode (s.node n))).done

end Sys2Proof.Machine
end

