-- ==== Sys2Proof/Machine/FifoPort.lean ====
section
/-! DEFINITION. The FIFO port: FPUSH, FPOP, FSIZE, FFREE and FPEEK (`42_fifo.md`). They are legal in every lifecycle state
of the node (R227). -/

namespace Sys2Proof.Machine

/-- FPUSH (R221). -/
def execFpush (n : Node) (q : FifoSel) (data : Word) (s : State) : Host.Outcome State Fault Refusal :=
  commit s <|
    if fifoFree (fifoCap s.cfg n q) ((s.node n).fifo q) = 0 then .ok (s.answer (boolWord false))
    else
      .ok ((s.setNode n ((s.node n).setFifo q (fifoPush ((s.node n).fifo q) data))).answer (boolWord true))

/-- FPOP (R222). -/
def execFpop (n : Node) (q : FifoSel) (s : State) : Host.Outcome State Fault Refusal :=
  commit s <|
    match (s.node n).fifo q with
    | [] => .error .fifoRange
    | w :: rest => .ok ((s.setNode n ((s.node n).setFifo q rest)).answer w)

/-- FSIZE (R223). -/
def execFsize (n : Node) (q : FifoSel) (s : State) : Host.Outcome State Fault Refusal :=
  commit s <| .ok (s.answer (zextNat ((s.node n).fifo q).length))

/-- FFREE (R224). -/
def execFfree (n : Node) (q : FifoSel) (s : State) : Host.Outcome State Fault Refusal :=
  commit s <| .ok (s.answer (zextNat (fifoFree (fifoCap s.cfg n q) ((s.node n).fifo q))))

/-- FPEEK (R225). -/
def execFpeek (n : Node) (q : FifoSel) (arg : Count) (s : State) : Host.Outcome State Fault Refusal :=
  commit s <|
    match ((s.node n).fifo q)[arg.toNat]? with
    | none => .error .fifoRange
    | some w => .ok (s.answer w)

end Sys2Proof.Machine
end

