-- ==== Sys2Proof/Machine/Framer.lean ====
section
/-! DEFINITION. The Escaping Framer: ENCODE, DECODE and the five kinds of frame word (`41_framer.md`). -/

namespace Sys2Proof.Machine

/-! ## ENCODE (R182 to R186) -/

/-- What the loop of ENCODE has computed: the words left in `IN[n]`, the frame, and the words removed. -/
structure Filled where
  queue : List Word
  frame : Memory
  removed : Nat
deriving DecidableEq, Repr

/-- The loop of ENCODE (R182) from slot `i` on, with as many slots left as the first argument says. A reserved word with
one slot left is not started: that slot is IDLE and the word stays (R183). -/
def encodeLoop (c : Config) : Nat → Nat → Filled → Filled
  | 0, _, f => f
  | k + 1, i, f =>
    match f.queue with
    | [] => encodeLoop c k (i + 1) { f with frame := f.frame.write i c.rsvIdle }
    | w :: q =>
      if w ∈ c.rsv then
        match k with
        | 0 => { f with frame := f.frame.write i c.rsvIdle }
        | k' + 1 =>
          encodeLoop c k' (i + 2)
            { queue := q, frame := (f.frame.write i c.rsvEscape).write (i + 1) w, removed := f.removed + 1 }
      else encodeLoop c k (i + 1) { queue := q, frame := f.frame.write i w, removed := f.removed + 1 }

/-- ENCODE's effect on its node (R182), for a frame of `len` slots. -/
def encodeNode (c : Config) (len : Nat) (x : NodeState) : NodeState :=
  let f := encodeLoop c len 0 { queue := x.inFifo, frame := x.txFrame, removed := 0 }
  { x with inFifo := f.queue, txFrame := f.frame, fxCount := zextNat f.removed }

/-- ENCODE (R182). -/
def execEncode (n : Node) (arg : Count) (s : State) : Host.Outcome State Fault Refusal :=
  commit s <|
    if s.cfg.frameMax < arg.toNat then .error .argRange
    else .ok (s.setNode n (encodeNode s.cfg arg.toNat (s.node n))).done

/-! ## One frame word (R190 to R195)

Each operation takes the node and the place of the scan, and answers both after the word. A scan has ended when its
place is no longer below its length. -/

/-- The scan goes on `k` words further. -/
def Scan.skip (sc : Scan) (k : Nat) : Scan := { sc with pos := sc.pos + k }

/-- The scan records `flag`. -/
def Scan.mark (sc : Scan) (flag : Word) : Scan := { sc with flags := raiseFlag sc.flags flag }

/-- `flags <- flags | LOCAL_RX_OVERFLOW; break` (R194): the rest of the frame is not processed. -/
def Scan.overflow (sc : Scan) : Scan := { sc.mark flagLocalRxOverflow with pos := sc.len }

/-- An IDLE word is discarded (R191). -/
def scanIdle (x : NodeState) (sc : Scan) : Except FaultCode (NodeState × Scan) :=
  .ok (x, sc.skip 1)

/-- An UNDERRUN word sets REMOTE_UNDERRUN (R193). -/
def scanUnderrun (x : NodeState) (sc : Scan) : Except FaultCode (NodeState × Scan) :=
  .ok (x, (sc.mark flagRemoteUnderrun).skip 1)

/-- An OVERRUN word sets REMOTE_OVERRUN (R193). -/
def scanOverrun (x : NodeState) (sc : Scan) : Except FaultCode (NodeState × Scan) :=
  .ok (x, (sc.mark flagRemoteOverrun).skip 1)

/-- A LITERAL word is delivered, if OUT has room (R190, R194). -/
def scanLiteral (outCap : Nat) (w : Word) (x : NodeState) (sc : Scan) : Except FaultCode (NodeState × Scan) :=
  if fifoFree outCap x.outFifo = 0 then .ok (x, sc.overflow)
  else .ok ({ x with outFifo := fifoPush x.outFifo w }, sc.skip 1)

/-- An ESCAPE word and the word after it form one item (R192). As the last word it is discarded and sets
TRUNCATED_ESCAPE (R195). -/
def scanEscape (outCap : Nat) (x : NodeState) (sc : Scan) : Except FaultCode (NodeState × Scan) :=
  if sc.pos + 1 = sc.len then .ok (x, (sc.mark flagTruncatedEscape).skip 1)
  else if fifoFree outCap x.outFifo = 0 then .ok (x, sc.overflow)
  else
    match x.rxFrame.read (sc.pos + 1) with
    | .unwritten => .error .unwritten
    | .written d => .ok ({ x with outFifo := fifoPush x.outFifo d }, sc.skip 2)

/-- One frame word of any kind. -/
def scanWord (outCap : Nat) (k : FrameWord) (x : NodeState) (sc : Scan) : Except FaultCode (NodeState × Scan) :=
  match k with
  | .idle => scanIdle x sc
  | .underrun => scanUnderrun x sc
  | .overrun => scanOverrun x sc
  | .escape => scanEscape outCap x sc
  | .literal w => scanLiteral outCap w x sc

/-! ## DECODE (R190) -/

/-- The loop of DECODE, at most `k` rounds of it. Every round moves the scan on, so as many rounds as the frame has words
are all of them. -/
def scanLoop (c : Config) (outCap : Nat) : Nat → NodeState → Scan → Except FaultCode (NodeState × Scan)
  | 0, x, sc => .ok (x, sc)
  | k + 1, x, sc =>
    if sc.pos < sc.len then
      match x.rxFrame.read sc.pos with
      | .unwritten => .error .unwritten
      | .written w =>
        match scanWord outCap (classify c w) x sc with
        | .error code => .error code
        | .ok (y, sd) => scanLoop c outCap k y sd
    else .ok (x, sc)

/-- DECODE (R190). The whole flag word is written, with the flags of this call alone (R196). -/
def execDecode (n : Node) (arg : Count) (s : State) : Host.Outcome State Fault Refusal :=
  commit s <|
    if s.cfg.frameMax < arg.toNat then .error .argRange
    else
      match scanLoop s.cfg (fifoCap s.cfg n .output) arg.toNat (s.node n)
          { node := n, pos := 0, len := arg.toNat, flags := 0#32 } with
      | .error code => .error code
      | .ok (x, sc) => .ok (s.setNode n { x with fxFlags := sc.flags }).done

/-! ## The frame words as instructions (log 6)

Each runs one frame word of the DECODE scan that State holds, as DECODE itself does. -/

/-- The state after one frame word: the scan goes on, or it has ended and its flags are the result (R196). -/
def State.afterWord (s : State) (n : Node) (x : NodeState) (sc : Scan) : State :=
  if sc.pos < sc.len then { s.setNode n x with scan := some sc }
  else { s.setNode n { x with fxFlags := sc.flags } with scan := none, result := none }

/-- A frame word with effect `f`, at the place where the scan stands. -/
def runFrameWord (s : State) (f : Nat → NodeState → Scan → Except FaultCode (NodeState × Scan)) :
    Host.Outcome State Fault Refusal :=
  match s.scan with
  | none => .refused .noFrameScan
  | some sc =>
    commit s <|
      match f (fifoCap s.cfg sc.node .output) (s.node sc.node) sc with
      | .error code => .error code
      | .ok (x, sd) => .ok (s.afterWord sc.node x sd)

/-- The frame word IDLE (R191). -/
def execIdle (s : State) : Host.Outcome State Fault Refusal :=
  runFrameWord s fun _ => scanIdle

/-- The frame word ESCAPE (R192, R194, R195). -/
def execEscape (s : State) : Host.Outcome State Fault Refusal :=
  runFrameWord s fun outCap => scanEscape outCap

/-- The frame word UNDERRUN (R193). -/
def execUnderrun (s : State) : Host.Outcome State Fault Refusal :=
  runFrameWord s fun _ => scanUnderrun

/-- The frame word OVERRUN (R193). -/
def execOverrun (s : State) : Host.Outcome State Fault Refusal :=
  runFrameWord s fun _ => scanOverrun

/-- A LITERAL frame word (R190, R194). -/
def execLiteral (w : Word) (s : State) : Host.Outcome State Fault Refusal :=
  runFrameWord s fun outCap => scanLiteral outCap w

end Sys2Proof.Machine
end

