-- ==== Sys2Proof/Machine/Observe.lean ====
section
/-! DEFINITION. Observation: RDREG and RDARR (`44_observe.md`). They change nothing (R262). -/

namespace Sys2Proof.Machine

/-- RDREG (R260). -/
def execRdreg (n : Node) (r : RegSel) (s : State) : Host.Outcome State Fault Refusal :=
  commit s <|
    if regNeedsActive r = true ∧ (s.node n).life ≠ .active then .error .notActive
    else .ok (s.answer (readReg (s.node n) r))

/-- RDARR (R261). -/
def execRdarr (n : Node) (x : ArrSel) (arg : Count) (s : State) : Host.Outcome State Fault Refusal :=
  commit s <|
    if arrNeedsActive x = true ∧ (s.node n).life ≠ .active then .error .notActive
    else if arrayLength s.cfg (s.node n) x ≤ arg.toNat then .error .argRange
    else
      match ((s.node n).array x).read arg.toNat with
      | .unwritten => .error .unwritten
      | .written w => .ok (s.answer w)

end Sys2Proof.Machine
end

