-- ==== Sys2Proof/Machine/Transport.lean ====
section
/-! DEFINITION. The transport and the test writes: XCHG, FRAME, SET_RECV, SET_RSS, SET_RRS and SET_RXF
(`43_transport.md`). -/

namespace Sys2Proof.Machine

/-- One direction of XCHG (R241): what node `d` becomes when node `x` is the sender. It reads `lss`, `lrs` and
`send_data` of the sender only, and writes `rss`, `rrs` and `recv_data` only (R242). -/
def receiveFrom (x d : NodeState) : NodeState :=
  { d with rss := x.lss, rrs := x.lrs, recvData := copyCells x.sendData x.lss.toNat d.recvData }

/-- XCHG (R241). Both directions read the state before it, which R242 says makes no difference. -/
def execXchg (s : State) : Host.Outcome State Fault Refusal :=
  commit s <|
    if s.nodeA.life ≠ .active then .error .notActive
    else if s.nodeB.life ≠ .active then .error .notActive
    else if s.nodeB.cap < s.nodeA.lss then .error .xchgCapacity
    else if s.nodeA.cap < s.nodeB.lss then .error .xchgCapacity
    else .ok { s with nodeA := receiveFrom s.nodeB s.nodeA, nodeB := receiveFrom s.nodeA s.nodeB, result := none }

/-- FRAME (R244), sent by node `n`. -/
def execFrame (n : Node) (arg : Count) (s : State) : Host.Outcome State Fault Refusal :=
  commit s <|
    if s.cfg.frameMax < arg.toNat then .error .argRange
    else
      match copyWritten (s.node n).txFrame arg.toNat (s.node n.peer).rxFrame with
      | .error code => .error code
      | .ok m => .ok (s.setNode n.peer { s.node n.peer with rxFrame := m }).done

/-- SET_RECV (R245). -/
def execSetRecv (n : Node) (arg : Count) (data : Word) (s : State) : Host.Outcome State Fault Refusal :=
  commit s <|
    if (s.node n).life ≠ .active then .error .notActive
    else if (s.node n).cap ≤ arg then .error .argRange
    else .ok (s.setNode n { s.node n with recvData := (s.node n).recvData.write arg.toNat data }).done

/-- SET_RSS (R246). -/
def execSetRss (n : Node) (arg : Count) (s : State) : Host.Outcome State Fault Refusal :=
  commit s <|
    if (s.node n).life ≠ .active then .error .notActive
    else if (s.node n).cap < arg then .error .argRange
    else .ok (s.setNode n { s.node n with rss := arg }).done

/-- SET_RRS (R247). -/
def execSetRrs (n : Node) (arg : Count) (s : State) : Host.Outcome State Fault Refusal :=
  commit s <|
    if (s.node n).life ≠ .active then .error .notActive
    else .ok (s.setNode n { s.node n with rrs := arg }).done

/-- SET_RXF (R248). -/
def execSetRxf (n : Node) (arg : Count) (data : Word) (s : State) : Host.Outcome State Fault Refusal :=
  commit s <|
    if s.cfg.frameMax ≤ arg.toNat then .error .argRange
    else .ok (s.setNode n { s.node n with rxFrame := (s.node n).rxFrame.write arg.toNat data }).done

end Sys2Proof.Machine
end

