-- ==== Sys2Proof/Machine/Dispatch.lean ====
section
/-! DEFINITION. One arm per row of the opcode table: the meaning of every instruction. -/

namespace Sys2Proof.Machine

def exec (i : Instr) (s : State) : Host.Outcome State Fault Refusal :=
  match i with
  | .advance n => Sys2Proof.Machine.execAdvance n s
  | .encode n arg => Sys2Proof.Machine.execEncode n arg s
  | .decode n arg => Sys2Proof.Machine.execDecode n arg s
  | .init n arg => Sys2Proof.Machine.execInit n arg s
  | .destroy n => Sys2Proof.Machine.execDestroy n s
  | .xchg => Sys2Proof.Machine.execXchg s
  | .frame n arg => Sys2Proof.Machine.execFrame n arg s
  | .setRecv n arg data => Sys2Proof.Machine.execSetRecv n arg data s
  | .setRss n arg => Sys2Proof.Machine.execSetRss n arg s
  | .setRrs n arg => Sys2Proof.Machine.execSetRrs n arg s
  | .setRxf n arg data => Sys2Proof.Machine.execSetRxf n arg data s
  | .fpush n q data => Sys2Proof.Machine.execFpush n q data s
  | .fpop n q => Sys2Proof.Machine.execFpop n q s
  | .fsize n q => Sys2Proof.Machine.execFsize n q s
  | .ffree n q => Sys2Proof.Machine.execFfree n q s
  | .fpeek n q arg => Sys2Proof.Machine.execFpeek n q arg s
  | .rdreg n r => Sys2Proof.Machine.execRdreg n r s
  | .rdarr n x arg => Sys2Proof.Machine.execRdarr n x arg s
  | .idle => Sys2Proof.Machine.execIdle s
  | .escape => Sys2Proof.Machine.execEscape s
  | .underrun => Sys2Proof.Machine.execUnderrun s
  | .overrun => Sys2Proof.Machine.execOverrun s
  | .literal w => Sys2Proof.Machine.execLiteral w s

end Sys2Proof.Machine
end

