-- ==== Sys2Proof/Machine/Step.lean ====
section
/-! DEFINITION. One step of the system, and how an instruction comes to be the next one executed. -/

namespace Sys2Proof.Machine

/-- One step: one whole operation (R70).
- In a faulted state there is none (R272).
- With nothing issued the block is idle and nothing changes (R290).
- An issued word that is no operation raises ILLEGAL_OP without any other effect (R105, R273). Any other is executed.
- A frame word is executed where State holds a DECODE scan. DECODE itself is one step, so that no operation leaves a scan
  behind (log 6). -/
def step (s : State) : Host.Outcome State Fault Refusal :=
  match s.fault with
  | some code => .fault (.stopped code)
  | none =>
    match fetch s with
    | .nothing => .next s
    | .operation q rest =>
      match decodeOp q.word q.data with
      | .error _ => .next ((s.accept q rest).raise .illegalOp)
      | .ok i => exec i (s.accept q rest)
    | .frameWord w => exec (decodeFrame s.cfg w) s
    | .unwrittenFrameCell => .next (s.raise .unwritten)

/-- `s` with the instruction of the opcode table whose bits are `w` stored where `step` fetches its next instruction: an
operation word (and its DATA word) at the head of the issued operations, a frame word at the place where a DECODE scan of
node A stands. The frame is that one word, or for ESCAPE the two words of the pair (R113). -/
def State.withFetchWord (s : State) (nbits w : Nat) : State :=
  let v := w % 2 ^ nbits
  let first : Word := BitVec.ofNat 32 v
  let second : Word := BitVec.ofNat 32 (v / 2 ^ 32)
  match decodeWords [first, second] with
  | .ok _ => s.issueFirst { agent := .test, word := first, data := second }
  | .error _ =>
    match classify s.cfg first with
    | .escape => s.frameFirst [first, second]
    | _ => s.frameFirst [first]

end Sys2Proof.Machine
end

