-- ==== Sys2Proof/Safety.lean ====
section
/-! DEFINITION. What counts as a sound state and a sound link, and the readings of the spec in which the statements are
written: well-formed states, the link invariant between two nodes, the words on their way, and frames as lists. -/

namespace Sys2Proof

open Machine

/-! ## Kinds of instructions -/

/-- The one node an operation is addressed to (R71). XCHG and FRAME move state between the nodes, and a frame word acts
on the node of the scan: they have none here. -/
def Instr.home : Instr → Option Node
  | .advance n | .encode n _ | .decode n _ | .init n _ | .destroy n | .setRecv n _ _ | .setRss n _ | .setRrs n _
  | .setRxf n _ _ | .fpush n _ _ | .fpop n _ | .fsize n _ | .ffree n _ | .fpeek n _ _ | .rdreg n _ | .rdarr n _ _ => some n
  | .xchg | .frame _ _ | .idle | .escape | .underrun | .overrun | .literal _ => none

/-- The fault codes an instruction can raise once it is decoded (the table after R279). A frame word raises what the
DECODE that scans it raises. -/
def Instr.faultCodes : Instr → List FaultCode
  | .advance _ => [.notActive, .unwritten]
  | .encode _ _ => [.argRange]
  | .decode _ _ => [.argRange, .unwritten]
  | .init _ _ => [.badInit]
  | .destroy _ => [.notActive]
  | .xchg => [.notActive, .xchgCapacity]
  | .frame _ _ => [.argRange, .unwritten]
  | .setRecv _ _ _ => [.notActive, .argRange]
  | .setRss _ _ => [.notActive, .argRange]
  | .setRrs _ _ => [.notActive]
  | .setRxf _ _ _ => [.argRange]
  | .fpush _ _ _ => []
  | .fpop _ _ => [.fifoRange]
  | .fsize _ _ => []
  | .ffree _ _ => []
  | .fpeek _ _ _ => [.fifoRange]
  | .rdreg _ r => if regNeedsActive r then [.notActive] else []
  | .rdarr _ x _ => if arrNeedsActive x then [.notActive, .argRange, .unwritten] else [.argRange, .unwritten]
  | .escape => [.unwritten]
  | .idle | .underrun | .overrun | .literal _ => []

/-- The instructions of a run that uses the engine path in the protocol's way (R303 step 4, R315, R317): ADVANCE, XCHG,
pushes into IN, pops from OUT, operations that only observe, and the transport's frame writes. -/
def Instr.linkUse : Instr → Bool
  | .advance _ | .xchg | .fpush _ .input _ | .fpop _ .output | .fsize _ _ | .ffree _ _ | .fpeek _ _ _ | .rdreg _ _
  | .rdarr _ _ _ | .frame _ _ | .setRxf _ _ _ => true
  | .encode _ _ | .decode _ _ | .init _ _ | .destroy _ | .setRecv _ _ _ | .setRss _ _ | .setRrs _ _
  | .fpush _ .output _ | .fpop _ .input | .idle | .escape | .underrun | .overrun | .literal _ => false

/-- The instructions that may break the link of a direction: construction, teardown and the TEST writes (R305, R317). -/
def Instr.breaksLink : Instr → Bool
  | .init _ _ | .destroy _ | .setRecv _ _ _ | .setRss _ _ | .setRrs _ _ => true
  | .advance _ | .encode _ _ | .decode _ _ | .xchg | .frame _ _ | .setRxf _ _ _ | .fpush _ _ _ | .fpop _ _ | .fsize _ _
  | .ffree _ _ | .fpeek _ _ _ | .rdreg _ _ | .rdarr _ _ _ | .idle | .escape | .underrun | .overrun | .literal _ => false

end Sys2Proof

namespace Sys2Proof.Machine

/-! ## Cells as lists -/

/-- The `k` cells of an array from index `i` on. -/
def cellsFrom (m : Memory) (i k : Nat) : List Cell := (List.range k).map fun j => m.read (i + j)

/-- The word of a written cell. -/
def Cell.word? : Cell → Option Word
  | .unwritten => none
  | .written w => some w

/-! ## Well-formed states -/

/-- What holds of a node in every state that a run reaches (R33, R38, R39, R44, R76, R117, R196, R220, R241). -/
structure NodeState.Wf (c : Config) (n : Node) (x : NodeState) : Prop where
  /-- `lss <= cap` (R38). -/
  lss_le : x.lss ≤ x.cap
  /-- `lrs <= cap` (R38). -/
  lrs_le : x.lrs ≤ x.cap
  /-- `rss <= cap` (R38). -/
  rss_le : x.rss ≤ x.cap
  /-- `cap <= CAP_MAX` (R33). -/
  cap_le : x.cap.toNat ≤ c.capMax
  /-- Exactly an ACTIVE node has cells (R33, R76). -/
  active_iff : x.life = .active ↔ x.cap ≠ 0#16
  /-- A node that is not ACTIVE has no acknowledgement (R55, R141). -/
  inactive_rrs : x.life ≠ .active → x.rrs = 0#16
  send_wf : x.sendData.wf
  recv_wf : x.recvData.wf
  tx_wf : x.txFrame.wf
  rx_wf : x.rxFrame.wf
  /-- `send_data` has `cap` cells (R39). -/
  send_below : x.sendData.below x.cap.toNat
  /-- `recv_data` has `cap` cells (R40). -/
  recv_below : x.recvData.below x.cap.toNat
  /-- `tx_frame` has FRAME_MAX cells (R44). -/
  tx_below : x.txFrame.below c.frameMax
  /-- `rx_frame` has FRAME_MAX cells (R44). -/
  rx_below : x.rxFrame.below c.frameMax
  /-- Every cell of the batch in flight was written by Stage (R241). -/
  staged : ∀ i < x.lss.toNat, x.sendData.read i ≠ .unwritten
  /-- `IN[n]` is at most its capacity long (R220). -/
  in_le : x.inFifo.length ≤ fifoCap c n .input
  /-- `OUT[n]` is at most its capacity long (R220). -/
  out_le : x.outFifo.length ≤ fifoCap c n .output
  /-- Bits 0, 1, 5 and 31:7 of `fx_flags` are 0 (R117, R196). -/
  flags_ok : x.fxFlags &&& ~~~flagMask = 0#32
  /-- `fx_count <= FRAME_MAX` (R53). -/
  count_le : x.fxCount.toNat ≤ c.frameMax

/-- What holds of a system in every state that a run reaches, in an allowed configuration. -/
structure State.Wf (s : State) : Prop where
  cfg_wf : s.cfg.wf
  node_wf : ∀ n, (s.node n).Wf s.cfg n
  scan_ok : ∀ sc, s.scan = some sc → sc.pos < sc.len ∧ sc.len ≤ s.cfg.frameMax ∧ sc.flags &&& ~~~flagMask = 0#32

/-! ## Frames of the operations: what they leave alone -/

/-- `t` differs from `s` in node `n` and RESULT at most. -/
structure OnlyNode (n : Node) (s t : State) : Prop where
  cfg : t.cfg = s.cfg
  peer : t.node n.peer = s.node n.peer
  fault : t.fault = s.fault
  scan : t.scan = s.scan
  issued : t.issued = s.issued
  issuer : t.issuer = s.issuer

/-- `t` differs from `s` in RESULT at most. -/
structure OnlyResult (s t : State) : Prop where
  cfg : t.cfg = s.cfg
  node : ∀ n, t.node n = s.node n
  fault : t.fault = s.fault
  scan : t.scan = s.scan
  issued : t.issued = s.issued
  issuer : t.issuer = s.issuer

/-- Node `x` with the engine fields of `e`: lifecycle, capacity, counters and staging arrays (R181). -/
def NodeState.withEngine (x e : NodeState) : NodeState :=
  { x with
    life := e.life, cap := e.cap, lss := e.lss, lrs := e.lrs, rss := e.rss, rrs := e.rrs
    sendData := e.sendData, recvData := e.recvData }

/-! ## The link between two nodes (R158 to R161) -/

/-- The invariant of the direction from node `n` to its peer, with HANDSHAKE and without TEST writes. Either a batch is in
flight, and the peer's copy of it is a true copy, or it is reclaimed and the peer's receive count either stands at what it
delivered or has been rewound. -/
structure Link (n : Node) (s : State) : Prop where
  flight : (s.node n).lss ≠ 0#16 →
    (s.node n).rrs ≤ (s.node n.peer).lrs ∧ (s.node n.peer).lrs ≤ (s.node n.peer).rss ∧
    (s.node n.peer).rss ≤ (s.node n).lss ∧
    ∀ i < (s.node n.peer).rss.toNat, (s.node n.peer).recvData.read i = (s.node n).sendData.read i
  free : (s.node n).lss = 0#16 →
    ((s.node n.peer).rss ≠ 0#16 →
      (s.node n.peer).lrs = (s.node n.peer).rss ∧ (s.node n).rrs = (s.node n.peer).rss) ∧
    ((s.node n.peer).rss = 0#16 → (s.node n.peer).lrs = 0#16 ∨ (s.node n.peer).lrs = (s.node n).rrs)

/-- The batch in flight of a node (R52): the words of `send_data[0..lss)`. -/
def NodeState.batch (x : NodeState) : List Word :=
  (List.range x.lss.toNat).filterMap fun i => (x.sendData.read i).word?

/-- The words of the direction from node `n` to its peer, the oldest first: delivered and not yet popped, then staged and
not yet delivered, then not yet staged. -/
def State.pipeline (s : State) (n : Node) : List Word :=
  (s.node n.peer).outFifo ++ (s.node n).batch.drop (s.node n.peer).lrs.toNat ++ (s.node n).inFifo

/-- What the host of node `n` pushed into `IN[n]` and what the host of its peer popped from `OUT[peer]` in a run. -/
structure Traffic where
  pushed : List Word
  popped : List Word
deriving DecidableEq, Repr

/-- The traffic after instruction `i`, which led to state `t`. -/
def Traffic.after (h : Traffic) (n : Node) (i : Instr) (t : State) : Traffic :=
  match i with
  | .fpush m .input w =>
    if m = n ∧ t.result = some (boolWord true) then { h with pushed := h.pushed ++ [w] } else h
  | .fpop m .output =>
    if m = n.peer then
      match t.result with
      | some w => { h with popped := h.popped ++ [w] }
      | none => h
    else h
  | _ => h

/-- A run of instructions with its traffic, none if one of them does not answer a next state. -/
def runTraffic (n : Node) : List Instr → State → Traffic → Option (State × Traffic)
  | [], s, h => some (s, h)
  | i :: is, s, h =>
    match exec i s with
    | .next t => runTraffic n is t (h.after n i t)
    | .fault _ => none
    | .refused _ => none

/-! ## Frames as lists (R113, R182, R190) -/

/-- The frame words that carry one data word (R113). -/
def frameItem (c : Config) (w : Word) : List Word := if w ∈ c.rsv then [c.rsvEscape, w] else [w]

/-- The frame words that carry a list of data words, in order (R114). -/
def frameItems (c : Config) (ws : List Word) : List Word := ws.flatMap (frameItem c)

/-- The scan of DECODE read as a function of the cells it scans and of the free space of OUT (R190 to R195): the words it
delivers and its flags, or the fault it raises. -/
def decodeCells (c : Config) : Nat → List Cell → Except FaultCode (List Word × Word)
  | _, [] => .ok ([], 0#32)
  | _, .unwritten :: _ => .error .unwritten
  | room, .written w :: rest =>
    match classify c w with
    | .idle => decodeCells c room rest
    | .underrun => (decodeCells c room rest).map fun r => (r.1, raiseFlag r.2 flagRemoteUnderrun)
    | .overrun => (decodeCells c room rest).map fun r => (r.1, raiseFlag r.2 flagRemoteOverrun)
    | .escape =>
      match rest with
      | [] => .ok ([], flagTruncatedEscape)
      | d :: rest' =>
        if room = 0 then .ok ([], flagLocalRxOverflow)
        else
          match d with
          | .unwritten => .error .unwritten
          | .written v => (decodeCells c (room - 1) rest').map fun r => (v :: r.1, r.2)
    | .literal v =>
      if room = 0 then .ok ([], flagLocalRxOverflow)
      else (decodeCells c (room - 1) rest).map fun r => (v :: r.1, r.2)

end Sys2Proof.Machine
end

