-- ==== Sys2Proof/Certificates/Slice0/Obligations.lean ====
section
/-! DEFINITION. The statements for the provers, written from the numbered rules of spec/. -/

open Sys2Proof Sys2Proof.Machine

/-! ## Reset and idling -/

/-- R55: the power-on value of every piece of state of the spec, in every configuration. -/
def Obligations.PowerOnLeavesResetValues : Prop :=
  ∀ (c : Config) (n : Node),
    ((State.powerOn c).node n).life = .unconfigured ∧ ((State.powerOn c).node n).cap = 0#16 ∧
    ((State.powerOn c).node n).lss = 0#16 ∧ ((State.powerOn c).node n).lrs = 0#16 ∧
    ((State.powerOn c).node n).rss = 0#16 ∧ ((State.powerOn c).node n).rrs = 0#16 ∧
    arrayLength c ((State.powerOn c).node n) .sendData = 0 ∧ arrayLength c ((State.powerOn c).node n) .recvData = 0 ∧
    (∀ (x : ArrSel) (i : Nat), (((State.powerOn c).node n).array x).read i = .unwritten) ∧
    ((State.powerOn c).node n).fxFlags = 0x00000000#32 ∧ ((State.powerOn c).node n).fxCount = 0x00000000#32 ∧
    (∀ q : FifoSel, ((State.powerOn c).node n).fifo q = []) ∧ (State.powerOn c).fault = none

/-- R290: with no operation issued (the model's queue of issued operations is empty, log 2), a step changes nothing. -/
def Obligations.IdleStepChangesNothing : Prop :=
  ∀ s : State, s.fault = none → s.scan = none → s.issued = [] → step s = .next s

/-! ## Encodings -/

/-- R120, which the spec derives from R101, R104 and R105: the worked encodings and the illegal examples. -/
def Obligations.WorkedEncodingsDecode : Prop :=
  (∀ d : Word,
    decodeOp 0x00000001#32 d = .ok (.advance .a) ∧ decodeOp 0x00008001#32 d = .ok (.advance .b) ∧
    decodeOp 0x00050002#32 d = .ok (.encode .a 5#16) ∧ decodeOp 0x00058003#32 d = .ok (.decode .b 5#16) ∧
    decodeOp 0x00010004#32 d = .ok (.init .a 1#16) ∧ decodeOp 0x02000004#32 d = .ok (.init .a 512#16) ∧
    decodeOp 0x02008004#32 d = .ok (.init .b 512#16) ∧ decodeOp 0x00008005#32 d = .ok (.destroy .b) ∧
    decodeOp 0x00000010#32 d = .ok .xchg ∧ decodeOp 0x00050011#32 d = .ok (.frame .a 5#16) ∧
    decodeOp 0x00010013#32 d = .ok (.setRss .a 1#16) ∧ decodeOp 0x00028014#32 d = .ok (.setRrs .b 2#16) ∧
    decodeOp 0x00000121#32 d = .ok (.fpop .a .output) ∧ decodeOp 0x00008121#32 d = .ok (.fpop .b .output) ∧
    decodeOp 0x00000022#32 d = .ok (.fsize .a .input) ∧ decodeOp 0x00008123#32 d = .ok (.ffree .b .output) ∧
    decodeOp 0x00010124#32 d = .ok (.fpeek .a .output 1#16) ∧ decodeOp 0x00000230#32 d = .ok (.rdreg .a .lss) ∧
    decodeOp 0x00000330#32 d = .ok (.rdreg .a .lrs) ∧ decodeOp 0x00008630#32 d = .ok (.rdreg .b .fxFlags) ∧
    decodeOp 0x00000730#32 d = .ok (.rdreg .a .fxCount) ∧ decodeOp 0x00000031#32 d = .ok (.rdarr .a .sendData 0#16) ∧
    decodeOp 0x00028331#32 d = .ok (.rdarr .b .rxFrame 2#16)) ∧
  decodeOp 0x00000012#32 0xDEADBEEF#32 = .ok (.setRecv .a 0#16 0xDEADBEEF#32) ∧
  decodeOp 0x00038015#32 0x00000007#32 = .ok (.setRxf .b 3#16 0x00000007#32) ∧
  decodeOp 0x00000020#32 0xBEEFCAFE#32 = .ok (.fpush .a .input 0xBEEFCAFE#32) ∧
  decodeOp 0x00008020#32 0xBEEFCAFE#32 = .ok (.fpush .b .input 0xBEEFCAFE#32) ∧
  ∀ d : Word, ∀ w ∈ [0x00000000#32, 0x00000101#32, 0x00010001#32, 0x00008010#32, 0x00000220#32, 0x00000830#32],
    ∃ e, decodeOp w d = .error e

/-- Decode and encode agree on every operation, with every operand at every value, whatever words follow it. -/
def Obligations.OperationWordsRoundTrip : Prop :=
  ∀ (c : Config) (i : Instr) (rest : List Word), i.isOperation = true →
    decodeWords (encode c i ++ rest) = .ok (i, rest)

/-- Every legal operation word is the encoding of the operation it decodes to: no bit of it is dropped (R110). -/
def Obligations.LegalWordsAreEncodings : Prop :=
  ∀ (c : Config) (w d : Word) (i : Instr), decodeOp w d = .ok i →
    encode c i = if carriesData w then [w, d] else [w]

/-- R105: exactly which words are illegal, and that an issued one raises ILLEGAL_OP without any other effect. -/
def Obligations.IllegalWordsRaiseIllegalOp : Prop :=
  (∀ w d : Word, (∃ e, decodeOp w d = .error e) ↔
    (opOf w).toNat ∉ [0x01, 0x02, 0x03, 0x04, 0x05, 0x10, 0x11, 0x12, 0x13, 0x14, 0x15, 0x20, 0x21, 0x22, 0x23, 0x24,
      0x30, 0x31] ∨
    ((opOf w).toNat ∈ [0x01, 0x02, 0x03, 0x04, 0x05, 0x10, 0x11, 0x12, 0x13, 0x14, 0x15] ∧ selOf w ≠ 0#7) ∨
    ((opOf w).toNat ∈ [0x20, 0x21, 0x22, 0x23, 0x24] ∧ 1 < (selOf w).toNat) ∨
    ((opOf w).toNat = 0x30 ∧ 7 < (selOf w).toNat) ∨ ((opOf w).toNat = 0x31 ∧ 3 < (selOf w).toNat) ∨
    ((opOf w).toNat ∈ [0x01, 0x05, 0x10, 0x20, 0x21, 0x22, 0x23, 0x30] ∧ argOf w ≠ 0#16) ∨
    ((opOf w).toNat = 0x10 ∧ nodeOf w = .b)) ∧
  ∀ (s : State) (q : Issue) (rest : List Issue) (e : Illegal), s.fault = none → s.scan = none → s.issued = q :: rest →
    decodeOp q.word q.data = .error e →
    step s = .next { s with issued := rest, issuer := some q.agent, fault := some .illegalOp, result := none }

/-- Each frame word has exactly one kind (R112), and a word of a frame is the encoding of its kind. -/
def Obligations.FrameWordsHaveOneKind : Prop :=
  ∀ (c : Config) (w : Word), c.wf →
    (decodeFrame c w = .idle ↔ w = c.rsvIdle) ∧ (decodeFrame c w = .escape ↔ w = c.rsvEscape) ∧
    (decodeFrame c w = .underrun ↔ w = c.rsvUnderrun) ∧ (decodeFrame c w = .overrun ↔ w = c.rsvOverrun) ∧
    (∀ v, decodeFrame c w = .literal v ↔ v = w ∧ w ∉ c.rsv) ∧ encode c (decodeFrame c w) = [w]

/-- Decode and encode agree on every well-formed frame word. -/
def Obligations.FrameWordsRoundTrip : Prop :=
  ∀ (c : Config) (i : Instr), c.wf → i.wf c = true → i.isOperation = false →
    ∃ w, encode c i = [w] ∧ decodeFrame c w = i

/-! ## The step -/

/-- A step executes the issued operation that is next: it leaves the queue, its agent is recorded, and the rest is the
meaning of the decoded operation. That issued operations wait in a queue is the model's form (logs 2 and 3). -/
def Obligations.StepRunsIssuedOperation : Prop :=
  ∀ (s : State) (q : Issue) (rest : List Issue) (i : Instr), s.fault = none → s.scan = none → s.issued = q :: rest →
    decodeOp q.word q.data = .ok i →
    step s = exec i { s with issued := rest, issuer := some q.agent }

/-- Where State holds a DECODE scan, a step executes the frame word at which the scan stands (log 6). -/
def Obligations.StepRunsFrameWord : Prop :=
  ∀ (s : State) (sc : Scan) (w : Word), s.fault = none → s.scan = some sc →
    (s.node sc.node).rxFrame.read sc.pos = .written w → step s = exec (decodeFrame s.cfg w) s

/-- R272: a faulted state has no successor, and what is seen of it is the code. That the model shows this as the
outcome `fault` is its own form (log 5). -/
def Obligations.FaultedStateHasNoStep : Prop :=
  ∀ (s : State) (code : FaultCode), s.fault = some code → step s = .fault (.stopped code)

/-- No operation leaves a DECODE scan behind: every operation is one whole step (R70). -/
def Obligations.OperationsLeaveNoScan : Prop :=
  ∀ s t : State, s.scan = none → step s = .next t → t.scan = none

/-- R285: the agent that issues an operation makes no difference to what it does. -/
def Obligations.AgentMakesNoDifference : Prop :=
  ∀ (s t : State) (x y : Agent) (w d : Word) (rest : List Issue), s.fault = none → s.scan = none →
    step { s with issued := { agent := x, word := w, data := d } :: rest } = .next t →
    step { s with issued := { agent := y, word := w, data := d } :: rest } = .next { t with issuer := some y }

/-- The fault codes each instruction can raise are those of the table after R279. -/
def Obligations.FaultCodesFollowTheTable : Prop :=
  ∀ (i : Instr) (s t : State) (code : FaultCode), s.fault = none → exec i s = .next t → t.fault = some code →
    code ∈ i.faultCodes

/-- A fault writes the fault record and nothing else. That the effects made before an UNWRITTEN fault are rolled back is
the model's choice (log 4): R272 lets a model keep them or roll them back. -/
def Obligations.FaultsHaveNoOtherEffect : Prop :=
  ∀ (i : Instr) (s t : State) (code : FaultCode), s.fault = none → exec i s = .next t → t.fault = some code →
    t = { s with fault := some code, result := none }

/-! ## Construction and teardown -/

/-- R140: INIT, its encoding, its effect and its two checks. -/
def Obligations.InitConstructsNode : Prop :=
  ∀ (s : State) (n : Node) (arg : Count),
    (∀ d, decodeOp (arg ++ n.bit ++ 0#7 ++ 0x04#8) d = .ok (.init n arg)) ∧
    ((s.node n).life ≠ .active → arg ≠ 0#16 → arg.toNat ≤ s.cfg.capMax →
      ∃ t, exec (.init n arg) s = .next t ∧ OnlyNode n s t ∧ t.result = none ∧
        t.node n = { s.node n with
          life := .active, cap := arg, lss := 0#16, lrs := 0#16, rss := 0#16, rrs := 0#16
          sendData := (t.node n).sendData, recvData := (t.node n).recvData } ∧
        arrayLength t.cfg (t.node n) .sendData = arg.toNat ∧ arrayLength t.cfg (t.node n) .recvData = arg.toNat ∧
        ∀ i, (t.node n).sendData.read i = .unwritten ∧ (t.node n).recvData.read i = .unwritten) ∧
    ((s.node n).life = .active ∨ arg = 0#16 ∨ s.cfg.capMax < arg.toNat →
      exec (.init n arg) s = .next { s with fault := some .badInit, result := none })

/-- R141: DESTROY, its encoding, its effect and its check. -/
def Obligations.DestroyTearsDownNode : Prop :=
  ∀ (s : State) (n : Node),
    (∀ d, decodeOp (0#16 ++ n.bit ++ 0#7 ++ 0x05#8) d = .ok (.destroy n)) ∧
    ((s.node n).life = .active →
      ∃ t, exec (.destroy n) s = .next t ∧ OnlyNode n s t ∧ t.result = none ∧
        t.node n = { s.node n with
          life := .destroyed, cap := 0#16, lss := 0#16, lrs := 0#16, rss := 0#16, rrs := 0#16
          sendData := (t.node n).sendData, recvData := (t.node n).recvData } ∧
        arrayLength t.cfg (t.node n) .sendData = 0 ∧ arrayLength t.cfg (t.node n) .recvData = 0 ∧
        ∀ i, (t.node n).sendData.read i = .unwritten ∧ (t.node n).recvData.read i = .unwritten) ∧
    ((s.node n).life ≠ .active →
      exec (.destroy n) s = .next { s with fault := some .notActive, result := none })

/-- R32: only INIT and DESTROY change the lifecycle of a node. -/
def Obligations.LifecycleChangesOnlyByInitAndDestroy : Prop :=
  ∀ (i : Instr) (s t : State) (n : Node), exec i s = .next t →
    (t.node n).life = (s.node n).life ∨ (∃ arg, i = .init n arg) ∨ i = .destroy n

/-- R71: an operation addressed to a node leaves the other node, and the parameters, as they are. -/
def Obligations.OtherNodeIsUntouched : Prop :=
  ∀ (i : Instr) (s t : State) (n : Node), i.home = some n → exec i s = .next t →
    t.node n.peer = s.node n.peer ∧ t.cfg = s.cfg

/-! ## ADVANCE -/

/-- R142: ADVANCE, its encoding, its effect and its faults. `k` words are delivered, the batch starts again at `base`, `m` words are staged. A cell that Deliver
must read and that was never written raises UNWRITTEN. -/
def Obligations.AdvanceMovesWords : Prop :=
  ∀ (s : State) (n : Node) (k base m : Nat),
    k = min ((s.node n).rss.toNat - (s.node n).lrs.toNat)
      (fifoCap s.cfg n .output - (s.node n).outFifo.length) →
    base = (if (s.node n).lss ≤ (s.node n).rrs then 0 else (s.node n).lss.toNat) →
    m = (if s.cfg.handshake = false ∨ base ≠ 0 ∨ (s.node n).rrs = 0#16 then
      min ((s.node n).cap.toNat - base) (s.node n).inFifo.length else 0) →
    (∀ d, decodeOp (0#16 ++ n.bit ++ 0#7 ++ 0x01#8) d = .ok (.advance n)) ∧
    ((s.node n).life = .active →
      ∀ ws : List Word, cellsFrom (s.node n).recvData (s.node n).lrs.toNat k = ws.map .written →
        ∃ t, exec (.advance n) s = .next t ∧ OnlyNode n s t ∧ t.result = none ∧
          t.node n = { s.node n with
            outFifo := (s.node n).outFifo ++ ws
            lrs := if s.cfg.handshake = true ∧ (s.node n).rss = 0#16 then 0#16 else (s.node n).lrs + BitVec.ofNat 16 k
            lss := BitVec.ofNat 16 (base + m)
            inFifo := (s.node n).inFifo.drop m
            sendData := (t.node n).sendData } ∧
          ∀ i, (t.node n).sendData.read i =
            if base ≤ i then
              match ((s.node n).inFifo.take m)[i - base]? with
              | some w => .written w
              | none => (s.node n).sendData.read i
            else (s.node n).sendData.read i) ∧
    ((s.node n).life = .active → .unwritten ∈ cellsFrom (s.node n).recvData (s.node n).lrs.toNat k →
      ∃ t, exec (.advance n) s = .next t ∧ t.fault = some .unwritten) ∧
    ((s.node n).life ≠ .active →
      exec (.advance n) s = .next { s with fault := some .notActive, result := none })

/-- R156: with HANDSHAKE, a second ADVANCE of the node with nothing between changes no state. -/
def Obligations.AdvanceTwiceIsAdvanceOnce : Prop :=
  ∀ (s t : State) (n : Node), s.cfg.handshake = true → s.fault = none → exec (.advance n) s = .next t → t.fault = none →
    exec (.advance n) t = .next t

/-- The same without HANDSHAKE. R156 and R164 say that it fails: one ADVANCE can reclaim a batch and stage another, which
the next ADVANCE reclaims unsent. -/
def Obligations.LiteralAdvanceTwiceIsAdvanceOnce : Prop :=
  ∀ (s t : State) (n : Node), s.Wf → s.cfg.handshake = false → s.fault = none → exec (.advance n) s = .next t →
    t.fault = none → exec (.advance n) t = .next t

/-- R41: no instruction writes a cell of the batch in flight while the batch stands. -/
def Obligations.StagedBatchIsImmutable : Prop :=
  ∀ (i : Instr) (s t : State) (n : Node), s.cfg.handshake = true → exec i s = .next t →
    (t.node n).lss = 0#16 ∨
    ((s.node n).lss ≤ (t.node n).lss ∧
      ∀ j < (s.node n).lss.toNat, (t.node n).sendData.read j = (s.node n).sendData.read j)

/-- R160: at capacity 1 with HANDSHAKE, ADVANCE takes a word from IN only if no batch is in flight and the peer's receive
count, as last exchanged, is back to 0. -/
def Obligations.CapacityOneStopsAndWaits : Prop :=
  ∀ (s t : State) (n : Node), s.cfg.handshake = true → (s.node n).cap = 1#16 → exec (.advance n) s = .next t →
    (t.node n).inFifo ≠ (s.node n).inFifo → (s.node n).lss = 0#16 ∧ (s.node n).rrs = 0#16

/-! ## The link -/

/-- After both INITs, the link invariant holds in both directions. -/
def Obligations.LinkHoldsAfterBothInits : Prop :=
  ∀ (s t u : State) (x y : Count) (n : Node), s.fault = none → exec (.init .a x) s = .next t →
    exec (.init .b y) t = .next u → u.fault = none → Link n u

/-- With HANDSHAKE, every instruction but construction, teardown and the TEST writes keeps the link invariant. -/
def Obligations.LinkSurvivesEveryOtherInstruction : Prop :=
  ∀ (i : Instr) (s t : State) (n : Node), s.Wf → s.cfg.handshake = true → Link n s → i.breaksLink = false →
    exec i s = .next t → Link n t

/-- R161, one step: ADVANCE of either node and XCHG neither lose nor duplicate nor reorder a word on its way. -/
def Obligations.AdvanceAndXchgConserveWords : Prop :=
  ∀ (i : Instr) (s t : State) (n : Node), s.Wf → s.cfg.handshake = true → Link n s →
    (i = .advance .a ∨ i = .advance .b ∨ i = .xchg) → exec i s = .next t → t.pipeline n = s.pipeline n

/-- R161: along every run of the engine path, the words popped from OUT of the peer, followed by those still on their
way, are the words pushed into IN, in order. -/
def Obligations.WordsArriveOnceInOrder : Prop :=
  ∀ (is : List Instr) (s t : State) (n : Node) (h k : Traffic), s.Wf → s.cfg.handshake = true → Link n s →
    (∀ i ∈ is, i.linkUse = true) → runTraffic n is s h = some (t, k) →
    h.popped ++ s.pipeline n = h.pushed → k.popped ++ t.pipeline n = k.pushed

/-- R158: after an ADVANCE of a linked node, its receive count is within what the peer has sent. -/
def Obligations.AdvanceRestoresWindowBound : Prop :=
  ∀ (s t : State) (n : Node), s.cfg.handshake = true → Link n.peer s → s.fault = none → exec (.advance n) s = .next t →
    t.fault = none → (t.node n).lrs ≤ (t.node n).rss

/-- R150, R243: on a link that holds, ADVANCE never meets an unwritten cell, and between nodes of equal capacity XCHG never
overruns. -/
def Obligations.LinkedOperationsRaiseNoFault : Prop :=
  ∀ (s : State) (n : Node), s.Wf → (s.node n).life = .active →
    (Link n.peer s → ∃ t, exec (.advance n) s = .next t ∧ t.fault = s.fault) ∧
    ((s.node n.peer).life = .active → (s.node n).cap = (s.node n.peer).cap →
      ∃ t, exec .xchg s = .next t ∧ t.fault = s.fault)

/-- Bounded progress (R161, R163): on a link at rest, ADVANCE, XCHG and ADVANCE of the peer carry a whole batch from IN to
OUT of the peer. -/
def Obligations.OneRoundDeliversABatch : Prop :=
  ∀ (s : State) (n : Node), s.Wf → s.cfg.handshake = true → (∀ m, Link m s) → (∀ m, (s.node m).life = .active) →
    (s.node n).cap = (s.node n.peer).cap → (s.node n).lss = 0#16 → (s.node n).rrs = 0#16 →
    (s.node n.peer).rss = 0#16 → (s.node n.peer).lrs = 0#16 →
    min (s.node n).cap.toNat (s.node n).inFifo.length ≤
      fifoCap s.cfg n.peer .output - (s.node n.peer).outFifo.length →
    ∃ t u v, exec (.advance n) s = .next t ∧ exec .xchg t = .next u ∧ exec (.advance n.peer) u = .next v ∧
      v.fault = s.fault ∧
      (v.node n.peer).outFifo = (s.node n.peer).outFifo ++ (s.node n).inFifo.take (s.node n).cap.toNat ∧
      (v.node n).inFifo = (s.node n).inFifo.drop (s.node n).cap.toNat

/-! ## The framer -/

/-- R182: ENCODE, its encoding, its effect and its check. The longest run of words of IN whose items fit is taken, and the rest of the frame is IDLE. -/
def Obligations.EncodeFillsFrame : Prop :=
  ∀ (s : State) (n : Node) (arg : Count),
    (∀ d, decodeOp (arg ++ n.bit ++ 0#7 ++ 0x02#8) d = .ok (.encode n arg)) ∧
    (arg.toNat ≤ s.cfg.frameMax →
      ∃ t k, exec (.encode n arg) s = .next t ∧ OnlyNode n s t ∧ t.result = none ∧ k ≤ (s.node n).inFifo.length ∧
        (frameItems s.cfg ((s.node n).inFifo.take k)).length ≤ arg.toNat ∧
        (∀ w, (s.node n).inFifo[k]? = some w →
          arg.toNat < (frameItems s.cfg ((s.node n).inFifo.take k)).length + (frameItem s.cfg w).length) ∧
        t.node n = { s.node n with
          inFifo := (s.node n).inFifo.drop k, fxCount := BitVec.ofNat 32 k, txFrame := (t.node n).txFrame } ∧
        ∀ i, (t.node n).txFrame.read i =
          if i < arg.toNat then
            .written ((frameItems s.cfg ((s.node n).inFifo.take k))[i]?.getD s.cfg.rsvIdle)
          else (s.node n).txFrame.read i) ∧
    (s.cfg.frameMax < arg.toNat →
      exec (.encode n arg) s = .next { s with fault := some .argRange, result := none })

/-- R198: a frame carries at least half as many words as it has slots, where IN holds that many. -/
def Obligations.EncodeCarriesHalfTheSlots : Prop :=
  ∀ (s t : State) (n : Node) (arg : Count), arg.toNat ≤ s.cfg.frameMax → arg.toNat / 2 ≤ (s.node n).inFifo.length →
    exec (.encode n arg) s = .next t → arg.toNat / 2 ≤ (t.node n).fxCount.toNat

/-- R190: DECODE, its encoding, its effect and its faults. It does what the left to right reading of its cells,
`decodeCells`, says. -/
def Obligations.DecodeFollowsTheFrame : Prop :=
  ∀ (s : State) (n : Node) (arg : Count),
    (∀ d, decodeOp (arg ++ n.bit ++ 0#7 ++ 0x03#8) d = .ok (.decode n arg)) ∧
    (arg.toNat ≤ s.cfg.frameMax → ∀ (ws : List Word) (flags : Word),
      decodeCells s.cfg (fifoCap s.cfg n .output - (s.node n).outFifo.length)
        (cellsFrom (s.node n).rxFrame 0 arg.toNat) = .ok (ws, flags) →
      ∃ t, exec (.decode n arg) s = .next t ∧ OnlyNode n s t ∧ t.result = none ∧
        t.node n = { s.node n with outFifo := (s.node n).outFifo ++ ws, fxFlags := flags }) ∧
    (arg.toNat ≤ s.cfg.frameMax → ∀ code : FaultCode,
      decodeCells s.cfg (fifoCap s.cfg n .output - (s.node n).outFifo.length)
        (cellsFrom (s.node n).rxFrame 0 arg.toNat) = .error code →
      code = .unwritten ∧ ∃ t, exec (.decode n arg) s = .next t ∧ t.fault = some .unwritten) ∧
    (s.cfg.frameMax < arg.toNat →
      exec (.decode n arg) s = .next { s with fault := some .argRange, result := none })

/-- R312: a DECODE with room for as many words as its frame has slots never overflows. -/
def Obligations.DecodeWithRoomNeverOverflows : Prop :=
  ∀ (s t : State) (n : Node) (arg : Count), s.fault = none →
    arg.toNat ≤ fifoCap s.cfg n .output - (s.node n).outFifo.length →
    exec (.decode n arg) s = .next t → t.fault = none → (t.node n).fxFlags &&& 0x00000004#32 = 0#32

/-- R46, R47: only DECODE writes the flags of its node, and only ENCODE the count. A frame word writes the flags of the scan
it ends, as the DECODE it belongs to (log 6). -/
def Obligations.ResultRegistersChangeOnlyByTheFramer : Prop :=
  ∀ (i : Instr) (s t : State) (n : Node), i.isOperation = true → exec i s = .next t →
    ((t.node n).fxFlags = (s.node n).fxFlags ∨ ∃ arg, i = .decode n arg) ∧
    ((t.node n).fxCount = (s.node n).fxCount ∨ ∃ arg, i = .encode n arg)

/-- R181: ENCODE and DECODE neither read nor write an engine field: with any other engine fields in the node they do the
same. -/
def Obligations.FramerIgnoresEngine : Prop :=
  ∀ (s t : State) (n : Node) (arg : Count) (e : NodeState), ∀ i ∈ [Instr.encode n arg, .decode n arg],
    exec i s = .next t →
    exec i (s.setNode n ((s.node n).withEngine e)) = .next (t.setNode n ((t.node n).withEngine e))

/-- R197: ENCODE, FRAME and DECODE carry every word sequence that fits, reserved values included, to OUT of the peer. -/
def Obligations.FrameRoundTrip : Prop :=
  ∀ (s : State) (n : Node) (arg : Count), s.cfg.wf → arg.toNat ≤ s.cfg.frameMax →
    (s.node n).inFifo.length + (s.node n).inFifo.countP (fun w => w ∈ s.cfg.rsv) ≤ arg.toNat →
    (s.node n).inFifo.length ≤ fifoCap s.cfg n.peer .output - (s.node n.peer).outFifo.length →
    ∃ t u v, exec (.encode n arg) s = .next t ∧ exec (.frame n arg) t = .next u ∧
      exec (.decode n.peer arg) u = .next v ∧ v.fault = s.fault ∧
      (v.node n.peer).outFifo = (s.node n.peer).outFifo ++ (s.node n).inFifo ∧ (v.node n.peer).fxFlags = 0#32 ∧
      (v.node n).fxCount = BitVec.ofNat 32 (s.node n).inFifo.length ∧ (v.node n).inFifo = []

/-- R200: a round of ENCODE, FRAME and DECODE with any frame length loses, duplicates and reorders nothing, and with two
slots or more it makes progress. -/
def Obligations.FrameRoundConservesWords : Prop :=
  ∀ (s : State) (n : Node) (arg : Count), s.cfg.wf → arg.toNat ≤ s.cfg.frameMax →
    arg.toNat ≤ fifoCap s.cfg n.peer .output - (s.node n.peer).outFifo.length →
    ∃ t u v, exec (.encode n arg) s = .next t ∧ exec (.frame n arg) t = .next u ∧
      exec (.decode n.peer arg) u = .next v ∧ v.fault = s.fault ∧
      (v.node n.peer).outFifo ++ (v.node n).inFifo = (s.node n.peer).outFifo ++ (s.node n).inFifo ∧
      (v.node n.peer).fxFlags = 0#32 ∧
      (2 ≤ arg.toNat → (s.node n).inFifo ≠ [] → (v.node n).inFifo.length < (s.node n).inFifo.length)

/-- The frame words executed one a step, from the start of a frame, end where the one step of DECODE ends (R70, R190; the
frame words as instructions are the model's form, log 6). -/
def Obligations.FrameWordStepsAgreeWithDecode : Prop :=
  ∀ (s t : State) (n : Node) (arg : Count), s.fault = none → s.scan = none → arg ≠ 0#16 →
    exec (.decode n arg) s = .next t → t.fault = none →
    ∃ k ≤ arg.toNat,
      core.run k { s with scan := some { node := n, pos := 0, len := arg.toNat, flags := 0#32 } } = .next t

/-- R191, R193: the frame words that deliver nothing. `after f` is the state after such a word when the flags are `f`: the
scan goes on one word further, or it has ended and its flags are written (R196). Frame words as instructions: log 6. -/
def Obligations.ControlFrameWordsOnlySetFlags : Prop :=
  ∀ (s : State) (sc : Scan) (after : Word → State), s.scan = some sc → sc.pos < sc.len →
    (∀ f, after f =
      if sc.pos + 1 < sc.len then { s with scan := some { sc with pos := sc.pos + 1, flags := f } }
      else { s.setNode sc.node { s.node sc.node with fxFlags := f } with scan := none, result := none }) →
    exec .idle s = .next (after sc.flags) ∧ exec .underrun s = .next (after (sc.flags ||| 0x00000008#32)) ∧
    exec .overrun s = .next (after (sc.flags ||| 0x00000010#32))

/-- R192, R194, R195: the frame word ESCAPE, in the model's form of a frame word as an instruction (log 6). -/
def Obligations.EscapeDeliversTheNextWord : Prop :=
  ∀ (s : State) (sc : Scan) (finish : Word → State), s.scan = some sc → sc.pos < sc.len →
    (∀ f, finish f =
      { s.setNode sc.node { s.node sc.node with fxFlags := f } with scan := none, result := none }) →
    (sc.pos + 1 = sc.len → exec .escape s = .next (finish (sc.flags ||| 0x00000040#32))) ∧
    (sc.pos + 1 < sc.len → fifoCap s.cfg sc.node .output ≤ (s.node sc.node).outFifo.length →
      exec .escape s = .next (finish (sc.flags ||| 0x00000004#32))) ∧
    (sc.pos + 1 < sc.len → (s.node sc.node).outFifo.length < fifoCap s.cfg sc.node .output →
      (∀ d, (s.node sc.node).rxFrame.read (sc.pos + 1) = .written d →
        exec .escape s = .next
          (if sc.pos + 2 < sc.len then
            { s.setNode sc.node { s.node sc.node with outFifo := (s.node sc.node).outFifo ++ [d] } with
              scan := some { sc with pos := sc.pos + 2 } }
          else
            { s.setNode sc.node
                { s.node sc.node with outFifo := (s.node sc.node).outFifo ++ [d], fxFlags := sc.flags } with
              scan := none, result := none })) ∧
      ((s.node sc.node).rxFrame.read (sc.pos + 1) = .unwritten →
        exec .escape s = .next { s with fault := some .unwritten, result := none }))

/-- R190, R194: a LITERAL frame word, in the model's form of a frame word as an instruction (log 6). -/
def Obligations.LiteralIsDeliveredOrOverflows : Prop :=
  ∀ (s : State) (sc : Scan) (w : Word), s.scan = some sc → sc.pos < sc.len →
    ((s.node sc.node).outFifo.length < fifoCap s.cfg sc.node .output →
      exec (.literal w) s = .next
        (if sc.pos + 1 < sc.len then
          { s.setNode sc.node { s.node sc.node with outFifo := (s.node sc.node).outFifo ++ [w] } with
            scan := some { sc with pos := sc.pos + 1 } }
        else
          { s.setNode sc.node
              { s.node sc.node with outFifo := (s.node sc.node).outFifo ++ [w], fxFlags := sc.flags } with
            scan := none, result := none })) ∧
    (fifoCap s.cfg sc.node .output ≤ (s.node sc.node).outFifo.length →
      exec (.literal w) s = .next
        { s.setNode sc.node { s.node sc.node with fxFlags := sc.flags ||| 0x00000004#32 } with
          scan := none, result := none })

/-- Outside a DECODE scan a frame word has no meaning (R112 gives it one to the decoder only; log 6). -/
def Obligations.FrameWordsNeedAScan : Prop :=
  ∀ (s : State) (i : Instr), s.scan = none → i.isOperation = false → exec i s = .refused .noFrameScan

/-! ## The FIFO port -/

/-- R221: FPUSH, its encoding and its effect. -/
def Obligations.FpushAppendsOrReportsFull : Prop :=
  ∀ (s : State) (n : Node) (q : FifoSel) (w : Word),
    decodeOp (0#16 ++ n.bit ++ q.sel ++ 0x20#8) w = .ok (.fpush n q w) ∧
    (((s.node n).fifo q).length < fifoCap s.cfg n q →
      ∃ t, exec (.fpush n q w) s = .next t ∧ OnlyNode n s t ∧ t.result = some 1#32 ∧
        t.node n = (s.node n).setFifo q ((s.node n).fifo q ++ [w])) ∧
    (fifoCap s.cfg n q ≤ ((s.node n).fifo q).length →
      exec (.fpush n q w) s = .next { s with result := some 0#32 })

/-- R222: FPOP, its encoding, its effect and its fault. -/
def Obligations.FpopTakesTheFront : Prop :=
  ∀ (s : State) (n : Node) (q : FifoSel),
    (∀ d, decodeOp (0#16 ++ n.bit ++ q.sel ++ 0x21#8) d = .ok (.fpop n q)) ∧
    (∀ (w : Word) (rest : List Word), (s.node n).fifo q = w :: rest →
      ∃ t, exec (.fpop n q) s = .next t ∧ OnlyNode n s t ∧ t.result = some w ∧
        t.node n = (s.node n).setFifo q rest) ∧
    ((s.node n).fifo q = [] → exec (.fpop n q) s = .next { s with fault := some .fifoRange, result := none })

/-- R223, R224: FSIZE and FFREE, their encodings and their results. The premise makes every count fit RESULT (log 10). -/
def Obligations.FsizeAndFfreeCount : Prop :=
  ∀ (s : State) (n : Node) (q : FifoSel), s.Wf →
    (∀ d, decodeOp (0#16 ++ n.bit ++ q.sel ++ 0x22#8) d = .ok (.fsize n q)) ∧
    (∀ d, decodeOp (0#16 ++ n.bit ++ q.sel ++ 0x23#8) d = .ok (.ffree n q)) ∧
    (∃ t r, exec (.fsize n q) s = .next t ∧ OnlyResult s t ∧ t.result = some r ∧
      r.toNat = ((s.node n).fifo q).length) ∧
    ∃ t r, exec (.ffree n q) s = .next t ∧ OnlyResult s t ∧ t.result = some r ∧
      r.toNat = fifoCap s.cfg n q - ((s.node n).fifo q).length

/-- R225: FPEEK, its encoding, its result and its fault. -/
def Obligations.FpeekReadsWithoutRemoving : Prop :=
  ∀ (s : State) (n : Node) (q : FifoSel) (arg : Count),
    (∀ d, decodeOp (arg ++ n.bit ++ q.sel ++ 0x24#8) d = .ok (.fpeek n q arg)) ∧
    (∀ h : arg.toNat < ((s.node n).fifo q).length,
      exec (.fpeek n q arg) s = .next { s with result := some (((s.node n).fifo q)[arg.toNat]'h) }) ∧
    (((s.node n).fifo q).length ≤ arg.toNat →
      exec (.fpeek n q arg) s = .next { s with fault := some .fifoRange, result := none })

/-! ## The transport and the test writes -/

/-- R241: XCHG, its only legal word, its effect and its checks in their order. -/
def Obligations.XchgCopiesBothDirections : Prop :=
  (∀ w d : Word, decodeOp w d = .ok .xchg ↔ w = 0x00000010#32) ∧ ∀ s : State, s.Wf →
    ((∀ n, (s.node n).life = .active) → (∀ n, (s.node n).lss ≤ (s.node n.peer).cap) →
      ∃ t, exec .xchg s = .next t ∧ t.cfg = s.cfg ∧ t.fault = s.fault ∧ t.scan = s.scan ∧ t.issued = s.issued ∧
        t.issuer = s.issuer ∧ t.result = none ∧
        ∀ n, t.node n.peer = { s.node n.peer with
            rss := (s.node n).lss, rrs := (s.node n).lrs, recvData := (t.node n.peer).recvData } ∧
          ∀ i, (t.node n.peer).recvData.read i =
            if i < (s.node n).lss.toNat then (s.node n).sendData.read i else (s.node n.peer).recvData.read i) ∧
    (∀ n, (s.node n).life ≠ .active → exec .xchg s = .next { s with fault := some .notActive, result := none }) ∧
    ((∀ n, (s.node n).life = .active) → ∀ n, (s.node n.peer).cap < (s.node n).lss →
      exec .xchg s = .next { s with fault := some .xchgCapacity, result := none })

/-- R249: an XCHG with no operation since the last one copies the same values again. -/
def Obligations.XchgTwiceIsXchgOnce : Prop :=
  ∀ s t : State, s.Wf → s.fault = none → exec .xchg s = .next t → t.fault = none → exec .xchg t = .next t

/-- R244: FRAME, its encoding, its effect and its faults. -/
def Obligations.FrameCopiesToThePeer : Prop :=
  ∀ (s : State) (n : Node) (arg : Count),
    (∀ d, decodeOp (arg ++ n.bit ++ 0#7 ++ 0x11#8) d = .ok (.frame n arg)) ∧
    (arg.toNat ≤ s.cfg.frameMax → (∀ i < arg.toNat, (s.node n).txFrame.read i ≠ .unwritten) →
      ∃ t, exec (.frame n arg) s = .next t ∧ OnlyNode n.peer s t ∧ t.result = none ∧
        t.node n.peer = { s.node n.peer with rxFrame := (t.node n.peer).rxFrame } ∧
        ∀ i, (t.node n.peer).rxFrame.read i =
          if i < arg.toNat then (s.node n).txFrame.read i else (s.node n.peer).rxFrame.read i) ∧
    (arg.toNat ≤ s.cfg.frameMax → (∃ i < arg.toNat, (s.node n).txFrame.read i = .unwritten) →
      ∃ t, exec (.frame n arg) s = .next t ∧ t.fault = some .unwritten) ∧
    (s.cfg.frameMax < arg.toNat → exec (.frame n arg) s = .next { s with fault := some .argRange, result := none })

/-- R245: SET_RECV, its encoding, its effect and its checks. -/
def Obligations.SetRecvWritesOneCell : Prop :=
  ∀ (s : State) (n : Node) (arg : Count) (w : Word),
    decodeOp (arg ++ n.bit ++ 0#7 ++ 0x12#8) w = .ok (.setRecv n arg w) ∧
    ((s.node n).life = .active → arg < (s.node n).cap →
      ∃ t, exec (.setRecv n arg w) s = .next t ∧ OnlyNode n s t ∧ t.result = none ∧
        t.node n = { s.node n with recvData := (t.node n).recvData } ∧
        ∀ i, (t.node n).recvData.read i = if i = arg.toNat then .written w else (s.node n).recvData.read i) ∧
    ((s.node n).life ≠ .active →
      exec (.setRecv n arg w) s = .next { s with fault := some .notActive, result := none }) ∧
    ((s.node n).life = .active → (s.node n).cap ≤ arg →
      exec (.setRecv n arg w) s = .next { s with fault := some .argRange, result := none })

/-- R246: SET_RSS, its encoding, its effect and its checks. -/
def Obligations.SetRssWritesRss : Prop :=
  ∀ (s : State) (n : Node) (arg : Count),
    (∀ d, decodeOp (arg ++ n.bit ++ 0#7 ++ 0x13#8) d = .ok (.setRss n arg)) ∧
    ((s.node n).life = .active → arg ≤ (s.node n).cap →
      ∃ t, exec (.setRss n arg) s = .next t ∧ OnlyNode n s t ∧ t.result = none ∧
        t.node n = { s.node n with rss := arg }) ∧
    ((s.node n).life ≠ .active →
      exec (.setRss n arg) s = .next { s with fault := some .notActive, result := none }) ∧
    ((s.node n).life = .active → (s.node n).cap < arg →
      exec (.setRss n arg) s = .next { s with fault := some .argRange, result := none })

/-- R247: SET_RRS, its encoding, its effect and its check. -/
def Obligations.SetRrsWritesRrs : Prop :=
  ∀ (s : State) (n : Node) (arg : Count),
    (∀ d, decodeOp (arg ++ n.bit ++ 0#7 ++ 0x14#8) d = .ok (.setRrs n arg)) ∧
    ((s.node n).life = .active →
      ∃ t, exec (.setRrs n arg) s = .next t ∧ OnlyNode n s t ∧ t.result = none ∧
        t.node n = { s.node n with rrs := arg }) ∧
    ((s.node n).life ≠ .active →
      exec (.setRrs n arg) s = .next { s with fault := some .notActive, result := none })

/-- R248: SET_RXF, its encoding, its effect and its check. -/
def Obligations.SetRxfWritesOneCell : Prop :=
  ∀ (s : State) (n : Node) (arg : Count) (w : Word),
    decodeOp (arg ++ n.bit ++ 0#7 ++ 0x15#8) w = .ok (.setRxf n arg w) ∧
    (arg.toNat < s.cfg.frameMax →
      ∃ t, exec (.setRxf n arg w) s = .next t ∧ OnlyNode n s t ∧ t.result = none ∧
        t.node n = { s.node n with rxFrame := (t.node n).rxFrame } ∧
        ∀ i, (t.node n).rxFrame.read i = if i = arg.toNat then .written w else (s.node n).rxFrame.read i) ∧
    (s.cfg.frameMax ≤ arg.toNat →
      exec (.setRxf n arg w) s = .next { s with fault := some .argRange, result := none })

/-! ## Observation -/

/-- R260: RDREG, its encoding, its result register by register, and its check. -/
def Obligations.RdregReadsTheRegister : Prop :=
  ∀ (s : State) (n : Node),
    (∀ (r : RegSel) d, decodeOp (0#16 ++ n.bit ++ r.sel ++ 0x30#8) d = .ok (.rdreg n r)) ∧
    (∀ v : Word, (v = match (s.node n).life with | .unconfigured => 0#32 | .active => 1#32 | .destroyed => 2#32) →
      exec (.rdreg n .lifecycle) s = .next { s with result := some v }) ∧
    exec (.rdreg n .fxFlags) s = .next { s with result := some (s.node n).fxFlags } ∧
    exec (.rdreg n .fxCount) s = .next { s with result := some (s.node n).fxCount } ∧
    ((s.node n).life = .active →
      exec (.rdreg n .capacity) s = .next { s with result := some ((s.node n).cap.setWidth 32) } ∧
      exec (.rdreg n .lss) s = .next { s with result := some ((s.node n).lss.setWidth 32) } ∧
      exec (.rdreg n .lrs) s = .next { s with result := some ((s.node n).lrs.setWidth 32) } ∧
      exec (.rdreg n .rss) s = .next { s with result := some ((s.node n).rss.setWidth 32) } ∧
      exec (.rdreg n .rrs) s = .next { s with result := some ((s.node n).rrs.setWidth 32) }) ∧
    ((s.node n).life ≠ .active → ∀ r ∈ [RegSel.capacity, .lss, .lrs, .rss, .rrs],
      exec (.rdreg n r) s = .next { s with fault := some .notActive, result := none })

/-- R261: RDARR, its encoding, its result and its checks. `len` and `arr` are the length and the cells of the array, and `needs` says that it is a staging array. -/
def Obligations.RdarrReadsTheCell : Prop :=
  ∀ (s : State) (n : Node) (x : ArrSel) (arg : Count) (len : Nat) (arr : Memory) (needs : Bool),
    ((len, arr, needs) = match x with
      | .sendData => ((s.node n).cap.toNat, (s.node n).sendData, true)
      | .recvData => ((s.node n).cap.toNat, (s.node n).recvData, true)
      | .txFrame => (s.cfg.frameMax, (s.node n).txFrame, false)
      | .rxFrame => (s.cfg.frameMax, (s.node n).rxFrame, false)) →
    (∀ d, decodeOp (arg ++ n.bit ++ x.sel ++ 0x31#8) d = .ok (.rdarr n x arg)) ∧
    ((needs = true → (s.node n).life = .active) → arg.toNat < len → ∀ w, arr.read arg.toNat = .written w →
      exec (.rdarr n x arg) s = .next { s with result := some w }) ∧
    (needs = true → (s.node n).life ≠ .active →
      exec (.rdarr n x arg) s = .next { s with fault := some .notActive, result := none }) ∧
    ((needs = true → (s.node n).life = .active) → len ≤ arg.toNat →
      exec (.rdarr n x arg) s = .next { s with fault := some .argRange, result := none }) ∧
    ((needs = true → (s.node n).life = .active) → arg.toNat < len → arr.read arg.toNat = .unwritten →
      exec (.rdarr n x arg) s = .next { s with fault := some .unwritten, result := none })

/-! ## Well-formed states -/

/-- The power-on state of every allowed configuration is well formed. -/
def Obligations.PowerOnIsWellFormed : Prop :=
  ∀ c : Config, c.wf → (State.powerOn c).Wf

/-- Every step keeps a well-formed state well formed: the bounds of R33 and R38, the sizes of R76, the canonical form of
the arrays, the FIFO capacities of R220 and the zero bits of R196. -/
def Obligations.EveryStepKeepsWellFormed : Prop :=
  ∀ s t : State, s.Wf → step s = .next t → t.Wf
end

