-- ==== Sys2Proof/Laws/Decode.lean ====
section
/-! SUPPORT. The fields of a packed operation word, and the selectors: what the encoder writes is what the decoder reads. -/

namespace Sys2Proof

/-! ## The four fields of a concatenation -/

section
variable {a b c d : Nat} (x : BitVec a) (y : BitVec b) (z : BitVec c) (u : BitVec d)

theorem extract_fourth : (x ++ y ++ z ++ u).extractLsb' 0 d = u := by
  ext i hi
  simp [BitVec.getLsbD_append, hi]

theorem extract_third : (x ++ y ++ z ++ u).extractLsb' d c = z := by
  ext i hi
  simp [BitVec.getLsbD_append, hi]

theorem extract_second : (x ++ y ++ z ++ u).extractLsb' (c + d) b = y := by
  ext i hi
  simp [BitVec.getLsbD_append, hi, show ¬ c + d + i < d by omega, show ¬ c + d + i - d < c by omega,
    show c + d + i - d - c = i by omega]

theorem extract_first : (x ++ y ++ z ++ u).extractLsb' (b + c + d) a = x := by
  ext i hi
  simp [BitVec.getLsbD_append, hi, show ¬ b + c + d + i < d by omega, show ¬ b + c + d + i - d < c by omega,
    show ¬ b + c + d + i - d - c < b by omega, show b + c + d + i - d - c - b = i by omega]

end

/-! ## The fields of an operation word (R101) -/

variable (op : BitVec 8) (sel : BitVec 7) (n : Node) (arg : Count)

@[simp] theorem Node.ofBit_bit : Node.ofBit n.bit = n := by cases n <;> rfl

@[simp] theorem opOf_packOp : opOf (packOp op sel n arg) = op := extract_fourth arg n.bit sel op

@[simp] theorem selOf_packOp : selOf (packOp op sel n arg) = sel := extract_third arg n.bit sel op

@[simp] theorem nodeOf_packOp : nodeOf (packOp op sel n arg) = n :=
  (congrArg Node.ofBit (extract_second arg n.bit sel op)).trans n.ofBit_bit

@[simp] theorem argOf_packOp : argOf (packOp op sel n arg) = arg := extract_first arg n.bit sel op

/-! ## The selectors (R106 to R108) -/

@[simp] theorem FifoSel.ofSel_sel (q : FifoSel) : FifoSel.ofSel q.sel = some q := by cases q <;> rfl

@[simp] theorem RegSel.ofSel_sel (r : RegSel) : RegSel.ofSel r.sel = some r := by cases r <;> rfl

@[simp] theorem ArrSel.ofSel_sel (x : ArrSel) : ArrSel.ofSel x.sel = some x := by cases x <;> rfl

/-- Selectors 0 and 1 name a FIFO, no other does. -/
theorem FifoSel.ofSel_cases (v : BitVec 7) : (∃ q, FifoSel.ofSel v = some q ∧ q.sel = v) ∨ FifoSel.ofSel v = none ∧ 1 < v.toNat := by
  revert v; decide

/-- Selectors 0 to 7 name a register, no other does. -/
theorem RegSel.ofSel_cases (v : BitVec 7) : (∃ r, RegSel.ofSel v = some r ∧ r.sel = v) ∨ RegSel.ofSel v = none ∧ 7 < v.toNat := by
  revert v; decide

/-- Selectors 0 to 3 name an array, no other does. -/
theorem ArrSel.ofSel_cases (v : BitVec 7) : (∃ x, ArrSel.ofSel v = some x ∧ x.sel = v) ∨ ArrSel.ofSel v = none ∧ 3 < v.toNat := by
  revert v; decide

/-! ## The kinds of frame word (R112) -/

/-- All that `classify` can answer. -/
theorem classify_cases (c : Config) (w : Word) :
    (w = c.rsvIdle ∧ classify c w = .idle) ∨ (w = c.rsvUnderrun ∧ classify c w = .underrun) ∨
    (w = c.rsvOverrun ∧ classify c w = .overrun) ∨ (w = c.rsvEscape ∧ classify c w = .escape) ∨
    (w ∉ c.rsv ∧ classify c w = .literal w) := by
  unfold classify Config.rsv
  split
  · next h => exact .inl ⟨h, rfl⟩
  split
  · next h => exact .inr (.inl ⟨h, rfl⟩)
  split
  · next h => exact .inr (.inr (.inl ⟨h, rfl⟩))
  split
  · next h => exact .inr (.inr (.inr (.inl ⟨h, rfl⟩)))
  · next h1 h2 h3 h4 =>
    refine .inr (.inr (.inr (.inr ⟨?_, rfl⟩)))
    simp [h1, h2, h3, h4]

end Sys2Proof
end

