-- ==== Sys2Proof/Laws/State.lean ====
section
/-! SUPPORT. One lemma per field for every update of State, and the two nodes. -/

namespace Sys2Proof

@[simp] theorem Node.peer_peer (n : Node) : n.peer.peer = n := by cases n <;> rfl

@[simp] theorem Node.peer_ne (n : Node) : n.peer ≠ n := by cases n <;> decide

@[simp] theorem Node.ne_peer (n : Node) : n ≠ n.peer := by cases n <;> decide

theorem Node.eq_or_eq_peer (m n : Node) : m = n ∨ m = n.peer := by cases m <;> cases n <;> decide

end Sys2Proof

namespace Sys2Proof.Machine

/-! ## Reading a node after replacing one -/

@[simp] theorem State.node_setNode (s : State) (n : Node) (x : NodeState) : (s.setNode n x).node n = x := by
  cases n <;> rfl

@[simp] theorem State.node_peer_setNode (s : State) (n : Node) (x : NodeState) :
    (s.setNode n x).node n.peer = s.node n.peer := by
  cases n <;> rfl

@[simp] theorem State.node_setNode_peer (s : State) (n : Node) (x : NodeState) :
    (s.setNode n.peer x).node n = s.node n := by
  cases n <;> rfl

theorem State.node_setNode_of_ne (s : State) {m n : Node} (x : NodeState) (h : m ≠ n) :
    (s.setNode n x).node m = s.node m := by
  cases m <;> cases n <;> first | rfl | exact absurd rfl h

@[simp] theorem State.setNode_setNode (s : State) (n : Node) (x y : NodeState) :
    (s.setNode n x).setNode n y = s.setNode n y := by
  cases n <;> rfl

@[simp] theorem State.setNode_node (s : State) (n : Node) : s.setNode n (s.node n) = s := by
  cases n <;> rfl

@[simp] theorem State.setNode_cfg (s : State) (n : Node) (x : NodeState) : (s.setNode n x).cfg = s.cfg := by
  cases n <;> rfl

@[simp] theorem State.setNode_fault (s : State) (n : Node) (x : NodeState) : (s.setNode n x).fault = s.fault := by
  cases n <;> rfl

@[simp] theorem State.setNode_scan (s : State) (n : Node) (x : NodeState) : (s.setNode n x).scan = s.scan := by
  cases n <;> rfl

@[simp] theorem State.setNode_issued (s : State) (n : Node) (x : NodeState) : (s.setNode n x).issued = s.issued := by
  cases n <;> rfl

@[simp] theorem State.setNode_issuer (s : State) (n : Node) (x : NodeState) : (s.setNode n x).issuer = s.issuer := by
  cases n <;> rfl

@[simp] theorem State.setNode_result (s : State) (n : Node) (x : NodeState) : (s.setNode n x).result = s.result := by
  cases n <;> rfl

/-! ## The fields of a state given by its parts -/

@[simp] theorem State.node_mk_a (c : Config) (x y : NodeState) (f : Option FaultCode) (sc : Option Scan)
    (q : List Issue) (w : Option Agent) (r : Option Word) : (State.mk c x y f sc q w r).node .a = x := rfl

@[simp] theorem State.node_mk_b (c : Config) (x y : NodeState) (f : Option FaultCode) (sc : Option Scan)
    (q : List Issue) (w : Option Agent) (r : Option Word) : (State.mk c x y f sc q w r).node .b = y := rfl

/-- A node of a state that is given as an update of the other fields of `s`. -/
@[simp] theorem State.node_mk (s : State) (n : Node) (c : Config) (f : Option FaultCode) (sc : Option Scan)
    (q : List Issue) (w : Option Agent) (r : Option Word) :
    (State.mk c s.nodeA s.nodeB f sc q w r).node n = s.node n := by
  cases n <;> rfl

/-! ## The end of an operation -/

@[simp] theorem State.node_done (s : State) (n : Node) : s.done.node n = s.node n := by cases n <;> rfl
@[simp] theorem State.done_cfg (s : State) : s.done.cfg = s.cfg := rfl
@[simp] theorem State.done_fault (s : State) : s.done.fault = s.fault := rfl
@[simp] theorem State.done_scan (s : State) : s.done.scan = s.scan := rfl
@[simp] theorem State.done_issued (s : State) : s.done.issued = s.issued := rfl
@[simp] theorem State.done_issuer (s : State) : s.done.issuer = s.issuer := rfl
@[simp] theorem State.done_result (s : State) : s.done.result = none := rfl

@[simp] theorem State.node_answer (s : State) (v : Word) (n : Node) : (s.answer v).node n = s.node n := by
  cases n <;> rfl
@[simp] theorem State.answer_cfg (s : State) (v : Word) : (s.answer v).cfg = s.cfg := rfl
@[simp] theorem State.answer_fault (s : State) (v : Word) : (s.answer v).fault = s.fault := rfl
@[simp] theorem State.answer_scan (s : State) (v : Word) : (s.answer v).scan = s.scan := rfl
@[simp] theorem State.answer_issued (s : State) (v : Word) : (s.answer v).issued = s.issued := rfl
@[simp] theorem State.answer_issuer (s : State) (v : Word) : (s.answer v).issuer = s.issuer := rfl
@[simp] theorem State.answer_result (s : State) (v : Word) : (s.answer v).result = some v := rfl

@[simp] theorem State.node_raise (s : State) (code : FaultCode) (n : Node) : (s.raise code).node n = s.node n := by
  cases n <;> rfl
@[simp] theorem State.raise_cfg (s : State) (code : FaultCode) : (s.raise code).cfg = s.cfg := rfl
@[simp] theorem State.raise_fault (s : State) (code : FaultCode) : (s.raise code).fault = some code := rfl
@[simp] theorem State.raise_scan (s : State) (code : FaultCode) : (s.raise code).scan = s.scan := rfl
@[simp] theorem State.raise_issued (s : State) (code : FaultCode) : (s.raise code).issued = s.issued := rfl
@[simp] theorem State.raise_issuer (s : State) (code : FaultCode) : (s.raise code).issuer = s.issuer := rfl
@[simp] theorem State.raise_result (s : State) (code : FaultCode) : (s.raise code).result = none := rfl

@[simp] theorem State.node_accept (s : State) (q : Issue) (rest : List Issue) (n : Node) :
    (s.accept q rest).node n = s.node n := by
  cases n <;> rfl
@[simp] theorem State.accept_cfg (s : State) (q : Issue) (rest : List Issue) : (s.accept q rest).cfg = s.cfg := rfl
@[simp] theorem State.accept_fault (s : State) (q : Issue) (rest : List Issue) : (s.accept q rest).fault = s.fault := rfl
@[simp] theorem State.accept_scan (s : State) (q : Issue) (rest : List Issue) : (s.accept q rest).scan = s.scan := rfl
@[simp] theorem State.accept_issued (s : State) (q : Issue) (rest : List Issue) : (s.accept q rest).issued = rest := rfl
@[simp] theorem State.accept_issuer (s : State) (q : Issue) (rest : List Issue) :
    (s.accept q rest).issuer = some q.agent := rfl
@[simp] theorem State.accept_result (s : State) (q : Issue) (rest : List Issue) :
    (s.accept q rest).result = s.result := rfl

/-! ## FIFOs of a node -/

@[simp] theorem NodeState.fifo_setFifo (x : NodeState) (q : FifoSel) (l : List Word) : (x.setFifo q l).fifo q = l := by
  cases q <;> rfl

@[simp] theorem NodeState.setFifo_fifo (x : NodeState) (q : FifoSel) : x.setFifo q (x.fifo q) = x := by
  cases q <;> rfl

/-- What `setFifo` leaves: everything but that FIFO. -/
theorem NodeState.setFifo_frame (x : NodeState) (q : FifoSel) (l : List Word) :
    (x.setFifo q l).life = x.life ∧ (x.setFifo q l).cap = x.cap ∧ (x.setFifo q l).lss = x.lss ∧
    (x.setFifo q l).lrs = x.lrs ∧ (x.setFifo q l).rss = x.rss ∧ (x.setFifo q l).rrs = x.rrs ∧
    (x.setFifo q l).sendData = x.sendData ∧ (x.setFifo q l).recvData = x.recvData ∧
    (x.setFifo q l).txFrame = x.txFrame ∧ (x.setFifo q l).rxFrame = x.rxFrame ∧
    (x.setFifo q l).fxFlags = x.fxFlags ∧ (x.setFifo q l).fxCount = x.fxCount := by
  cases q <;> exact ⟨rfl, rfl, rfl, rfl, rfl, rfl, rfl, rfl, rfl, rfl, rfl, rfl⟩

/-! ## The outcome of an operation -/

@[simp] theorem commit_ok (s t : State) : commit s (.ok t) = .next t := rfl

@[simp] theorem commit_error (s : State) (code : FaultCode) : commit s (.error code) = .next (s.raise code) := rfl

/-- What an operation can answer: its own state, or the state it began in with a fault recorded. -/
theorem commit_next {s t : State} {r : Except FaultCode State} (h : commit s r = .next t) :
    r = .ok t ∨ ∃ code, r = .error code ∧ t = s.raise code := by
  cases r with
  | ok u => exact .inl (by simpa using h)
  | error code => exact .inr ⟨code, rfl, by simpa using h.symm⟩

end Sys2Proof.Machine
end

