-- ==== Sys2Proof/Laws/Memory.lean ====
section
/-! SUPPORT. Word arrays: read after write, and the canonical form that every operation keeps. -/

namespace Sys2Proof.Machine

@[simp] theorem Memory.read_nil (i : Nat) : Memory.read [] i = .unwritten := rfl

theorem Memory.read_cons (j : Nat) (v : Word) (m : Memory) (i : Nat) :
    Memory.read ((j, v) :: m) i = if i = j then .written v else m.read i := rfl

/-- A cell below every listed index is `Unwritten`. -/
theorem Memory.read_of_lt {m : Memory} {i : Nat} (h : ∀ x ∈ m, i < x.1) : m.read i = .unwritten := by
  induction m with
  | nil => rfl
  | cons x m ih =>
    obtain ⟨j, v⟩ := x
    have hj : i < j := h (j, v) (by simp)
    rw [Memory.read_cons, if_neg (by omega)]
    exact ih fun y hy => h y (by simp [hy])

/-- A cell above every listed index is `Unwritten`. -/
theorem Memory.read_of_below {m : Memory} {i k : Nat} (h : m.below k) (hi : k ≤ i) : m.read i = .unwritten := by
  induction m with
  | nil => rfl
  | cons x m ih =>
    obtain ⟨j, v⟩ := x
    have hj : j < k := h (j, v) (by simp)
    rw [Memory.read_cons, if_neg (by omega)]
    exact ih fun y hy => h y (by simp [hy])

/-- Writing a cell leaves every other cell. -/
theorem Memory.read_set_of_ne (m : Memory) {i j : Nat} (c : Cell) (h : j ≠ i) : (m.set i c).read j = m.read j := by
  induction m with
  | nil => cases c <;> simp [Memory.set, Memory.read, h]
  | cons x m ih =>
    obtain ⟨k, v⟩ := x
    cases c <;> simp only [Memory.set] <;> split
    · rfl
    · split
      · next hk => simp [Memory.read_cons, show j ≠ k by omega]
      · simp [Memory.read_cons, ih]
    · simp [Memory.read_cons, h]
    · split
      · next hk => simp [Memory.read_cons, h, show j ≠ k by omega]
      · simp [Memory.read_cons, ih]

/-- A written cell reads as the word written. -/
theorem Memory.read_set_written (m : Memory) (i : Nat) (w : Word) : (m.set i (.written w)).read i = .written w := by
  induction m with
  | nil => simp [Memory.set, Memory.read]
  | cons x m ih =>
    obtain ⟨k, v⟩ := x
    simp only [Memory.set]
    split
    · simp [Memory.read_cons]
    · split
      · simp [Memory.read_cons]
      · next h1 h2 => simp [Memory.read_cons, h2, ih]

/-- In canonical form, a cell reads as what was stored, its mark included. -/
theorem Memory.read_set_same {m : Memory} (hm : m.wf) (i : Nat) (c : Cell) : (m.set i c).read i = c := by
  cases c with
  | written w => exact Memory.read_set_written m i w
  | unwritten =>
    induction m with
    | nil => rfl
    | cons x m ih =>
      obtain ⟨k, v⟩ := x
      have hm' := List.pairwise_cons.1 hm
      simp only [Memory.set]
      split
      · next h =>
        refine Memory.read_of_lt fun y hy => ?_
        rcases List.mem_cons.1 hy with rfl | hy
        · exact h
        · have := hm'.1 y hy; simp only at this; omega
      · split
        · next h => subst h; exact Memory.read_of_lt fun y hy => hm'.1 y hy
        · next h1 h2 => simp [Memory.read_cons, h2, ih hm'.2]

theorem Memory.read_set {m : Memory} (hm : m.wf) (i j : Nat) (c : Cell) :
    (m.set i c).read j = if j = i then c else m.read j := by
  split
  · next h => subst h; exact Memory.read_set_same hm j c
  · next h => exact Memory.read_set_of_ne m c h

@[simp] theorem Memory.read_write (m : Memory) (i j : Nat) (w : Word) :
    (m.write i w).read j = if j = i then .written w else m.read j := by
  unfold Memory.write
  split
  · next h => subst h; exact Memory.read_set_written m j w
  · next h => exact Memory.read_set_of_ne m _ h

/-- Every entry after storing a cell is an entry from before, or the cell stored. -/
theorem Memory.mem_set {m : Memory} {i : Nat} {c : Cell} {x : Nat × Word} (h : x ∈ m.set i c) :
    x ∈ m ∨ x.1 = i := by
  induction m with
  | nil => cases c <;> simp_all [Memory.set]
  | cons y m ih =>
    obtain ⟨k, v⟩ := y
    cases c <;> simp only [Memory.set] at h <;> split at h
    · exact .inl h
    · split at h
      · exact .inl (by simp [h])
      · rcases List.mem_cons.1 h with rfl | h
        · exact .inl (by simp)
        · rcases ih h with h | h
          · exact .inl (by simp [h])
          · exact .inr h
    · rcases List.mem_cons.1 h with rfl | h
      · exact .inr rfl
      · exact .inl h
    · split at h
      · rcases List.mem_cons.1 h with rfl | h
        · exact .inr rfl
        · exact .inl (by simp [h])
      · rcases List.mem_cons.1 h with rfl | h
        · exact .inl (by simp)
        · rcases ih h with h | h
          · exact .inl (by simp [h])
          · exact .inr h

/-- Storing a cell keeps the canonical form. -/
theorem Memory.set_wf {m : Memory} (hm : m.wf) (i : Nat) (c : Cell) : (m.set i c).wf := by
  induction m with
  | nil => cases c <;> simp [Memory.set]
  | cons x m ih =>
    obtain ⟨k, v⟩ := x
    have hm' := List.pairwise_cons.1 hm
    cases c <;> simp only [Memory.set] <;> split
    · exact hm
    · split
      · exact hm'.2
      · refine List.pairwise_cons.2 ⟨fun y hy => ?_, ih hm'.2⟩
        rcases Memory.mem_set hy with h | h
        · exact hm'.1 y h
        · simp only [h]; omega
    · next h =>
      refine List.pairwise_cons.2 ⟨fun y hy => ?_, hm⟩
      rcases List.mem_cons.1 hy with rfl | hy
      · exact h
      · have := hm'.1 y hy; simp only at this ⊢; omega
    · split
      · next h => subst h; exact List.pairwise_cons.2 ⟨fun y hy => hm'.1 y hy, hm'.2⟩
      · refine List.pairwise_cons.2 ⟨fun y hy => ?_, ih hm'.2⟩
        rcases Memory.mem_set hy with h | h
        · exact hm'.1 y h
        · simp only [h]; omega

theorem Memory.write_wf {m : Memory} (hm : m.wf) (i : Nat) (w : Word) : (m.write i w).wf := Memory.set_wf hm i _

/-- Storing a cell inside the array keeps every entry inside it. -/
theorem Memory.set_below {m : Memory} {k i : Nat} (hm : m.below k) (hi : i < k) (c : Cell) : (m.set i c).below k := by
  intro x hx
  rcases Memory.mem_set hx with h | h
  · exact hm x h
  · omega

theorem Memory.write_below {m : Memory} {k i : Nat} (hm : m.below k) (hi : i < k) (w : Word) : (m.write i w).below k :=
  Memory.set_below hm hi _

/-- Storing what a cell holds already changes nothing. -/
theorem Memory.set_read_self {m : Memory} (hm : m.wf) (i : Nat) : m.set i (m.read i) = m := by
  induction m with
  | nil => rfl
  | cons x m ih =>
    obtain ⟨k, v⟩ := x
    have hm' := List.pairwise_cons.1 hm
    by_cases h1 : i < k
    · have : Memory.read ((k, v) :: m) i = .unwritten := by
        refine Memory.read_of_lt fun y hy => ?_
        rcases List.mem_cons.1 hy with rfl | hy
        · exact h1
        · have := hm'.1 y hy; simp only at this; omega
      rw [this]
      simp [Memory.set, h1]
    · by_cases h2 : i = k
      · subst h2; simp [Memory.set, Memory.read_cons]
      · rw [Memory.read_cons, if_neg h2]
        simp [Memory.set, h1, h2, ih hm'.2]

/-! ## Copying cells -/

theorem copyCells_wf (src : Memory) (k : Nat) {dst : Memory} (h : dst.wf) : (copyCells src k dst).wf := by
  induction k with
  | zero => exact h
  | succ k ih => exact Memory.set_wf ih _ _

theorem copyCells_below (src : Memory) (k : Nat) {dst : Memory} {b : Nat} (h : dst.below b) (hk : k ≤ b) :
    (copyCells src k dst).below b := by
  induction k with
  | zero => exact h
  | succ k ih => exact Memory.set_below (ih (by omega)) (by omega) _

/-- XCHG's copy: the first `k` cells are the source's, the others stay. -/
theorem copyCells_read (src : Memory) (k : Nat) {dst : Memory} (h : dst.wf) (i : Nat) :
    (copyCells src k dst).read i = if i < k then src.read i else dst.read i := by
  induction k with
  | zero => simp [copyCells]
  | succ k ih =>
    rw [copyCells, Memory.read_set (copyCells_wf src k h), ih]
    split
    · next h => subst h; simp
    · next h => simp only [show (i < k + 1) = (i < k) by simp; omega]

/-- Copying cells that are equal already changes nothing. -/
theorem copyCells_self (src : Memory) (k : Nat) {dst : Memory} (h : dst.wf) (he : ∀ i < k, dst.read i = src.read i) :
    copyCells src k dst = dst := by
  induction k with
  | zero => rfl
  | succ k ih =>
    rw [copyCells, ih fun i hi => he i (by omega), ← he k (by omega)]
    exact Memory.set_read_self h k

/-- FRAME's copy: it answers exactly when every source cell is written, and then the first `k` cells are the source's and
the others stay. -/
theorem copyWritten_ok (src : Memory) (k : Nat) {dst : Memory} (h : ∀ i < k, src.read i ≠ .unwritten) :
    ∃ m, copyWritten src k dst = .ok m ∧ ∀ i, m.read i = if i < k then src.read i else dst.read i := by
  induction k with
  | zero => exact ⟨dst, rfl, by simp⟩
  | succ k ih =>
    obtain ⟨m, hm, hr⟩ := ih fun i hi => h i (by omega)
    cases hc : src.read k with
    | unwritten => exact absurd hc (h k (by omega))
    | written w =>
      refine ⟨m.write k w, by simp [copyWritten, hm, hc], fun i => ?_⟩
      rw [Memory.read_write, hr]
      split
      · next e => subst e; simp [hc]
      · next e => simp only [show (i < k + 1) = (i < k) by simp; omega]

theorem copyWritten_error (src : Memory) (k : Nat) (dst : Memory) (h : ∃ i < k, src.read i = .unwritten) :
    copyWritten src k dst = .error .unwritten := by
  induction k with
  | zero => obtain ⟨i, hi, -⟩ := h; omega
  | succ k ih =>
    by_cases hk : ∃ i < k, src.read i = .unwritten
    · simp [copyWritten, ih hk]
    · push Not at hk
      obtain ⟨m, hm, -⟩ := copyWritten_ok src k (dst := dst) hk
      obtain ⟨i, hi, hc⟩ := h
      have : i = k := by
        by_contra hne
        exact hk i (by omega) hc
      subst this
      simp [copyWritten, hm, hc]

/-- Whatever FRAME's copy answers keeps the canonical form and the bound. -/
theorem copyWritten_keeps {src : Memory} {k : Nat} {dst m : Memory} (h : copyWritten src k dst = .ok m) :
    (dst.wf → m.wf) ∧ ∀ b, k ≤ b → dst.below b → m.below b := by
  induction k generalizing m with
  | zero => simp only [copyWritten, Except.ok.injEq] at h; subst h; exact ⟨id, fun _ _ => id⟩
  | succ k ih =>
    simp only [copyWritten] at h
    split at h
    · simp at h
    · next m' hm' =>
      split at h
      · simp at h
      · simp only [Except.ok.injEq] at h
        subst h
        exact ⟨fun hd => Memory.write_wf ((ih hm').1 hd) _ _,
          fun b hb hd => Memory.write_below ((ih hm').2 b (by omega) hd) (by omega) _⟩

theorem copyWritten_code {src : Memory} {k : Nat} {dst : Memory} {code : FaultCode}
    (h : copyWritten src k dst = .error code) : code = .unwritten := by
  induction k with
  | zero => simp [copyWritten] at h
  | succ k ih =>
    simp only [copyWritten] at h
    split at h
    · next e he => exact ih (by simpa [he] using h)
    · split at h
      · simpa using h.symm
      · simp at h

end Sys2Proof.Machine
end

