-- ==== Sys2Proof/Laws/Engine.lean ====
section
/-! SUPPORT. What the four phases of ADVANCE do, each said once (`40_engine.md` R150 to R155). -/

namespace Sys2Proof.Machine

/-! ## Cells as lists, words written in a row -/

@[simp] theorem cellsFrom_zero (m : Memory) (i : Nat) : cellsFrom m i 0 = [] := rfl

theorem cellsFrom_succ (m : Memory) (i k : Nat) : cellsFrom m i (k + 1) = m.read i :: cellsFrom m (i + 1) k := by
  simp only [cellsFrom, List.range_succ_eq_map, List.map_cons, List.map_map, Nat.add_zero]
  congr 2
  funext j
  simp [Nat.add_comm, Nat.add_left_comm]

@[simp] theorem cellsFrom_length (m : Memory) (i k : Nat) : (cellsFrom m i k).length = k := by simp [cellsFrom]

theorem cellsFrom_getElem? (m : Memory) (i k j : Nat) (h : j < k) : (cellsFrom m i k)[j]? = some (m.read (i + j)) := by
  simp [cellsFrom, h]

/-- Cells are all written, or one of them is not. -/
theorem cellsFrom_written_or (m : Memory) (i k : Nat) :
    (∃ ws : List Word, cellsFrom m i k = ws.map .written) ∨ Cell.unwritten ∈ cellsFrom m i k := by
  induction k generalizing i with
  | zero => exact .inl ⟨[], rfl⟩
  | succ k ih =>
    rw [cellsFrom_succ]
    cases hc : m.read i with
    | unwritten => exact .inr (by simp)
    | written w =>
      rcases ih (i + 1) with ⟨ws, h⟩ | h
      · exact .inl ⟨w :: ws, by simp [h]⟩
      · exact .inr (by simp [h])

theorem cellsFrom_written_iff (m : Memory) (i k : Nat) :
    (∃ ws : List Word, cellsFrom m i k = ws.map .written) ↔ ∀ j < k, m.read (i + j) ≠ .unwritten := by
  constructor
  · rintro ⟨ws, h⟩ j hj hc
    have := cellsFrom_getElem? m i k j hj
    rw [h, hc] at this
    simp [List.getElem?_map] at this
  · intro h
    rcases cellsFrom_written_or m i k with h' | h'
    · exact h'
    · simp only [cellsFrom, List.mem_map, List.mem_range] at h'
      obtain ⟨j, hj, hc⟩ := h'
      exact absurd hc (h j hj)

/-- Words written in a row: those cells hold them, the others stay. -/
theorem Memory.read_writeFrom (m : Memory) (i : Nat) (ws : List Word) (j : Nat) :
    (m.writeFrom i ws).read j =
      if i ≤ j then
        match ws[j - i]? with
        | some w => .written w
        | none => m.read j
      else m.read j := by
  induction ws generalizing m i with
  | nil => simp [Memory.writeFrom]
  | cons w ws ih =>
    rw [Memory.writeFrom, ih]
    by_cases h1 : i + 1 ≤ j
    · have e : j - i = (j - (i + 1)) + 1 := by omega
      rw [if_pos h1, if_pos (by omega), e, List.getElem?_cons_succ]
      simp [show j ≠ i by omega]
    · rw [if_neg h1]
      by_cases h2 : j = i
      · subst h2; simp
      · rw [if_neg (by omega)]
        simp [h2]

theorem Memory.writeFrom_wf {m : Memory} (h : m.wf) (i : Nat) (ws : List Word) : (m.writeFrom i ws).wf := by
  induction ws generalizing m i with
  | nil => exact h
  | cons w ws ih => exact ih (Memory.write_wf h i w) _

theorem Memory.writeFrom_below {m : Memory} {k : Nat} (h : m.below k) (i : Nat) (ws : List Word)
    (hi : i + ws.length ≤ k) : (m.writeFrom i ws).below k := by
  induction ws generalizing m i with
  | nil => exact h
  | cons w ws ih =>
    simp only [List.length_cons] at hi
    exact ih (Memory.write_below h (by omega) w) _ (by omega)

theorem Memory.writeFrom_append (m : Memory) (i : Nat) (us ws : List Word) :
    m.writeFrom i (us ++ ws) = (m.writeFrom i us).writeFrom (i + us.length) ws := by
  induction us generalizing m i with
  | nil => rfl
  | cons u us ih => simp [Memory.writeFrom, ih, Nat.add_assoc, Nat.add_comm 1]

/-! ## Deliver -/

/-- How many words Deliver moves (R150). -/
def deliverCount (outCap : Nat) (x : NodeState) : Nat :=
  min (x.rss.toNat - x.lrs.toNat) (fifoFree outCap x.outFifo)

theorem deliverLoop_ok (outCap : Nat) :
    ∀ (r : Nat) (x : NodeState) (ws : List Word), r = x.rss.toNat - x.lrs.toNat →
      cellsFrom x.recvData x.lrs.toNat (min r (fifoFree outCap x.outFifo)) = ws.map .written →
      deliverLoop outCap r x =
        .ok { x with
          outFifo := x.outFifo ++ ws, lrs := x.lrs + BitVec.ofNat 16 (min r (fifoFree outCap x.outFifo)) } := by
  intro r
  induction r with
  | zero =>
    intro x ws _ h
    have : ws = [] := by simpa using h.symm
    simp [deliverLoop, this]
  | succ r ih =>
    intro x ws hr h
    have hlt : x.lrs < x.rss := by simp [BitVec.lt_def]; omega
    by_cases hf : 0 < fifoFree outCap x.outFifo
    · obtain ⟨f, hf'⟩ : ∃ f, fifoFree outCap x.outFifo = f + 1 := ⟨_, (Nat.succ_pred_eq_of_pos hf).symm⟩
      rw [hf', show min (r + 1) (f + 1) = min r f + 1 by omega, cellsFrom_succ] at h
      cases ws with
      | nil => simp at h
      | cons w ws =>
        simp only [List.map_cons, List.cons.injEq] at h
        have hfree : fifoFree outCap (fifoPush x.outFifo w) = f := by
          simp only [fifoFree, fifoPush, List.length_append, List.length_singleton] at hf' ⊢; omega
        have hb : x.lrs.toNat + 1 < 2 ^ 16 := by have := x.rss.isLt; omega
        have hn : (x.lrs + 1#16).toNat = x.lrs.toNat + 1 := by simp [BitVec.toNat_add]; omega
        have := ih { x with outFifo := fifoPush x.outFifo w, lrs := x.lrs + 1#16 } ws
          (by simp only [hn]; omega) (by simpa only [hfree, hn] using h.2)
        simp only [hfree] at this
        rw [hf', deliverLoop, if_pos ⟨hlt, hf⟩, h.1]
        simp only [this, Except.ok.injEq, NodeState.mk.injEq, true_and]
        refine ⟨?_, by simp [fifoPush]⟩
        rw [show min (r + 1) (f + 1) = 1 + min r f by omega, BitVec.ofNat_add, BitVec.add_assoc]
    · have hf' : fifoFree outCap x.outFifo = 0 := by omega
      have : ws = [] := by simpa [hf'] using h.symm
      simp [deliverLoop, hf', this]

theorem deliverLoop_error (outCap : Nat) :
    ∀ (r : Nat) (x : NodeState), r = x.rss.toNat - x.lrs.toNat →
      .unwritten ∈ cellsFrom x.recvData x.lrs.toNat (min r (fifoFree outCap x.outFifo)) →
      deliverLoop outCap r x = .error .unwritten := by
  intro r
  induction r with
  | zero => intro x _ h; simp at h
  | succ r ih =>
    intro x hr h
    have hlt : x.lrs < x.rss := by simp [BitVec.lt_def]; omega
    by_cases hf : 0 < fifoFree outCap x.outFifo
    · obtain ⟨f, hf'⟩ : ∃ f, fifoFree outCap x.outFifo = f + 1 := ⟨_, (Nat.succ_pred_eq_of_pos hf).symm⟩
      rw [hf', show min (r + 1) (f + 1) = min r f + 1 by omega, cellsFrom_succ] at h
      rw [deliverLoop, if_pos ⟨hlt, hf⟩]
      cases hc : x.recvData.read x.lrs.toNat with
      | unwritten => rfl
      | written w =>
        have hb : x.lrs.toNat + 1 < 2 ^ 16 := by have := x.rss.isLt; omega
        have hn : (x.lrs + 1#16).toNat = x.lrs.toNat + 1 := by simp [BitVec.toNat_add]; omega
        have hfree : fifoFree outCap (fifoPush x.outFifo w) = f := by
          simp only [fifoFree, fifoPush, List.length_append, List.length_singleton] at hf' ⊢; omega
        refine ih { x with outFifo := fifoPush x.outFifo w, lrs := x.lrs + 1#16 } (by simp only [hn]; omega) ?_
        simpa [hc, hn, hfree] using h
    · have hf' : fifoFree outCap x.outFifo = 0 := by omega
      simp [hf'] at h

/-- Deliver (R150): the cells it reaches are all written, and their words go to the back of OUT. -/
theorem deliver_ok {outCap : Nat} {x : NodeState} {ws : List Word}
    (h : cellsFrom x.recvData x.lrs.toNat (deliverCount outCap x) = ws.map .written) :
    deliver outCap x =
      .ok { x with outFifo := x.outFifo ++ ws, lrs := x.lrs + BitVec.ofNat 16 (deliverCount outCap x) } :=
  deliverLoop_ok outCap _ x ws rfl h

/-- Deliver (R150): a cell it reaches was never written. -/
theorem deliver_error {outCap : Nat} {x : NodeState}
    (h : Cell.unwritten ∈ cellsFrom x.recvData x.lrs.toNat (deliverCount outCap x)) :
    deliver outCap x = .error .unwritten :=
  deliverLoop_error outCap _ x rfl h

/-- All that Deliver can do. -/
theorem deliver_cases (outCap : Nat) (x : NodeState) :
    (∃ ws : List Word, cellsFrom x.recvData x.lrs.toNat (deliverCount outCap x) = ws.map .written ∧
      deliver outCap x =
        .ok { x with outFifo := x.outFifo ++ ws, lrs := x.lrs + BitVec.ofNat 16 (deliverCount outCap x) }) ∨
    (Cell.unwritten ∈ cellsFrom x.recvData x.lrs.toNat (deliverCount outCap x) ∧
      deliver outCap x = .error .unwritten) := by
  rcases cellsFrom_written_or x.recvData x.lrs.toNat (deliverCount outCap x) with ⟨ws, h⟩ | h
  · exact .inl ⟨ws, h, deliver_ok h⟩
  · exact .inr ⟨h, deliver_error h⟩

/-- The receive count after Deliver does not wrap (R18). -/
theorem deliver_lrs_toNat (outCap : Nat) (x : NodeState) :
    (x.lrs + BitVec.ofNat 16 (deliverCount outCap x)).toNat = x.lrs.toNat + deliverCount outCap x := by
  have h1 := x.rss.isLt
  have h2 := x.lrs.isLt
  have h3 : deliverCount outCap x ≤ x.rss.toNat - x.lrs.toNat := Nat.min_le_left _ _
  rw [BitVec.toNat_add, BitVec.toNat_ofNat]
  omega

/-! ## Stage -/

/-- How many words Stage moves once its gate is open (R155). -/
def stageCount (x : NodeState) : Nat := min (x.cap.toNat - x.lss.toNat) x.inFifo.length

theorem stageLoop_eq (q : List Word) (x : NodeState) :
    stageLoop q x =
      { x with
        inFifo := q.drop (min (x.cap.toNat - x.lss.toNat) q.length)
        lss := x.lss + BitVec.ofNat 16 (min (x.cap.toNat - x.lss.toNat) q.length)
        sendData := x.sendData.writeFrom x.lss.toNat (q.take (min (x.cap.toNat - x.lss.toNat) q.length)) } := by
  induction q generalizing x with
  | nil => simp [stageLoop, Memory.writeFrom]
  | cons w q ih =>
    by_cases h : x.lss < x.cap
    · have h' : x.lss.toNat < x.cap.toNat := by simpa [BitVec.lt_def] using h
      have hn : (x.lss + 1#16).toNat = x.lss.toNat + 1 := by
        have := x.cap.isLt; simp [BitVec.toNat_add]; omega
      have hm : min (x.cap.toNat - x.lss.toNat) (w :: q).length =
          min (x.cap.toNat - (x.lss.toNat + 1)) q.length + 1 := by simp only [List.length_cons]; omega
      rw [stageLoop, if_pos h, ih]
      simp only [hn, hm, List.drop_succ_cons, List.take_succ_cons, NodeState.mk.injEq, true_and, and_true,
        Memory.writeFrom]
      rw [Nat.add_comm (min _ _) 1, BitVec.ofNat_add, BitVec.add_assoc]
    · have h' : x.cap.toNat - x.lss.toNat = 0 := by simp [BitVec.lt_def] at h; omega
      simp [stageLoop, h, h', Memory.writeFrom]

/-- Stage (R155), all that it does. -/
theorem stage_eq (handshake : Bool) (x : NodeState) :
    stage handshake x =
      if stageGate handshake x then
        { x with
          inFifo := x.inFifo.drop (stageCount x)
          lss := x.lss + BitVec.ofNat 16 (stageCount x)
          sendData := x.sendData.writeFrom x.lss.toNat (x.inFifo.take (stageCount x)) }
      else x := by
  rw [stage, stageLoop_eq]
  rfl

/-- The send count after Stage does not wrap (R18). -/
theorem stage_lss_toNat (x : NodeState) :
    (x.lss + BitVec.ofNat 16 (stageCount x)).toNat = x.lss.toNat + stageCount x := by
  have h1 := x.cap.isLt
  have h2 := x.lss.isLt
  have h3 : stageCount x ≤ x.cap.toNat - x.lss.toNat := Nat.min_le_left _ _
  rw [BitVec.toNat_add, BitVec.toNat_ofNat]
  omega

/-! ## ADVANCE -/

/-- What ADVANCE leaves of its node: everything but the two FIFOs, the two own counters and `send_data`. -/
theorem advanceNode_frame {handshake : Bool} {outCap : Nat} {x y : NodeState}
    (h : advanceNode handshake outCap x = .ok y) :
    y.life = x.life ∧ y.cap = x.cap ∧ y.rss = x.rss ∧ y.rrs = x.rrs ∧ y.recvData = x.recvData ∧
    y.txFrame = x.txFrame ∧ y.rxFrame = x.rxFrame ∧ y.fxFlags = x.fxFlags ∧ y.fxCount = x.fxCount := by
  unfold advanceNode at h
  rcases deliver_cases outCap x with ⟨ws, -, hd⟩ | ⟨-, hd⟩
  · rw [hd] at h
    simp only [Except.ok.injEq] at h
    subst h
    rw [stage_eq]
    simp only [reclaim, rewind]
    split <;> split <;> split <;> simp
  · rw [hd] at h; simp at h

/-- ADVANCE raises no fault of its node but UNWRITTEN. -/
theorem advanceNode_code {handshake : Bool} {outCap : Nat} {x : NodeState} {code : FaultCode}
    (h : advanceNode handshake outCap x = .error code) : code = .unwritten := by
  unfold advanceNode at h
  rcases deliver_cases outCap x with ⟨ws, -, hd⟩ | ⟨-, hd⟩ <;> rw [hd] at h <;> simp at h
  exact h.symm

end Sys2Proof.Machine
end

