-- ==== Sys2Proof/Laws/Framer.lean ====
section
/-! SUPPORT. What the loops of ENCODE and DECODE do, each said once (`41_framer.md` R182, R190). -/

namespace Sys2Proof.Machine

/-! ## Items -/

@[simp] theorem frameItems_nil (c : Config) : frameItems c [] = [] := rfl

@[simp] theorem frameItems_cons (c : Config) (w : Word) (ws : List Word) :
    frameItems c (w :: ws) = frameItem c w ++ frameItems c ws := rfl

theorem frameItem_reserved {c : Config} {w : Word} (h : w ∈ c.rsv) : frameItem c w = [c.rsvEscape, w] := by
  rw [frameItem, if_pos h]

theorem frameItem_plain {c : Config} {w : Word} (h : w ∉ c.rsv) : frameItem c w = [w] := by
  rw [frameItem, if_neg h]

/-- The slots that a list of words needs: one each, and one more for each reserved word (R198). -/
theorem frameItems_length (c : Config) (ws : List Word) :
    (frameItems c ws).length = ws.length + ws.countP (fun w => w ∈ c.rsv) := by
  induction ws with
  | nil => rfl
  | cons w ws ih =>
    by_cases h : w ∈ c.rsv
    · simp only [frameItems_cons, frameItem_reserved h, List.length_append, ih, List.countP_cons, h, decide_true, if_true,
        List.length_cons, List.length_nil]
      omega
    · simp only [frameItems_cons, frameItem_plain h, List.length_append, ih, List.countP_cons, h, decide_false, Bool.false_eq_true, if_false,
        List.length_cons, List.length_nil]
      omega

/-! ## The loop of ENCODE -/

/-- A slot list in front of a frame: reading it slot by slot. -/
theorem frameSlot_cons (w d : Word) (ws : List Word) (j : Nat) :
    ((w :: ws)[j]?).getD d = if j = 0 then w else (ws[j - 1]?).getD d := by
  cases j <;> simp

/-- All that the loop of ENCODE does (R182, R183): from slot `i` on it takes the longest run of words whose items fit into
`len` slots, writes their items, and pads with IDLE. -/
theorem encodeLoop_spec (c : Config) (len : Nat) : ∀ (i : Nat) (f : Filled),
    ∃ k ≤ f.queue.length,
      (frameItems c (f.queue.take k)).length ≤ len ∧
      (∀ w, f.queue[k]? = some w → len < (frameItems c (f.queue.take k)).length + (frameItem c w).length) ∧
      (encodeLoop c len i f).queue = f.queue.drop k ∧ (encodeLoop c len i f).removed = f.removed + k ∧
      ∀ j, (encodeLoop c len i f).frame.read j =
        if i ≤ j ∧ j < i + len then .written ((frameItems c (f.queue.take k))[j - i]?.getD c.rsvIdle)
        else f.frame.read j := by
  induction len using Nat.strong_induction_on with
  | _ len ih =>
    intro i f
    obtain ⟨queue, frame, removed⟩ := f
    cases len with
    | zero =>
      refine ⟨0, by simp, by simp, fun w _ => ?_, by simp [encodeLoop], by simp [encodeLoop], fun j => ?_⟩
      · unfold frameItem; split <;> simp
      · rw [if_neg (by omega)]; simp [encodeLoop]
    | succ len =>
      cases queue with
      | nil =>
        obtain ⟨k, -, -, -, hq, hr, hm⟩ := ih len (by omega) (i + 1) ⟨[], frame.write i c.rsvIdle, removed⟩
        refine ⟨0, by simp, by simp, by simp, ?_, ?_, fun j => ?_⟩
        · simp only [encodeLoop]; simpa using hq
        · have hk : k = 0 := by
            obtain ⟨k', hk', -, -, -, hr', -⟩ := ih len (by omega) (i + 1) ⟨[], frame.write i c.rsvIdle, removed⟩
            simp only [List.length_nil, Nat.le_zero] at hk'
            omega
          simp only [encodeLoop]; rw [hr, hk]
        · simp only [encodeLoop, hm, List.take_nil, frameItems_nil, List.getElem?_nil, Option.getD_none, Memory.read_write]
          by_cases h1 : i + 1 ≤ j ∧ j < i + 1 + len
          · rw [if_pos h1, if_pos (by omega)]
          · rw [if_neg h1]
            by_cases h2 : j = i
            · rw [if_pos h2, if_pos (by omega)]
            · rw [if_neg h2, if_neg (by omega)]
      | cons w q =>
        by_cases hw : w ∈ c.rsv
        · cases len with
          | zero =>
            refine ⟨0, by simp, by simp, fun v hv => ?_, ?_, ?_, fun j => ?_⟩
            · simp only [List.getElem?_cons_zero, Option.some.injEq] at hv
              subst hv
              simp [frameItem_reserved hw]
            · simp [encodeLoop, hw]
            · simp [encodeLoop, hw]
            · simp only [encodeLoop, hw, if_true, Memory.read_write, List.take_zero, frameItems_nil, List.getElem?_nil,
                Option.getD_none]
              by_cases h2 : j = i
              · rw [if_pos h2, if_pos (by omega)]
              · rw [if_neg h2, if_neg (by omega)]
          | succ len =>
            obtain ⟨k, hk, hl, hmax, hq, hr, hm⟩ := ih len (by omega) (i + 2)
              ⟨q, (frame.write i c.rsvEscape).write (i + 1) w, removed + 1⟩
            refine ⟨k + 1, by simpa using hk, ?_, fun v hv => ?_, ?_, ?_, fun j => ?_⟩
            · simp only [List.take_succ_cons, frameItems_cons, frameItem_reserved hw, List.length_append, List.length_cons,
                List.length_nil]
              simp only at hl; omega
            · have := hmax v (by simpa using hv)
              simp only [List.take_succ_cons, frameItems_cons, frameItem_reserved hw, List.length_append, List.length_cons,
                List.length_nil] at this ⊢
              omega
            · simp only [encodeLoop, hw, if_true, hq, List.drop_succ_cons]
            · simp only [encodeLoop, hw, if_true, hr]; omega
            · simp only [encodeLoop, hw, if_true, hm, List.take_succ_cons, frameItems_cons, frameItem_reserved hw,
                List.cons_append, List.nil_append, Memory.read_write, frameSlot_cons]
              by_cases h1 : i + 2 ≤ j ∧ j < i + 2 + len
              · rw [if_pos h1, if_pos (by omega), if_neg (by omega), if_neg (by omega)]
                rw [show j - i - 1 - 1 = j - (i + 2) by omega]
              · rw [if_neg h1]
                by_cases h2 : j = i + 1
                · rw [if_pos h2, if_pos (by omega), if_neg (by omega), if_pos (by omega)]
                · rw [if_neg h2]
                  by_cases h3 : j = i
                  · rw [if_pos h3, if_pos (by omega), if_pos (by omega)]
                  · rw [if_neg h3, if_neg (by omega)]
        · obtain ⟨k, hk, hl, hmax, hq, hr, hm⟩ := ih len (by omega) (i + 1) ⟨q, frame.write i w, removed + 1⟩
          refine ⟨k + 1, by simpa using hk, ?_, fun v hv => ?_, ?_, ?_, fun j => ?_⟩
          · simp only [List.take_succ_cons, frameItems_cons, frameItem_plain hw, List.length_append, List.length_cons,
              List.length_nil]
            simp only at hl; omega
          · have := hmax v (by simpa using hv)
            simp only [List.take_succ_cons, frameItems_cons, frameItem_plain hw, List.length_append, List.length_cons,
              List.length_nil] at this ⊢
            omega
          · simp only [encodeLoop, if_neg hw, hq, List.drop_succ_cons]
          · simp only [encodeLoop, if_neg hw, hr]; omega
          · simp only [encodeLoop, if_neg hw, hm, List.take_succ_cons, frameItems_cons, frameItem_plain hw,
              List.cons_append, List.nil_append, Memory.read_write, frameSlot_cons]
            by_cases h1 : i + 1 ≤ j ∧ j < i + 1 + len
            · rw [if_pos h1, if_pos (by omega), if_neg (by omega)]
              rw [show j - i - 1 = j - (i + 1) by omega]
            · rw [if_neg h1]
              by_cases h2 : j = i
              · rw [if_pos h2, if_pos (by omega), if_pos (by omega)]
              · rw [if_neg h2, if_neg (by omega)]

/-- The loop of ENCODE keeps the canonical form and the bound of the frame. -/
theorem encodeLoop_keeps (c : Config) (len : Nat) : ∀ (i : Nat) (f : Filled), f.frame.wf →
    (encodeLoop c len i f).frame.wf ∧ ∀ b, i + len ≤ b → f.frame.below b → (encodeLoop c len i f).frame.below b := by
  induction len using Nat.strong_induction_on with
  | _ len ih =>
    intro i f hf
    obtain ⟨queue, frame, removed⟩ := f
    cases len with
    | zero => exact ⟨hf, fun _ _ h => h⟩
    | succ len =>
      cases queue with
      | nil =>
        have := ih len (by omega) (i + 1) ⟨[], frame.write i c.rsvIdle, removed⟩ (Memory.write_wf hf _ _)
        exact ⟨this.1, fun b hb h => this.2 b (by omega) (Memory.write_below h (by omega) _)⟩
      | cons w q =>
        by_cases hw : w ∈ c.rsv
        · cases len with
          | zero =>
            simp only [encodeLoop, hw, if_true]
            exact ⟨Memory.write_wf hf _ _, fun b hb h => Memory.write_below h (by omega) _⟩
          | succ len =>
            have := ih len (by omega) (i + 2) ⟨q, (frame.write i c.rsvEscape).write (i + 1) w, removed + 1⟩
              (Memory.write_wf (Memory.write_wf hf _ _) _ _)
            simp only [encodeLoop, hw, if_true]
            exact ⟨this.1, fun b hb h => this.2 b (by omega)
              (Memory.write_below (Memory.write_below h (by omega) _) (by omega) _)⟩
        · have := ih len (by omega) (i + 1) ⟨q, frame.write i w, removed + 1⟩ (Memory.write_wf hf _ _)
          simp only [encodeLoop, if_neg hw]
          exact ⟨this.1, fun b hb h => this.2 b (by omega) (Memory.write_below h (by omega) _)⟩

/-! ## One frame word -/

/-- What a frame word leaves of the node and of the scan: everything but OUT, the place and the flags. -/
theorem scanWord_frame {outCap : Nat} {k : FrameWord} {x y : NodeState} {sc sd : Scan}
    (h : scanWord outCap k x sc = .ok (y, sd)) :
    y = { x with outFifo := y.outFifo } ∧ sd = { sc with pos := sd.pos, flags := sd.flags } := by
  cases k <;> simp only [scanWord, scanIdle, scanUnderrun, scanOverrun, scanEscape, scanLiteral] at h <;>
    (repeat' split at h) <;> simp only [Except.ok.injEq, Prod.mk.injEq, reduceCtorEq] at h <;>
    obtain ⟨rfl, rfl⟩ := h <;> exact ⟨rfl, rfl⟩

/-- Only an ESCAPE can raise a fault, and it raises UNWRITTEN. -/
theorem scanWord_code {outCap : Nat} {k : FrameWord} {x : NodeState} {sc : Scan} {code : FaultCode}
    (h : scanWord outCap k x sc = .error code) : code = .unwritten ∧ k = .escape := by
  cases k <;> simp only [scanWord, scanIdle, scanUnderrun, scanOverrun, scanEscape, scanLiteral] at h <;>
    (repeat' split at h) <;> simp_all

/-- A frame word moves the scan on, and not past the end of the frame. -/
theorem scanWord_pos {outCap : Nat} {k : FrameWord} {x y : NodeState} {sc sd : Scan}
    (h : scanWord outCap k x sc = .ok (y, sd)) (hp : sc.pos < sc.len) : sc.pos < sd.pos ∧ sd.pos ≤ sd.len := by
  cases k <;> simp only [scanWord, scanIdle, scanUnderrun, scanOverrun, scanEscape, scanLiteral] at h <;>
    (repeat' split at h) <;> simp only [Except.ok.injEq, Prod.mk.injEq, reduceCtorEq] at h <;>
    obtain ⟨rfl, rfl⟩ := h <;> simp only [Scan.skip, Scan.mark, Scan.overflow] <;> omega

/-- OUT only grows at the back, and stays within its capacity. -/
theorem scanWord_out {outCap : Nat} {k : FrameWord} {x y : NodeState} {sc sd : Scan}
    (h : scanWord outCap k x sc = .ok (y, sd)) :
    ∃ ws, y.outFifo = x.outFifo ++ ws ∧ (x.outFifo.length ≤ outCap → y.outFifo.length ≤ outCap) := by
  cases k <;> simp only [scanWord, scanIdle, scanUnderrun, scanOverrun, scanEscape, scanLiteral] at h <;>
    (repeat' split at h) <;> simp only [Except.ok.injEq, Prod.mk.injEq, reduceCtorEq] at h <;>
    obtain ⟨rfl, rfl⟩ := h <;>
    first
    | exact ⟨[], by simp, id⟩
    | exact ⟨_, rfl, fun _ => by simp_all only [fifoFree, fifoPush, List.length_append, List.length_singleton]; omega⟩

theorem raiseFlag_ok {f b : Word} (hf : f &&& ~~~flagMask = 0#32) (hb : b &&& ~~~flagMask = 0#32) :
    raiseFlag f b &&& ~~~flagMask = 0#32 := by
  have : raiseFlag f b &&& ~~~flagMask = (f &&& ~~~flagMask) ||| (b &&& ~~~flagMask) := by
    unfold raiseFlag
    ext i hi
    simp only [BitVec.getElem_and, BitVec.getElem_or]
    cases f[i] <;> cases b[i] <;> cases (~~~flagMask)[i] <;> rfl
  rw [this, hf, hb]; rfl

/-- A frame word sets no bit outside 2, 3, 4 and 6 (R196). -/
theorem scanWord_flags {outCap : Nat} {k : FrameWord} {x y : NodeState} {sc sd : Scan}
    (h : scanWord outCap k x sc = .ok (y, sd)) (hf : sc.flags &&& ~~~flagMask = 0#32) :
    sd.flags &&& ~~~flagMask = 0#32 := by
  cases k <;> simp only [scanWord, scanIdle, scanUnderrun, scanOverrun, scanEscape, scanLiteral] at h <;>
    (repeat' split at h) <;> simp only [Except.ok.injEq, Prod.mk.injEq, reduceCtorEq] at h <;>
    obtain ⟨-, rfl⟩ := h <;> first | exact hf | exact raiseFlag_ok hf (by decide)

/-! ## The loop of DECODE -/

/-- What the loop of DECODE leaves of the node and of the scan, and what it keeps. -/
theorem scanLoop_keeps {c : Config} {outCap : Nat} (k : Nat) {x y : NodeState} {sc sd : Scan}
    (h : scanLoop c outCap k x sc = .ok (y, sd)) :
    y = { x with outFifo := y.outFifo } ∧ (∃ ws, y.outFifo = x.outFifo ++ ws) ∧
    (x.outFifo.length ≤ outCap → y.outFifo.length ≤ outCap) ∧ sd.node = sc.node ∧ sd.len = sc.len ∧
    (sc.flags &&& ~~~flagMask = 0#32 → sd.flags &&& ~~~flagMask = 0#32) := by
  induction k generalizing x sc with
  | zero =>
    simp only [scanLoop, Except.ok.injEq, Prod.mk.injEq] at h
    obtain ⟨rfl, rfl⟩ := h
    exact ⟨rfl, ⟨[], by simp⟩, id, rfl, rfl, id⟩
  | succ k ih =>
    simp only [scanLoop] at h
    split at h
    · split at h
      · simp at h
      · next w _ =>
        split at h
        · simp at h
        · next x' sc' hw =>
          obtain ⟨e1, e2⟩ := scanWord_frame hw
          obtain ⟨us, hus, hcap⟩ := scanWord_out hw
          obtain ⟨f1, ⟨ws, hws⟩, f2, f3, f4, f5⟩ := ih h
          refine ⟨?_, ⟨us ++ ws, by rw [hws, hus, List.append_assoc]⟩, fun hx => f2 (hcap hx), ?_, ?_,
            fun hf => f5 (scanWord_flags hw hf)⟩
          · rw [f1, e1]
          · rw [f3, e2]
          · rw [f4, e2]
    · simp only [Except.ok.injEq, Prod.mk.injEq] at h
      obtain ⟨rfl, rfl⟩ := h
      exact ⟨rfl, ⟨[], by simp⟩, id, rfl, rfl, id⟩

/-- DECODE's loop raises no fault but UNWRITTEN. -/
theorem scanLoop_code {c : Config} {outCap : Nat} (k : Nat) {x : NodeState} {sc : Scan} {code : FaultCode}
    (h : scanLoop c outCap k x sc = .error code) : code = .unwritten := by
  induction k generalizing x sc with
  | zero => simp [scanLoop] at h
  | succ k ih =>
    simp only [scanLoop] at h
    split at h
    · split at h
      · simpa using h.symm
      · split at h
        · next e he => exact (scanWord_code (by simpa using he.trans (by simpa using h))).1
        · exact ih h
    · simp at h

/-- A scan that has ended stays where it is. -/
theorem scanLoop_ended {c : Config} {outCap : Nat} (k : Nat) {x : NodeState} {sc : Scan} (h : sc.len ≤ sc.pos) :
    scanLoop c outCap k x sc = .ok (x, sc) := by
  cases k with
  | zero => rfl
  | succ k => simp [scanLoop, show ¬ sc.pos < sc.len by omega]

end Sys2Proof.Machine
end

