-- ==== Sys2Proof/Laws/Exec.lean ====
section
/-! SUPPORT. All that a step, and the meaning of each instruction, can answer, said once: a fault that is recorded, or the
state the instruction computes, with the conditions of each. -/

namespace Sys2Proof.Machine

variable {s t : State} {n : Node} {arg : Count} {w : Word}

/-! ## The step -/

/-- All that a step can answer with a next state. -/
theorem step_cases (h : step s = .next t) :
    s.fault = none ∧
    ((s.scan = none ∧ s.issued = [] ∧ t = s) ∨
     (∃ q rest e, s.scan = none ∧ s.issued = q :: rest ∧ decodeOp q.word q.data = .error e ∧
        t = (s.accept q rest).raise .illegalOp) ∨
     (∃ q rest i, s.scan = none ∧ s.issued = q :: rest ∧ decodeOp q.word q.data = .ok i ∧
        exec i (s.accept q rest) = .next t) ∨
     (∃ sc w, s.scan = some sc ∧ (s.node sc.node).rxFrame.read sc.pos = .written w ∧
        exec (decodeFrame s.cfg w) s = .next t) ∨
     ∃ sc, s.scan = some sc ∧ (s.node sc.node).rxFrame.read sc.pos = .unwritten ∧ t = s.raise .unwritten) := by
  unfold step fetch at h
  split at h
  · simp at h
  · next hf =>
    refine ⟨hf, ?_⟩
    cases hsc : s.scan with
    | none =>
      cases hq : s.issued with
      | nil => simp only [hsc, hq, Host.Outcome.next.injEq] at h; exact .inl ⟨rfl, rfl, h.symm⟩
      | cons q rest =>
        simp only [hsc, hq] at h
        split at h
        · next e he => exact .inr (.inl ⟨q, rest, e, rfl, rfl, he, by simpa using h.symm⟩)
        · next i hi => exact .inr (.inr (.inl ⟨q, rest, i, rfl, rfl, hi, h⟩))
    | some sc =>
      simp only [hsc] at h
      cases hr : (s.node sc.node).rxFrame.read sc.pos with
      | unwritten => simp only [hr] at h; exact .inr (.inr (.inr (.inr ⟨sc, rfl, hr, by simpa using h.symm⟩)))
      | written w => simp only [hr] at h; exact .inr (.inr (.inr (.inl ⟨sc, w, rfl, hr, h⟩)))

/-! ## The engine -/

/-- All that ADVANCE can answer. -/
theorem execAdvance_cases (h : execAdvance n s = .next t) :
    ((s.node n).life ≠ .active ∧ t = s.raise .notActive) ∨
    ((s.node n).life = .active ∧ advanceNode s.cfg.handshake (fifoCap s.cfg n .output) (s.node n) = .error .unwritten ∧
      t = s.raise .unwritten) ∨
    ∃ x, (s.node n).life = .active ∧ advanceNode s.cfg.handshake (fifoCap s.cfg n .output) (s.node n) = .ok x ∧
      t = (s.setNode n x).done := by
  unfold execAdvance at h
  split at h
  · next hl => exact .inl ⟨hl, by simpa using h.symm⟩
  · next hl =>
    cases hx : advanceNode s.cfg.handshake (fifoCap s.cfg n .output) (s.node n) with
    | error code =>
      obtain rfl := advanceNode_code hx
      simp only [hx, commit_error, Host.Outcome.next.injEq] at h
      exact .inr (.inl ⟨not_not.1 hl, rfl, h.symm⟩)
    | ok x =>
      simp only [hx, commit_ok, Host.Outcome.next.injEq] at h
      exact .inr (.inr ⟨x, not_not.1 hl, rfl, h.symm⟩)

/-- All that INIT can answer. -/
theorem execInit_cases (h : execInit n arg s = .next t) :
    (((s.node n).life = .active ∨ arg = 0#16 ∨ s.cfg.capMax < arg.toNat) ∧ t = s.raise .badInit) ∨
    ((s.node n).life ≠ .active ∧ arg ≠ 0#16 ∧ arg.toNat ≤ s.cfg.capMax ∧
      t = (s.setNode n (initNode (s.node n) arg)).done) := by
  unfold execInit at h
  split at h
  · next hl => exact .inl ⟨.inl hl, by simpa using h.symm⟩
  · next hl =>
    split at h
    · next hc => exact .inl ⟨.inr hc, by simpa using h.symm⟩
    · next hc =>
      push Not at hc
      exact .inr ⟨hl, hc.1, hc.2, by simpa using h.symm⟩

/-- All that DESTROY can answer. -/
theorem execDestroy_cases (h : execDestroy n s = .next t) :
    ((s.node n).life ≠ .active ∧ t = s.raise .notActive) ∨
    ((s.node n).life = .active ∧ t = (s.setNode n (destroyNode (s.node n))).done) := by
  unfold execDestroy at h
  split at h
  · next hl => exact .inl ⟨hl, by simpa using h.symm⟩
  · next hl => exact .inr ⟨not_not.1 hl, by simpa using h.symm⟩

/-! ## The framer -/

/-- All that ENCODE can answer. -/
theorem execEncode_cases (h : execEncode n arg s = .next t) :
    (s.cfg.frameMax < arg.toNat ∧ t = s.raise .argRange) ∨
    (arg.toNat ≤ s.cfg.frameMax ∧ t = (s.setNode n (encodeNode s.cfg arg.toNat (s.node n))).done) := by
  unfold execEncode at h
  split at h
  · next hc => exact .inl ⟨hc, by simpa using h.symm⟩
  · next hc => exact .inr ⟨not_lt.1 hc, by simpa using h.symm⟩

/-- All that DECODE can answer. -/
theorem execDecode_cases (h : execDecode n arg s = .next t) :
    (s.cfg.frameMax < arg.toNat ∧ t = s.raise .argRange) ∨
    (arg.toNat ≤ s.cfg.frameMax ∧
      scanLoop s.cfg (fifoCap s.cfg n .output) arg.toNat (s.node n)
        { node := n, pos := 0, len := arg.toNat, flags := 0#32 } = .error .unwritten ∧
      t = s.raise .unwritten) ∨
    ∃ x sc, arg.toNat ≤ s.cfg.frameMax ∧
      scanLoop s.cfg (fifoCap s.cfg n .output) arg.toNat (s.node n)
        { node := n, pos := 0, len := arg.toNat, flags := 0#32 } = .ok (x, sc) ∧
      t = (s.setNode n { x with fxFlags := sc.flags }).done := by
  unfold execDecode at h
  split at h
  · next hc => exact .inl ⟨hc, by simpa using h.symm⟩
  · next hc =>
    cases hx : scanLoop s.cfg (fifoCap s.cfg n .output) arg.toNat (s.node n)
        { node := n, pos := 0, len := arg.toNat, flags := 0#32 } with
    | error code =>
      obtain rfl := scanLoop_code _ hx
      simp only [hx, commit_error, Host.Outcome.next.injEq] at h
      exact .inr (.inl ⟨not_lt.1 hc, rfl, h.symm⟩)
    | ok r =>
      obtain ⟨x, sc⟩ := r
      simp only [hx, commit_ok, Host.Outcome.next.injEq] at h
      exact .inr (.inr ⟨x, sc, not_lt.1 hc, rfl, h.symm⟩)

/-- All that a frame word can answer, whatever its effect `f`. -/
theorem runFrameWord_cases {f : Nat → NodeState → Scan → Except FaultCode (NodeState × Scan)}
    (h : runFrameWord s f = .next t) :
    ∃ sc, s.scan = some sc ∧
      ((∃ code, f (fifoCap s.cfg sc.node .output) (s.node sc.node) sc = .error code ∧ t = s.raise code) ∨
       ∃ x sd, f (fifoCap s.cfg sc.node .output) (s.node sc.node) sc = .ok (x, sd) ∧ t = s.afterWord sc.node x sd) := by
  unfold runFrameWord at h
  cases hsc : s.scan with
  | none => simp [hsc] at h
  | some sc =>
    refine ⟨sc, rfl, ?_⟩
    simp only [hsc] at h
    cases hx : f (fifoCap s.cfg sc.node .output) (s.node sc.node) sc with
    | error code =>
      simp only [hx, commit_error, Host.Outcome.next.injEq] at h
      exact .inl ⟨code, rfl, h.symm⟩
    | ok r =>
      obtain ⟨x, sd⟩ := r
      simp only [hx, commit_ok, Host.Outcome.next.injEq] at h
      exact .inr ⟨x, sd, rfl, h.symm⟩

/-- The meaning of every frame word in one form: `scanWord` of its kind, at the place of the scan. -/
theorem exec_frameWord (k : FrameWord) (s : State) :
    exec k.toInstr s = runFrameWord s fun outCap => scanWord outCap k := by
  cases k <;> rfl

/-- What the end of a frame word leaves alone. -/
theorem State.afterWord_frame (s : State) (n : Node) (x : NodeState) (sc : Scan) :
    (s.afterWord n x sc).cfg = s.cfg ∧ (s.afterWord n x sc).fault = s.fault ∧
    (s.afterWord n x sc).issued = s.issued ∧ (s.afterWord n x sc).issuer = s.issuer ∧
    (s.afterWord n x sc).node n.peer = s.node n.peer := by
  unfold State.afterWord
  split <;> cases n <;> exact ⟨rfl, rfl, rfl, rfl, rfl⟩

/-! ## The FIFO port -/

/-- All that FPUSH can answer. -/
theorem execFpush_cases {q : FifoSel} (h : execFpush n q w s = .next t) :
    (fifoCap s.cfg n q ≤ ((s.node n).fifo q).length ∧ t = s.answer (boolWord false)) ∨
    (((s.node n).fifo q).length < fifoCap s.cfg n q ∧
      t = (s.setNode n ((s.node n).setFifo q ((s.node n).fifo q ++ [w]))).answer (boolWord true)) := by
  unfold execFpush fifoFree at h
  split at h
  · next hc => exact .inl ⟨by omega, by simpa using h.symm⟩
  · next hc => exact .inr ⟨by omega, by simpa [fifoPush] using h.symm⟩

/-- All that FPOP can answer. -/
theorem execFpop_cases {q : FifoSel} (h : execFpop n q s = .next t) :
    ((s.node n).fifo q = [] ∧ t = s.raise .fifoRange) ∨
    ∃ v rest, (s.node n).fifo q = v :: rest ∧ t = (s.setNode n ((s.node n).setFifo q rest)).answer v := by
  unfold execFpop at h
  cases hq : (s.node n).fifo q with
  | nil => simp only [hq, commit_error, Host.Outcome.next.injEq] at h; exact .inl ⟨rfl, h.symm⟩
  | cons v rest => simp only [hq, commit_ok, Host.Outcome.next.injEq] at h; exact .inr ⟨v, rest, rfl, h.symm⟩

/-- All that FPEEK can answer. -/
theorem execFpeek_cases {q : FifoSel} (h : execFpeek n q arg s = .next t) :
    (((s.node n).fifo q).length ≤ arg.toNat ∧ t = s.raise .fifoRange) ∨
    ∃ v, ((s.node n).fifo q)[arg.toNat]? = some v ∧ t = s.answer v := by
  unfold execFpeek at h
  cases hq : ((s.node n).fifo q)[arg.toNat]? with
  | none =>
    simp only [hq, commit_error, Host.Outcome.next.injEq] at h
    exact .inl ⟨List.getElem?_eq_none_iff.1 hq, h.symm⟩
  | some v => simp only [hq, commit_ok, Host.Outcome.next.injEq] at h; exact .inr ⟨v, rfl, h.symm⟩

/-! ## The transport and the test writes -/

/-- All that XCHG can answer. -/
theorem execXchg_cases (h : execXchg s = .next t) :
    ((∃ m, (s.node m).life ≠ .active) ∧ t = s.raise .notActive) ∨
    ((∀ m, (s.node m).life = .active) ∧ (∃ m, (s.node m.peer).cap < (s.node m).lss) ∧ t = s.raise .xchgCapacity) ∨
    ((∀ m, (s.node m).life = .active) ∧ (∀ m, (s.node m).lss ≤ (s.node m.peer).cap) ∧
      t = { s with nodeA := receiveFrom s.nodeB s.nodeA, nodeB := receiveFrom s.nodeA s.nodeB, result := none }) := by
  unfold execXchg at h
  split at h
  · next ha => exact .inl ⟨⟨.a, ha⟩, by simpa using h.symm⟩
  next ha =>
  split at h
  · next hb => exact .inl ⟨⟨.b, hb⟩, by simpa using h.symm⟩
  next hb =>
  have hl : ∀ m, (s.node m).life = .active := by
    intro m; cases m
    · exact not_not.1 ha
    · exact not_not.1 hb
  split at h
  · next hc => exact .inr (.inl ⟨hl, ⟨.a, hc⟩, by simpa using h.symm⟩)
  next hc =>
  split at h
  · next hd => exact .inr (.inl ⟨hl, ⟨.b, hd⟩, by simpa using h.symm⟩)
  next hd =>
  refine .inr (.inr ⟨hl, fun m => ?_, by simpa using h.symm⟩)
  cases m
  · exact BitVec.not_lt.1 hc
  · exact BitVec.not_lt.1 hd

/-- All that FRAME can answer. -/
theorem execFrame_cases (h : execFrame n arg s = .next t) :
    (s.cfg.frameMax < arg.toNat ∧ t = s.raise .argRange) ∨
    (arg.toNat ≤ s.cfg.frameMax ∧
      copyWritten (s.node n).txFrame arg.toNat (s.node n.peer).rxFrame = .error .unwritten ∧ t = s.raise .unwritten) ∨
    ∃ m, arg.toNat ≤ s.cfg.frameMax ∧ copyWritten (s.node n).txFrame arg.toNat (s.node n.peer).rxFrame = .ok m ∧
      t = (s.setNode n.peer { s.node n.peer with rxFrame := m }).done := by
  unfold execFrame at h
  split at h
  · next hc => exact .inl ⟨hc, by simpa using h.symm⟩
  · next hc =>
    cases hx : copyWritten (s.node n).txFrame arg.toNat (s.node n.peer).rxFrame with
    | error code =>
      obtain rfl := copyWritten_code hx
      simp only [hx, commit_error, Host.Outcome.next.injEq] at h
      exact .inr (.inl ⟨not_lt.1 hc, rfl, h.symm⟩)
    | ok m =>
      simp only [hx, commit_ok, Host.Outcome.next.injEq] at h
      exact .inr (.inr ⟨m, not_lt.1 hc, rfl, h.symm⟩)

/-- All that SET_RECV can answer. -/
theorem execSetRecv_cases (h : execSetRecv n arg w s = .next t) :
    ((s.node n).life ≠ .active ∧ t = s.raise .notActive) ∨
    ((s.node n).life = .active ∧ (s.node n).cap ≤ arg ∧ t = s.raise .argRange) ∨
    ((s.node n).life = .active ∧ arg < (s.node n).cap ∧
      t = (s.setNode n { s.node n with recvData := (s.node n).recvData.write arg.toNat w }).done) := by
  unfold execSetRecv at h
  split at h
  · next hl => exact .inl ⟨hl, by simpa using h.symm⟩
  next hl =>
  split at h
  · next hc => exact .inr (.inl ⟨not_not.1 hl, hc, by simpa using h.symm⟩)
  · next hc => exact .inr (.inr ⟨not_not.1 hl, BitVec.not_le.1 hc, by simpa using h.symm⟩)

/-- All that SET_RSS can answer. -/
theorem execSetRss_cases (h : execSetRss n arg s = .next t) :
    ((s.node n).life ≠ .active ∧ t = s.raise .notActive) ∨
    ((s.node n).life = .active ∧ (s.node n).cap < arg ∧ t = s.raise .argRange) ∨
    ((s.node n).life = .active ∧ arg ≤ (s.node n).cap ∧ t = (s.setNode n { s.node n with rss := arg }).done) := by
  unfold execSetRss at h
  split at h
  · next hl => exact .inl ⟨hl, by simpa using h.symm⟩
  next hl =>
  split at h
  · next hc => exact .inr (.inl ⟨not_not.1 hl, hc, by simpa using h.symm⟩)
  · next hc => exact .inr (.inr ⟨not_not.1 hl, BitVec.not_lt.1 hc, by simpa using h.symm⟩)

/-- All that SET_RRS can answer. -/
theorem execSetRrs_cases (h : execSetRrs n arg s = .next t) :
    ((s.node n).life ≠ .active ∧ t = s.raise .notActive) ∨
    ((s.node n).life = .active ∧ t = (s.setNode n { s.node n with rrs := arg }).done) := by
  unfold execSetRrs at h
  split at h
  · next hl => exact .inl ⟨hl, by simpa using h.symm⟩
  · next hl => exact .inr ⟨not_not.1 hl, by simpa using h.symm⟩

/-- All that SET_RXF can answer. -/
theorem execSetRxf_cases (h : execSetRxf n arg w s = .next t) :
    (s.cfg.frameMax ≤ arg.toNat ∧ t = s.raise .argRange) ∨
    (arg.toNat < s.cfg.frameMax ∧
      t = (s.setNode n { s.node n with rxFrame := (s.node n).rxFrame.write arg.toNat w }).done) := by
  unfold execSetRxf at h
  split at h
  · next hc => exact .inl ⟨hc, by simpa using h.symm⟩
  · next hc => exact .inr ⟨not_le.1 hc, by simpa using h.symm⟩

/-! ## Observation -/

/-- All that RDREG can answer. -/
theorem execRdreg_cases {r : RegSel} (h : execRdreg n r s = .next t) :
    (regNeedsActive r = true ∧ (s.node n).life ≠ .active ∧ t = s.raise .notActive) ∨
    ((regNeedsActive r = true → (s.node n).life = .active) ∧ t = s.answer (readReg (s.node n) r)) := by
  unfold execRdreg at h
  split at h
  · next hc => exact .inl ⟨hc.1, hc.2, by simpa using h.symm⟩
  · next hc =>
    push Not at hc
    exact .inr ⟨hc, by simpa using h.symm⟩

/-- All that RDARR can answer: a fault of its three, or the word of the cell. -/
theorem execRdarr_cases {x : ArrSel} (h : execRdarr n x arg s = .next t) :
    (arrNeedsActive x = true ∧ (s.node n).life ≠ .active ∧ t = s.raise .notActive) ∨
    (arrayLength s.cfg (s.node n) x ≤ arg.toNat ∧ t = s.raise .argRange) ∨
    (arg.toNat < arrayLength s.cfg (s.node n) x ∧ ((s.node n).array x).read arg.toNat = .unwritten ∧
      t = s.raise .unwritten) ∨
    ∃ v, arg.toNat < arrayLength s.cfg (s.node n) x ∧ ((s.node n).array x).read arg.toNat = .written v ∧
      t = s.answer v := by
  unfold execRdarr at h
  split at h
  · next hc => exact .inl ⟨hc.1, hc.2, by simpa using h.symm⟩
  split at h
  · next hc => exact .inr (.inl ⟨hc, by simpa using h.symm⟩)
  next hc =>
  cases hr : ((s.node n).array x).read arg.toNat with
  | unwritten =>
    simp only [hr, commit_error, Host.Outcome.next.injEq] at h
    exact .inr (.inr (.inl ⟨not_le.1 hc, rfl, h.symm⟩))
  | written v =>
    simp only [hr, commit_ok, Host.Outcome.next.injEq] at h
    exact .inr (.inr (.inr ⟨v, not_le.1 hc, rfl, h.symm⟩))

end Sys2Proof.Machine
end

