-- ==== Sys2Proof/Laws/PerInstr.lean ====
section
/-! SUPPORT. One family of laws with a lemma for every constructor: the words the encoder writes match the mask and the
match value of the instruction's row of the opcode table, and no other words. -/

namespace Sys2Proof.Laws.EncodeMatchesTable

/-- The `mask` and `match` columns of an instruction's row of `spec/opcode_table.json`. The rows of the four control frame
words show the reference values of reserved words that are parameters (R13), so those come from the configuration. -/
def row (c : Config) : Instr → Word × Word
  | .advance _ => (0xFFFF7FFF#32, 0x00000001#32)
  | .encode _ _ => (0x00007FFF#32, 0x00000002#32)
  | .decode _ _ => (0x00007FFF#32, 0x00000003#32)
  | .init _ _ => (0x00007FFF#32, 0x00000004#32)
  | .destroy _ => (0xFFFF7FFF#32, 0x00000005#32)
  | .xchg => (0xFFFFFFFF#32, 0x00000010#32)
  | .frame _ _ => (0x00007FFF#32, 0x00000011#32)
  | .setRecv _ _ _ => (0x00007FFF#32, 0x00000012#32)
  | .setRss _ _ => (0x00007FFF#32, 0x00000013#32)
  | .setRrs _ _ => (0x00007FFF#32, 0x00000014#32)
  | .setRxf _ _ _ => (0x00007FFF#32, 0x00000015#32)
  | .fpush _ _ _ => (0xFFFF7EFF#32, 0x00000020#32)
  | .fpop _ _ => (0xFFFF7EFF#32, 0x00000021#32)
  | .fsize _ _ => (0xFFFF7EFF#32, 0x00000022#32)
  | .ffree _ _ => (0xFFFF7EFF#32, 0x00000023#32)
  | .fpeek _ _ _ => (0x00007EFF#32, 0x00000024#32)
  | .rdreg _ _ => (0xFFFF78FF#32, 0x00000030#32)
  | .rdarr _ _ _ => (0x00007CFF#32, 0x00000031#32)
  | .idle => (0xFFFFFFFF#32, c.rsvIdle)
  | .escape => (0xFFFFFFFF#32, c.rsvEscape)
  | .underrun => (0xFFFFFFFF#32, c.rsvUnderrun)
  | .overrun => (0xFFFFFFFF#32, c.rsvOverrun)
  | .literal _ => (0x00000000#32, 0x00000000#32)

/-- The first encoded word matches the row, and a DATA word follows exactly where R102 says so. -/
def Statement (i : Instr) : Prop :=
  ∀ c : Config, ∃ w ds, encode c i = w :: ds ∧ w &&& (row c i).1 = (row c i).2 ∧
    ds = match i with
      | .setRecv _ _ d | .setRxf _ _ d | .fpush _ _ d => [d]
      | _ => []

/-- Masking a concatenation of four fields masks each field. -/
theorem and_fields {a b c d : Nat} (x mx : BitVec a) (y my : BitVec b) (z mz : BitVec c) (u mu : BitVec d) :
    (x ++ y ++ z ++ u) &&& (mx ++ my ++ mz ++ mu) = (x &&& mx) ++ (y &&& my) ++ (z &&& mz) ++ (u &&& mu) := by
  simp only [BitVec.and_append]

/-- An operation without ARG: everything but NODE and the selector bits that `ms` leaves out is fixed. -/
theorem packOp_noArg (op : BitVec 8) (sel ms : BitVec 7) (n : Node) :
    packOp op sel n 0#16 &&& (0xFFFF#16 ++ 0#1 ++ ms ++ 0xFF#8) = 0#16 ++ 0#1 ++ (sel &&& ms) ++ op := by
  refine (and_fields 0#16 0xFFFF#16 n.bit 0#1 sel ms op 0xFF#8).trans ?_
  rw [BitVec.and_zero, show op &&& 0xFF#8 = op from BitVec.and_allOnes]
  rfl

/-- An operation with ARG: NODE, ARG and the selector bits that `ms` leaves out are free. -/
theorem packOp_arg (op : BitVec 8) (sel ms : BitVec 7) (n : Node) (arg : Count) :
    packOp op sel n arg &&& (0#16 ++ 0#1 ++ ms ++ 0xFF#8) = 0#16 ++ 0#1 ++ (sel &&& ms) ++ op := by
  refine (and_fields arg 0#16 n.bit 0#1 sel ms op 0xFF#8).trans ?_
  rw [BitVec.and_zero, BitVec.and_zero, show op &&& 0xFF#8 = op from BitVec.and_allOnes]

theorem advance (n : Node) : Statement (.advance n) := fun _ =>
  ⟨_, _, rfl, packOp_noArg 0x01#8 0#7 0x7F#7 n, rfl⟩

theorem encode (n : Node) (arg : Count) : Statement (.encode n arg) := fun _ =>
  ⟨_, _, rfl, packOp_arg 0x02#8 0#7 0x7F#7 n arg, rfl⟩

theorem decode (n : Node) (arg : Count) : Statement (.decode n arg) := fun _ =>
  ⟨_, _, rfl, packOp_arg 0x03#8 0#7 0x7F#7 n arg, rfl⟩

theorem init (n : Node) (arg : Count) : Statement (.init n arg) := fun _ =>
  ⟨_, _, rfl, packOp_arg 0x04#8 0#7 0x7F#7 n arg, rfl⟩

theorem destroy (n : Node) : Statement (.destroy n) := fun _ =>
  ⟨_, _, rfl, packOp_noArg 0x05#8 0#7 0x7F#7 n, rfl⟩

theorem xchg : Statement .xchg := fun _ => ⟨_, _, rfl, BitVec.and_allOnes (x := 0x00000010#32), rfl⟩

theorem frame (n : Node) (arg : Count) : Statement (.frame n arg) := fun _ =>
  ⟨_, _, rfl, packOp_arg 0x11#8 0#7 0x7F#7 n arg, rfl⟩

theorem setRecv (n : Node) (arg : Count) (d : Word) : Statement (.setRecv n arg d) := fun _ =>
  ⟨_, _, rfl, packOp_arg 0x12#8 0#7 0x7F#7 n arg, rfl⟩

theorem setRss (n : Node) (arg : Count) : Statement (.setRss n arg) := fun _ =>
  ⟨_, _, rfl, packOp_arg 0x13#8 0#7 0x7F#7 n arg, rfl⟩

theorem setRrs (n : Node) (arg : Count) : Statement (.setRrs n arg) := fun _ =>
  ⟨_, _, rfl, packOp_arg 0x14#8 0#7 0x7F#7 n arg, rfl⟩

theorem setRxf (n : Node) (arg : Count) (d : Word) : Statement (.setRxf n arg d) := fun _ =>
  ⟨_, _, rfl, packOp_arg 0x15#8 0#7 0x7F#7 n arg, rfl⟩

theorem fpush (n : Node) (q : FifoSel) (d : Word) : Statement (.fpush n q d) := fun _ =>
  ⟨_, _, rfl, (packOp_noArg 0x20#8 q.sel 0x7E#7 n).trans (by cases q <;> rfl), rfl⟩

theorem fpop (n : Node) (q : FifoSel) : Statement (.fpop n q) := fun _ =>
  ⟨_, _, rfl, (packOp_noArg 0x21#8 q.sel 0x7E#7 n).trans (by cases q <;> rfl), rfl⟩

theorem fsize (n : Node) (q : FifoSel) : Statement (.fsize n q) := fun _ =>
  ⟨_, _, rfl, (packOp_noArg 0x22#8 q.sel 0x7E#7 n).trans (by cases q <;> rfl), rfl⟩

theorem ffree (n : Node) (q : FifoSel) : Statement (.ffree n q) := fun _ =>
  ⟨_, _, rfl, (packOp_noArg 0x23#8 q.sel 0x7E#7 n).trans (by cases q <;> rfl), rfl⟩

theorem fpeek (n : Node) (q : FifoSel) (arg : Count) : Statement (.fpeek n q arg) := fun _ =>
  ⟨_, _, rfl, (packOp_arg 0x24#8 q.sel 0x7E#7 n arg).trans (by cases q <;> rfl), rfl⟩

theorem rdreg (n : Node) (r : RegSel) : Statement (.rdreg n r) := fun _ =>
  ⟨_, _, rfl, (packOp_noArg 0x30#8 r.sel 0x78#7 n).trans (by cases r <;> rfl), rfl⟩

theorem rdarr (n : Node) (x : ArrSel) (arg : Count) : Statement (.rdarr n x arg) := fun _ =>
  ⟨_, _, rfl, (packOp_arg 0x31#8 x.sel 0x7C#7 n arg).trans (by cases x <;> rfl), rfl⟩

theorem idle : Statement .idle := fun c => ⟨_, _, rfl, BitVec.and_allOnes (x := c.rsvIdle), rfl⟩

theorem escape : Statement .escape := fun c => ⟨_, _, rfl, BitVec.and_allOnes (x := c.rsvEscape), rfl⟩

theorem underrun : Statement .underrun := fun c => ⟨_, _, rfl, BitVec.and_allOnes (x := c.rsvUnderrun), rfl⟩

theorem overrun : Statement .overrun := fun c => ⟨_, _, rfl, BitVec.and_allOnes (x := c.rsvOverrun), rfl⟩

theorem literal (w : Word) : Statement (.literal w) := fun _ => ⟨_, _, rfl, BitVec.and_zero, rfl⟩

end Sys2Proof.Laws.EncodeMatchesTable
end

