-- ==== Sys2Proof/Machine/Assembly.lean ====
section
/-! DEFINITION. The textual form of the operations (`30_encoding.md` R118) and the pseudo-instructions (R119). -/

namespace Sys2Proof.Machine

/-- `A` or `B`. -/
def nodeText : Node → String
  | .a => "A"
  | .b => "B"

/-- `A.IN`, `A.OUT`, `B.IN` or `B.OUT`. -/
def fifoText (n : Node) : FifoSel → String
  | .input => nodeText n ++ ".IN"
  | .output => nodeText n ++ ".OUT"

/-- The register names of R107. -/
def regText : RegSel → String
  | .lifecycle => "LIFECYCLE"
  | .capacity => "CAPACITY"
  | .lss => "LSS"
  | .lrs => "LRS"
  | .rss => "RSS"
  | .rrs => "RRS"
  | .fxFlags => "FX_FLAGS"
  | .fxCount => "FX_COUNT"

/-- The array names of R108. -/
def arrText : ArrSel → String
  | .sendData => "send_data"
  | .recvData => "recv_data"
  | .txFrame => "tx_frame"
  | .rxFrame => "rx_frame"

/-- A hexadecimal digit. -/
def hexDigit (k : Nat) : String :=
  (["0", "1", "2", "3", "4", "5", "6", "7", "8", "9", "A", "B", "C", "D", "E", "F"])[k % 16]?.getD "0"

/-- A word as `0x` and eight digits, most significant first (R17). -/
def wordText (w : Word) : String :=
  (List.range 8).foldl (fun t i => t ++ hexDigit (w.toNat / 16 ^ (7 - i))) "0x"

/-- A 16-bit argument in decimal (R118). -/
def argText (x : Count) : String := toString x.toNat

/-- The statement of an operation (R118). A frame word is never issued, so it has none. Counts are written in decimal and
words in hexadecimal, both of which R118 allows (log 12). -/
def asmText : Instr → Option String
  | .advance n => some ("ADVANCE " ++ nodeText n)
  | .encode n x => some ("ENCODE " ++ nodeText n ++ ", " ++ argText x)
  | .decode n x => some ("DECODE " ++ nodeText n ++ ", " ++ argText x)
  | .init n x => some ("INIT " ++ nodeText n ++ ", " ++ argText x)
  | .destroy n => some ("DESTROY " ++ nodeText n)
  | .xchg => some "XCHG"
  | .frame n x => some ("FRAME " ++ nodeText n ++ ", " ++ argText x)
  | .setRecv n x d => some ("SET_RECV " ++ nodeText n ++ ", " ++ argText x ++ ", " ++ wordText d)
  | .setRss n x => some ("SET_RSS " ++ nodeText n ++ ", " ++ argText x)
  | .setRrs n x => some ("SET_RRS " ++ nodeText n ++ ", " ++ argText x)
  | .setRxf n x d => some ("SET_RXF " ++ nodeText n ++ ", " ++ argText x ++ ", " ++ wordText d)
  | .fpush n q d => some ("FPUSH " ++ fifoText n q ++ ", " ++ wordText d)
  | .fpop n q => some ("FPOP " ++ fifoText n q)
  | .fsize n q => some ("FSIZE " ++ fifoText n q)
  | .ffree n q => some ("FFREE " ++ fifoText n q)
  | .fpeek n q x => some ("FPEEK " ++ fifoText n q ++ ", " ++ argText x)
  | .rdreg n r => some ("RDREG " ++ nodeText n ++ ", " ++ regText r)
  | .rdarr n y x => some ("RDARR " ++ nodeText n ++ ", " ++ arrText y ++ ", " ++ argText x)
  | .idle | .escape | .underrun | .overrun | .literal _ => none

/-- `POLL` (R119): one polling round of both nodes and one exchange. -/
def pseudoPoll : List Instr := [.advance .a, .advance .b, .xchg]

/-- `SEND n, k` (R119). -/
def pseudoSend (n : Node) (k : Count) : List Instr := [.encode n k, .frame n k]

/-- `PUSHN n.Q, w1, ..., wk` (R119). -/
def pseudoPushn (n : Node) (q : FifoSel) (ws : List Word) : List Instr := ws.map (.fpush n q)

end Sys2Proof.Machine
end

