-- ==== Sys2Proof/Tests/Slice0.lean ====
section
/-! SUPPORT. Tests. Expected values come from the tables of `30_encoding.md` and the vectors V-… and programs P1 to P6 of
`95_test_vectors.md`, named at each test. The witnesses at the end show, for every statement that has hypotheses, a state
and operands that meet them. -/

namespace Sys2Proof.Tests

open Sys2Proof.Machine

/-! ## Small states -/

/-- Cells 0, 1, … of an array that hold `ws`. -/
def cells (ws : List Word) : Memory := Memory.writeFrom [] 0 ws

/-- An ACTIVE node with capacity `cap` and the counts `(lss, lrs, rss, rrs)`. -/
def node (cap lss lrs rss rrs : Nat) (send recv input output : List Word) : NodeState :=
  { NodeState.powerOn with
    life := .active, cap := BitVec.ofNat 16 cap, lss := BitVec.ofNat 16 lss, lrs := BitVec.ofNat 16 lrs
    rss := BitVec.ofNat 16 rss, rrs := BitVec.ofNat 16 rrs, sendData := cells send, recvData := cells recv
    inFifo := input, outFifo := output }

/-- A power-on node with frames and FIFOs: the framer needs no INIT (R181). -/
def framing (tx rx input output : List Word) : NodeState :=
  { NodeState.powerOn with txFrame := cells tx, rxFrame := cells rx, inFifo := input, outFifo := output }

/-- The reference configuration without HANDSHAKE. -/
def literalCfg : Config := { Config.reference with handshake := false }

/-- Two given nodes. -/
def sys (x y : NodeState) : State := { State.reset with nodeA := x, nodeB := y }

/-- Node A alone, B at power-on. -/
def sysA (x : NodeState) : State := sys x NodeState.powerOn

/-- Node B alone, A at power-on. -/
def sysB (y : NodeState) : State := sys NodeState.powerOn y

/-- What `f` sees after instruction `i`. -/
def after {α : Type} (i : Instr) (s : State) (f : State → α) : Option α :=
  match exec i s with
  | .next t => some (f t)
  | .fault _ => none
  | .refused _ => none

/-- `(lss, lrs, rss, rrs)`. -/
def counts (x : NodeState) : Nat × Nat × Nat × Nat := (x.lss.toNat, x.lrs.toNat, x.rss.toNat, x.rrs.toNat)

/-! ## Well-formedness -/

theorem test_wf_literal_reserved : Instr.wf Config.reference (.literal 0xFFFFFFFF#32) = false := by decide

theorem test_wf_literal_plain : Instr.wf Config.reference (.literal 0xFFFFFFFB#32) = true := by decide

theorem test_wf_config_reference : Config.reference.wf := by decide

/-- R116: equal reserved values are no configuration. -/
theorem test_wf_config_equal_reserved : ¬ { Config.reference with rsvIdle := 0xFFFFFFFE#32 }.wf := by decide

/-- R10 to R12: the ranges of the other parameters. -/
theorem test_wf_config_ranges :
    ¬ { Config.reference with capMax := 65536 }.wf ∧ ¬ { Config.reference with frameMax := 0 }.wf ∧
    ¬ { Config.reference with fifoCapOutB := 0 }.wf := by
  decide

theorem test_reset_memory_wf : State.reset.nodeA.sendData.wf ∧ State.reset.nodeB.rxFrame.wf := by decide

/-! ## Decoding, a word of every row, written out as ARG NODE SEL OP (R101) -/

theorem test_decode_advance :
    decodeOp 0b0000000000000000_1_0000000_00000001#32 0#32 = .ok (.advance .b) := by decide

theorem test_decode_encode :
    decodeOp 0b0000000000000101_0_0000000_00000010#32 0#32 = .ok (.encode .a 5#16) := by decide

theorem test_decode_decode :
    decodeOp 0b0000000000000101_1_0000000_00000011#32 0#32 = .ok (.decode .b 5#16) := by decide

theorem test_decode_init :
    decodeOp 0b0000001000000000_1_0000000_00000100#32 0#32 = .ok (.init .b 512#16) := by decide

theorem test_decode_destroy :
    decodeOp 0b0000000000000000_1_0000000_00000101#32 0#32 = .ok (.destroy .b) := by decide

theorem test_decode_xchg :
    decodeOp 0b0000000000000000_0_0000000_00010000#32 0#32 = .ok .xchg := by decide

theorem test_decode_frame :
    decodeOp 0b0000000000000101_0_0000000_00010001#32 0#32 = .ok (.frame .a 5#16) := by decide

theorem test_decode_setRecv :
    decodeOp 0b0000000000000000_0_0000000_00010010#32 0xDEADBEEF#32 = .ok (.setRecv .a 0#16 0xDEADBEEF#32) := by decide

theorem test_decode_setRss :
    decodeOp 0b0000000000000001_0_0000000_00010011#32 0#32 = .ok (.setRss .a 1#16) := by decide

/-- V-OPW-6. -/
theorem test_decode_setRrs :
    decodeOp 0b1111111111111111_1_0000000_00010100#32 0#32 = .ok (.setRrs .b 0xFFFF#16) := by decide

theorem test_decode_setRxf :
    decodeOp 0b0000000000000011_1_0000000_00010101#32 7#32 = .ok (.setRxf .b 3#16 7#32) := by decide

theorem test_decode_fpush :
    decodeOp 0b0000000000000000_1_0000000_00100000#32 0xBEEFCAFE#32 = .ok (.fpush .b .input 0xBEEFCAFE#32) := by decide

theorem test_decode_fpop :
    decodeOp 0b0000000000000000_0_0000001_00100001#32 0#32 = .ok (.fpop .a .output) := by decide

theorem test_decode_fsize :
    decodeOp 0b0000000000000000_0_0000000_00100010#32 0#32 = .ok (.fsize .a .input) := by decide

theorem test_decode_ffree :
    decodeOp 0b0000000000000000_1_0000001_00100011#32 0#32 = .ok (.ffree .b .output) := by decide

/-- V-OPW-5. -/
theorem test_decode_fpeek :
    decodeOp 0b0000000000000001_0_0000001_00100100#32 0#32 = .ok (.fpeek .a .output 1#16) := by decide

/-- V-OPW-3. -/
theorem test_decode_rdreg :
    decodeOp 0b0000000000000000_1_0000111_00110000#32 0#32 = .ok (.rdreg .b .fxCount) := by decide

/-- V-OPW-4. -/
theorem test_decode_rdarr :
    decodeOp 0b0000000000000010_1_0000011_00110001#32 0#32 = .ok (.rdarr .b .rxFrame 2#16) := by decide

/-- The five kinds of frame word under the reference values (R112, D7). -/
theorem test_decode_frame_words :
    [0xFFFFFFFF#32, 0xFFFFFFFE#32, 0xFFFFFFFD#32, 0xFFFFFFFC#32, 0xFFFFFFFB#32].map (decodeFrame Config.reference) =
      [.idle, .escape, .underrun, .overrun, .literal 0xFFFFFFFB#32] := by
  decide

/-- V-OPW-7 to V-OPW-19: every illegal word, with its reason. -/
theorem test_decode_illegal :
    [0x00000000#32, 0x00000006#32, 0x000000FF#32, 0x00000101#32, 0x00010001#32, 0x00008010#32, 0x00010010#32,
      0x00000410#32, 0x00000220#32, 0x00010021#32, 0x00000830#32, 0x00000431#32, 0x00000102#32].map
        (fun w => decodeOp w 0#32) =
      [.error .unassignedOp, .error .unassignedOp, .error .unassignedOp, .error .selNotZero, .error .argNotZero,
        .error .nodeNotZero, .error .argNotZero, .error .selNotZero, .error .selTooLarge, .error .argNotZero,
        .error .selTooLarge, .error .selTooLarge, .error .selNotZero] := by
  decide

/-- R102: the DATA word is read after the operation word, and the words after it are left. -/
theorem test_decode_words :
    decodeWords [0x00008020#32, 0xBEEFCAFE#32, 0x00000010#32] =
      .ok (.fpush .b .input 0xBEEFCAFE#32, [0x00000010#32]) ∧
    decodeWords [0x00000020#32] = .error .noData := by
  decide

theorem test_decodeTableWord :
    decodeTableWord 32 0x00028331 = some (.rdarr .b .rxFrame 2#16) ∧ decodeTableWord 32 0x00000012 = some (.setRecv .a 0#16 0#32) ∧
    decodeTableWord 32 0xFFFFFFFE = some .escape ∧ decodeTableWord 32 0 = some (.literal 0#32) := by
  decide

/-! ## The textual form (R118, R119; statements of P1 and P6) -/

theorem test_asm_operations :
    asmText (.fpush .a .input 0xBEEFCAFE#32) = some "FPUSH A.IN, 0xBEEFCAFE" ∧
    asmText (.rdarr .a .sendData 0#16) = some "RDARR A, send_data, 0" ∧
    asmText (.init .a 1#16) = some "INIT A, 1" ∧ asmText .xchg = some "XCHG" ∧
    asmText (.rdreg .b .fxFlags) = some "RDREG B, FX_FLAGS" := by
  decide

theorem test_pseudo_poll : pseudoPoll.map (encode Config.reference) = [[0x00000001#32], [0x00008001#32], [0x00000010#32]] := by
  decide

/-! ## One step of each operation -/

/-- V-ADV-11: every phase in one call. -/
theorem test_advance_all_phases :
    after (.advance .a) (sysA (node 4 1 0 2 1 [9#32] [5#32, 6#32] [7#32] []))
      (fun t => (counts t.nodeA, t.nodeA.outFifo, t.nodeA.inFifo)) =
    some ((0, 2, 2, 1), [5#32, 6#32], [7#32]) := by
  decide

/-- V-ADV-9: without HANDSHAKE the reclaimed batch is replaced at once. -/
theorem test_advance_literal :
    after (.advance .a) { sysA (node 1 1 0 0 1 [1#32] [] [2#32, 3#32] []) with cfg := literalCfg }
      (fun t => (counts t.nodeA, t.nodeA.sendData, t.nodeA.inFifo)) =
    some ((1, 0, 0, 1), [(0, 2#32)], [3#32]) := by
  decide

/-- V-ENC-11: an odd slot left before an escape pair is IDLE. -/
theorem test_encode_back_off :
    after (.encode .a 5#16) (sysA (framing [] [] [0xFFFFFFFE#32, 0xFFFFFFFE#32, 0xFFFFFFFE#32] []))
      (fun t => (t.nodeA.txFrame, t.nodeA.fxCount, t.nodeA.inFifo)) =
    some (cells [0xFFFFFFFE#32, 0xFFFFFFFE#32, 0xFFFFFFFE#32, 0xFFFFFFFE#32, 0xFFFFFFFF#32], 2#32, [0xFFFFFFFE#32]) := by
  decide

/-- V-ENC-13. -/
theorem test_encode_range : after (.encode .a 17#16) State.reset (fun t => t.fault) = some (some .argRange) := by decide

/-- V-DEC-15: an escaped UNDERRUN is data, the others set flags. -/
theorem test_decode_op_flags :
    after (.decode .b 4#16) (sysB (framing [] [0xFFFFFFFE#32, 0xFFFFFFFD#32, 0xFFFFFFFC#32, 0xFFFFFFFD#32] [] []))
      (fun t => (t.nodeB.outFifo, t.nodeB.fxFlags)) = some ([0xFFFFFFFD#32], 0x18#32) := by
  decide

/-- V-DEC-14: the final ESCAPE needs no room. -/
theorem test_decode_op_truncated :
    after (.decode .b 3#16) (sysB (framing [] [1#32, 2#32, 0xFFFFFFFE#32] [] [0#32, 0#32, 0#32, 0#32, 0#32, 0#32]))
      (fun t => (t.nodeB.outFifo.drop 6, t.nodeB.fxFlags)) = some ([1#32, 2#32], 0x40#32) := by
  decide

/-- V-LIFE-3. -/
theorem test_init_cap_max : after (.init .a 1024#16) State.reset (fun t => (t.nodeA.life, t.nodeA.cap)) =
    some (.active, 1024#16) := by
  decide

/-- V-LIFE-4. -/
theorem test_init_too_large : after (.init .a 1025#16) State.reset (fun t => (t.nodeA.life, t.fault)) =
    some (.unconfigured, some .badInit) := by
  decide

/-- V-LIFE-7. -/
theorem test_destroy : after (.destroy .a) (sysA (node 2 1 0 0 0 [5#32] [] [] []))
    (fun t => (t.nodeA.life, counts t.nodeA, t.nodeA.sendData)) = some (.destroyed, (0, 0, 0, 0), []) := by
  decide

/-- V-LIFE-6. -/
theorem test_destroy_inactive : after (.destroy .a) State.reset (fun t => t.fault) = some (some .notActive) := by decide

/-- V-XCH-6: only the cells of the batch are copied. -/
theorem test_xchg_partial :
    after .xchg (sys (node 2 1 0 0 0 [1#32, 2#32] [] [] []) (node 2 0 0 0 0 [] [3#32, 4#32] [] []))
      (fun t => (t.nodeB.recvData, counts t.nodeB)) = some (cells [1#32, 4#32], (0, 0, 1, 0)) := by
  decide

/-- V-XCH-2. -/
theorem test_xchg_capacity :
    after .xchg (sys (node 2 2 0 0 0 [1#32, 2#32] [] [] []) (node 1 0 0 0 0 [] [] [] [])) (fun t => t.fault) =
      some (some .xchgCapacity) := by
  decide

/-- V-SET-4. -/
theorem test_frame : after (.frame .b 2#16) (sysB (framing [4#32, 0xFFFFFFFF#32] [] [] [])) (fun t => t.nodeA.rxFrame) =
    some (cells [4#32, 0xFFFFFFFF#32]) := by
  decide

/-- V-SET-3. -/
theorem test_frame_unwritten : after (.frame .a 1#16) State.reset (fun t => t.fault) = some (some .unwritten) := by decide

/-- P1, step 6. -/
theorem test_setRecv : after (.setRecv .a 0#16 0xDEADBEEF#32) (sysA (node 1 1 0 0 0 [7#32] [] [] []))
    (fun t => t.nodeA.recvData) = some [(0, 0xDEADBEEF#32)] := by
  decide

/-- V-FLT-2: lifecycle comes before range. -/
theorem test_setRecv_inactive : after (.setRecv .a 5#16 0#32) State.reset (fun t => t.fault) = some (some .notActive) := by
  decide

/-- V-SET-6. -/
theorem test_setRss :
    after (.setRss .a 2#16) (sysA (node 2 0 0 0 0 [] [] [] [])) (fun t => (counts t.nodeA, t.fault)) =
      some ((0, 0, 2, 0), none) ∧
    after (.setRss .a 3#16) (sysA (node 2 0 0 0 0 [] [] [] [])) (fun t => (counts t.nodeA, t.fault)) =
      some ((0, 0, 0, 0), some .argRange) := by
  decide

/-- V-SET-7. -/
theorem test_setRrs : after (.setRrs .b 0xFFFF#16) (sysB (node 1 0 0 0 0 [] [] [] [])) (fun t => counts t.nodeB) =
    some (0, 0, 0, 65535) := by
  decide

/-- V-SET-8. -/
theorem test_setRxf :
    after (.setRxf .b 15#16 9#32) State.reset (fun t => (t.nodeB.rxFrame, t.fault)) = some ([(15, 9#32)], none) ∧
    after (.setRxf .b 16#16 9#32) State.reset (fun t => (t.nodeB.rxFrame, t.fault)) = some ([], some .argRange) := by
  decide

/-- P4, step 2: the word goes to the back. -/
theorem test_fpush : after (.fpush .a .input 0xFFFFFFFE#32) (sysA (framing [] [] [0x11#32] []))
    (fun t => (t.nodeA.inFifo, t.result)) = some ([0x11#32, 0xFFFFFFFE#32], some 1#32) := by
  decide

/-- R221: a full FIFO answers 0 and is unchanged. -/
theorem test_fpush_full : after (.fpush .a .output 9#32) (sysA (framing [] [] [] [0, 1, 2, 3, 4, 5, 6, 7]))
    (fun t => (t.nodeA.outFifo, t.result)) = some ([0, 1, 2, 3, 4, 5, 6, 7], some 0#32) := by
  decide

/-- P6, step 8. -/
theorem test_fpop : after (.fpop .b .output) (sysB (framing [] [] [] [1#32, 2#32])) (fun t => (t.nodeB.outFifo, t.result)) =
    some ([2#32], some 1#32) := by
  decide

/-- V-FLT-5. -/
theorem test_fpop_empty : after (.fpop .a .input) State.reset (fun t => (t.fault, t.result)) =
    some (some .fifoRange, none) := by
  decide

/-- R223. -/
theorem test_fsize : after (.fsize .b .input) (sysB (framing [] [] [3#32, 4#32, 5#32] [])) (fun t => t.result) =
    some (some 3#32) := by
  decide

/-- R224, with the capacity 8 of the vectors. -/
theorem test_ffree : after (.ffree .b .output) (sysB (framing [] [] [3#32, 4#32, 5#32] [6#32])) (fun t => t.result) =
    some (some 7#32) := by
  decide

/-- R225: index 1 is the second word from the front. -/
theorem test_fpeek : after (.fpeek .a .output 1#16) (sysA (framing [] [] [] [8#32, 9#32]))
    (fun t => (t.result, t.nodeA.outFifo)) = some (some 9#32, [8#32, 9#32]) := by
  decide

/-- V-FLT-6. -/
theorem test_fpeek_empty : after (.fpeek .b .output 0#16) State.reset (fun t => t.fault) = some (some .fifoRange) := by
  decide

/-- R107, R260: each register number reads its own register. -/
theorem test_rdreg :
    [RegSel.lss, .lrs, .rss, .rrs, .capacity, .lifecycle].map
      (fun r => after (.rdreg .a r) (sysA (node 6 1 2 3 4 [] [] [] [])) (fun t => t.result)) =
    [some (some 1#32), some (some 2#32), some (some 3#32), some (some 4#32), some (some 6#32), some (some 1#32)] := by
  decide

/-- V-OBS-2. -/
theorem test_rdreg_inactive : after (.rdreg .a .capacity) State.reset (fun t => t.fault) = some (some .notActive) := by decide

/-- V-OBS-7. -/
theorem test_rdarr : after (.rdarr .a .txFrame 2#16) (sysA (framing [0x11#32, 0xFFFFFFFE#32, 0xFFFFFFFE#32] [] [] []))
    (fun t => t.result) = some (some 0xFFFFFFFE#32) := by
  decide

/-- V-OBS-4 and V-OBS-3. -/
theorem test_rdarr_faults :
    after (.rdarr .a .sendData 4#16) (sysA (node 4 0 0 0 0 [] [] [] [])) (fun t => t.fault) = some (some .argRange) ∧
    after (.rdarr .b .txFrame 0#16) State.reset (fun t => t.fault) = some (some .unwritten) := by
  decide

/-! ## One step of each frame word -/

/-- Node B scans the frame `rx`, stands at place `pos`, and has room for `room` words in OUT. -/
def scanning (rx : List Word) (pos room : Nat) : State :=
  { sysB (framing [] rx [] (List.replicate (8 - room) 0#32)) with
    scan := some { node := .b, pos := pos, len := rx.length, flags := 0#32 } }

/-- V-DEC-12: IDLE needs no room. -/
theorem test_idle : after .idle (scanning [0xFFFFFFFF#32, 0xFFFFFFFF#32] 0 0) (fun t => (t.scan.map Scan.pos, t.nodeB.outFifo.length)) =
    some (some 1, 8) := by
  decide

/-- V-DEC-8: the word after ESCAPE is delivered. -/
theorem test_escape : after .escape (scanning [0xFFFFFFFE#32, 5#32] 0 8) (fun t => (t.scan, t.nodeB.outFifo, t.nodeB.fxFlags)) =
    some (none, [5#32], 0#32) := by
  decide

/-- V-DEC-11: no room for the escaped word. -/
theorem test_escape_overflow : after .escape (scanning [0xFFFFFFFE#32, 1#32] 0 0)
    (fun t => (t.scan, t.nodeB.outFifo.length, t.nodeB.fxFlags)) = some (none, 8, 0x04#32) := by
  decide

/-- V-DEC-13: the first word of the frame. -/
theorem test_underrun : after .underrun (scanning [0xFFFFFFFD#32, 0xFFFFFFFD#32, 1#32] 0 0) (fun t => t.scan.map Scan.flags) =
    some (some 0x08#32) := by
  decide

/-- V-DEC-5: the last word of the frame. -/
theorem test_overrun : after .overrun (scanning [1#32, 0xFFFFFFFC#32] 1 0) (fun t => (t.scan, t.nodeB.fxFlags)) =
    some (none, 0x10#32) := by
  decide

/-- V-DEC-4: words 2 and 3 of the frame, when one word of room is left and when none is. -/
theorem test_literal :
    after (.literal 2#32) (scanning [1#32, 2#32, 3#32] 1 1) (fun t => (t.scan.map Scan.pos, t.nodeB.outFifo.drop 7)) =
      some (some 2, [2#32]) ∧
    after (.literal 3#32) (scanning [1#32, 2#32, 3#32] 2 0) (fun t => (t.scan, t.nodeB.fxFlags)) =
      some (none, 0x04#32) := by
  decide

/-! ## The step -/

/-- What `f` sees after one step. -/
def stepped {α : Type} (s : State) (f : State → α) : Option α :=
  match step s with
  | .next t => some (f t)
  | .fault _ => none
  | .refused _ => none

/-- P1, step 2, as the first instruction after reset. -/
theorem test_step_issued : stepped (State.reset.withFetchWord 64 0xBEEFCAFE00000020) (fun t => (t.nodeA.inFifo, t.issued)) =
    some ([0xBEEFCAFE#32], []) := by
  decide

/-- A frame word placed where the step fetches. -/
theorem test_step_frame_word : stepped (State.reset.withFetchWord 32 0xFFFFFFFE) (fun t => (t.scan, t.nodeA.outFifo)) =
    some (none, [0#32]) := by
  decide

/-- V-FLT-3: the decode check comes first. -/
theorem test_step_illegal :
    stepped (State.reset.issueFirst { agent := .test, word := 0x00000830#32, data := 0#32 }) (fun t => t.fault) =
      some (some .illegalOp) := by
  decide

/-- V-FLT-5: in a faulted state there is no step. -/
theorem test_step_faulted : step (State.reset.raise .fifoRange) = .fault (.stopped .fifoRange) := rfl

/-! ## Witnesses: states and operands that meet the hypotheses of the statements -/

/-- A word issued at reset. -/
def issued (w d : Word) : State := State.reset.issueFirst { agent := .host .a, word := w, data := d }

/-- Two nodes of capacity 2 with a batch of A in flight, half delivered. -/
def inFlight : State :=
  sys (node 2 2 0 0 0 [1#32, 2#32] [] [3#32] []) (node 2 0 1 2 0 [] [1#32, 2#32] [] [1#32])

/-- Two nodes of capacity 2 at rest, with three words to send. -/
def atRest : State := sys (node 2 0 0 0 0 [] [] [1#32, 2#32, 3#32] []) (node 2 0 0 0 0 [] [] [] [])

theorem inFlight_wf : inFlight.Wf := by
  refine ⟨by decide, fun n => ?_, nofun⟩
  cases n <;> constructor <;> decide

theorem atRest_wf : atRest.Wf := by
  refine ⟨by decide, fun n => ?_, nofun⟩
  cases n <;> constructor <;> decide

theorem scanning_wf : (scanning [0xFFFFFFFE#32, 5#32] 0 8).Wf := by
  refine ⟨by decide, fun n => ?_, fun sc h => ?_⟩
  · cases n <;> constructor <;> decide
  · cases h; decide

theorem inFlight_link (n : Node) : Link n inFlight := by cases n <;> constructor <;> decide

theorem atRest_link (n : Node) : Link n atRest := by cases n <;> constructor <;> decide

theorem witness_IdleStepChangesNothing :
    State.reset.fault = none ∧ State.reset.scan = none ∧ State.reset.issued = [] := ⟨rfl, rfl, rfl⟩

theorem witness_OperationWordsRoundTrip : (Instr.rdarr .b .rxFrame 0xFFFF#16).isOperation = true := rfl

theorem witness_LegalWordsAreEncodings :
    decodeOp 0xFFFF8014#32 0#32 = .ok (.setRrs .b 0xFFFF#16) ∧
    decodeOp 0x00008020#32 5#32 = .ok (.fpush .b .input 5#32) := by
  decide

theorem witness_IllegalWordsRaiseIllegalOp :
    (issued 0x00000830#32 0#32).fault = none ∧ (issued 0x00000830#32 0#32).scan = none ∧
    (issued 0x00000830#32 0#32).issued = [{ agent := .host .a, word := 0x00000830#32, data := 0#32 }] ∧
    decodeOp 0x00000830#32 0#32 = .error .selTooLarge := by
  decide

theorem witness_FrameWordsHaveOneKind : Config.reference.wf ∧ 0xFFFFFFFB#32 ∉ Config.reference.rsv := by decide

theorem witness_FrameWordsRoundTrip :
    Config.reference.wf ∧ Instr.wf Config.reference (.literal 0xFFFFFFFB#32) = true ∧
    (Instr.literal 0xFFFFFFFB#32).isOperation = false := by
  decide

theorem witness_StepRunsIssuedOperation :
    (issued 0x00000020#32 5#32).fault = none ∧ (issued 0x00000020#32 5#32).scan = none ∧
    (issued 0x00000020#32 5#32).issued = [{ agent := .host .a, word := 0x00000020#32, data := 5#32 }] ∧
    decodeOp 0x00000020#32 5#32 = .ok (.fpush .a .input 5#32) := by
  decide

theorem witness_StepRunsFrameWord :
    (scanning [0xFFFFFFFE#32, 5#32] 0 8).fault = none ∧
    (scanning [0xFFFFFFFE#32, 5#32] 0 8).scan = some { node := .b, pos := 0, len := 2, flags := 0#32 } ∧
    ((scanning [0xFFFFFFFE#32, 5#32] 0 8).node .b).rxFrame.read 0 = .written 0xFFFFFFFE#32 := by
  decide

theorem witness_FaultedStateHasNoStep : (State.reset.raise .fifoRange).fault = some .fifoRange := rfl

theorem witness_OperationsLeaveNoScan :
    (issued 0x00000004#32 0#32).scan = none ∧ ∃ t, step (issued 0x00000004#32 0#32) = .next t := ⟨rfl, _, rfl⟩

theorem witness_AgentMakesNoDifference :
    State.reset.fault = none ∧ State.reset.scan = none ∧
    ∃ t, step { State.reset with issued := [{ agent := .test, word := 0x00010004#32, data := 0#32 }] } = .next t :=
  ⟨rfl, rfl, _, rfl⟩

theorem witness_FaultCodesFollowTheTable :
    State.reset.fault = none ∧ ∃ t, exec (.rdarr .a .txFrame 16#16) State.reset = .next t ∧ t.fault = some .argRange :=
  ⟨rfl, _, rfl, rfl⟩

theorem witness_FaultsHaveNoOtherEffect :
    (sysA (node 2 0 0 2 0 [] [5#32] [] [])).fault = none ∧
    ∃ t, exec (.advance .a) (sysA (node 2 0 0 2 0 [] [5#32] [] [])) = .next t ∧ t.fault = some .unwritten :=
  ⟨rfl, _, rfl, rfl⟩

theorem witness_InitConstructsNode_constructs :
    (State.reset.node .a).life ≠ .active ∧ 1024#16 ≠ 0#16 ∧ (1024#16).toNat ≤ State.reset.cfg.capMax := by decide

theorem witness_InitConstructsNode_faults :
    (inFlight.node .a).life = .active ∧ State.reset.cfg.capMax < (1025#16).toNat := by decide

theorem witness_DestroyTearsDownNode :
    (inFlight.node .a).life = .active ∧ (State.reset.node .a).life ≠ .active := by decide

theorem witness_LifecycleChangesOnlyByInitAndDestroy : ∃ t, exec (.destroy .b) inFlight = .next t := ⟨_, rfl⟩

theorem witness_OtherNodeIsUntouched :
    (Instr.advance .b).home = some .b ∧ ∃ t, exec (.advance .b) inFlight = .next t := ⟨rfl, _, rfl⟩

/-- V-ADV-11: two words are delivered, none are staged. -/
theorem witness_AdvanceMovesWords_delivers :
    ((sysA (node 4 1 0 2 1 [9#32] [5#32, 6#32] [7#32] [])).node .a).life = .active ∧
    cellsFrom ((sysA (node 4 1 0 2 1 [9#32] [5#32, 6#32] [7#32] [])).node .a).recvData 0 2 =
      [5#32, 6#32].map .written := by
  decide

/-- V-ADV-13: the cell to deliver was never written. -/
theorem witness_AdvanceMovesWords_unwritten :
    ((sysA (node 2 0 0 1 0 [] [] [] [])).node .a).life = .active ∧
    Cell.unwritten ∈ cellsFrom ((sysA (node 2 0 0 1 0 [] [] [] [])).node .a).recvData 0 1 := by
  decide

/-- V-ADV-12. -/
theorem witness_AdvanceMovesWords_inactive : (State.reset.node .b).life ≠ .active := by decide

theorem witness_AdvanceTwiceIsAdvanceOnce :
    inFlight.cfg.handshake = true ∧ inFlight.fault = none ∧
    ∃ t, exec (.advance .b) inFlight = .next t ∧ t.fault = none :=
  ⟨rfl, rfl, _, rfl, rfl⟩

/-- V-ADV-9, without HANDSHAKE. -/
def literalBatch : State := { sysA (node 1 1 0 0 1 [1#32] [] [2#32, 3#32] []) with cfg := literalCfg }

theorem witness_LiteralAdvanceTwiceIsAdvanceOnce :
    literalBatch.Wf ∧ literalBatch.cfg.handshake = false ∧ literalBatch.fault = none ∧
    ∃ t, exec (.advance .a) literalBatch = .next t ∧ t.fault = none := by
  refine ⟨⟨by decide, fun n => ?_, nofun⟩, rfl, rfl, _, rfl, rfl⟩
  cases n <;> constructor <;> decide

theorem witness_StagedBatchIsImmutable :
    inFlight.cfg.handshake = true ∧ (inFlight.node .a).lss ≠ 0#16 ∧ ∃ t, exec .xchg inFlight = .next t :=
  ⟨rfl, by decide, _, rfl⟩

theorem witness_CapacityOneStopsAndWaits :
    ((sysA (node 1 0 0 0 0 [] [] [7#32] [])).node .a).cap = 1#16 ∧
    ∃ t, exec (.advance .a) (sysA (node 1 0 0 0 0 [] [] [7#32] [])) = .next t ∧ (t.node .a).inFifo ≠ [7#32] :=
  ⟨rfl, _, rfl, by decide⟩

theorem witness_LinkHoldsAfterBothInits :
    ∃ t u, exec (.init .a 1#16) State.reset = .next t ∧ exec (.init .b 1024#16) t = .next u ∧ u.fault = none :=
  ⟨_, _, rfl, rfl, rfl⟩

theorem witness_LinkSurvivesEveryOtherInstruction :
    inFlight.Wf ∧ inFlight.cfg.handshake = true ∧ Link .a inFlight ∧ Instr.breaksLink .xchg = false ∧
    ∃ t, exec .xchg inFlight = .next t :=
  ⟨inFlight_wf, rfl, inFlight_link .a, rfl, _, rfl⟩

theorem witness_AdvanceAndXchgConserveWords :
    inFlight.Wf ∧ inFlight.cfg.handshake = true ∧ Link .a inFlight ∧
    ∀ i ∈ [Instr.advance .a, .advance .b, .xchg], ∃ t, exec i inFlight = .next t := by
  refine ⟨inFlight_wf, rfl, inFlight_link .a, fun i hi => ?_⟩
  simp only [List.mem_cons, List.not_mem_nil, or_false] at hi
  rcases hi with rfl | rfl | rfl <;> exact ⟨_, rfl⟩

/-- One word is pushed into IN[A], carried, and popped from OUT[B]. -/
theorem witness_WordsArriveOnceInOrder :
    inFlight.Wf ∧ Link .a inFlight ∧
    (∀ i ∈ [Instr.fpush .a .input 4#32, .advance .b, .xchg, .fpop .b .output], i.linkUse = true) ∧
    (∃ r, runTraffic .a [.fpush .a .input 4#32, .advance .b, .xchg, .fpop .b .output] inFlight
      { pushed := inFlight.pipeline .a, popped := [] } = some r) ∧
    [] ++ inFlight.pipeline .a = inFlight.pipeline .a :=
  ⟨inFlight_wf, inFlight_link .a, by decide, ⟨_, rfl⟩, rfl⟩

theorem witness_AdvanceRestoresWindowBound :
    inFlight.cfg.handshake = true ∧ Link (Node.peer .b) inFlight ∧ inFlight.fault = none ∧
    ∃ t, exec (.advance .b) inFlight = .next t ∧ t.fault = none :=
  ⟨rfl, inFlight_link .a, rfl, _, rfl, rfl⟩

theorem witness_LinkedOperationsRaiseNoFault :
    inFlight.Wf ∧ (∀ n, (inFlight.node n).life = .active) ∧ Link (Node.peer .b) inFlight ∧
    (inFlight.node .b).cap = (inFlight.node .a).cap :=
  ⟨inFlight_wf, fun n => by cases n <;> rfl, inFlight_link .a, rfl⟩

/-- Two of the three words fill the batch of capacity 2. -/
theorem witness_OneRoundDeliversABatch :
    atRest.Wf ∧ atRest.cfg.handshake = true ∧ (∀ m, Link m atRest) ∧ (∀ m, (atRest.node m).life = .active) ∧
    (atRest.node .a).cap = (atRest.node .b).cap ∧ (atRest.node .a).lss = 0#16 ∧ (atRest.node .a).rrs = 0#16 ∧
    (atRest.node .b).rss = 0#16 ∧ (atRest.node .b).lrs = 0#16 ∧
    min (atRest.node .a).cap.toNat (atRest.node .a).inFifo.length ≤
      fifoCap atRest.cfg .b .output - (atRest.node .b).outFifo.length :=
  ⟨atRest_wf, rfl, atRest_link, fun m => by cases m <;> rfl, rfl, rfl, rfl, rfl, rfl, by decide⟩

theorem witness_EncodeFillsFrame :
    (16#16).toNat ≤ State.reset.cfg.frameMax ∧ State.reset.cfg.frameMax < (17#16).toNat := by decide

theorem witness_EncodeCarriesHalfTheSlots :
    (5#16).toNat ≤ State.reset.cfg.frameMax ∧
    (5#16).toNat / 2 ≤ ((sysA (framing [] [] [0xFFFFFFFE#32, 0xFFFFFFFE#32] [])).node .a).inFifo.length ∧
    ∃ t, exec (.encode .a 5#16) (sysA (framing [] [] [0xFFFFFFFE#32, 0xFFFFFFFE#32] [])) = .next t :=
  ⟨by decide, by decide, _, rfl⟩

/-- Node B before V-DEC-15: a frame that is read to its end. -/
def escapedFrame : State := sysB (framing [] [0xFFFFFFFE#32, 0xFFFFFFFD#32, 0xFFFFFFFC#32, 0xFFFFFFFD#32] [] [])

/-- Node B before V-DEC-19: a frame whose second cell was never written. -/
def cutFrame : State := sysB (framing [] [0xFFFFFFFE#32] [] [])

theorem witness_DecodeFollowsTheFrame :
    (4#16).toNat ≤ escapedFrame.cfg.frameMax ∧
    decodeCells escapedFrame.cfg (fifoCap escapedFrame.cfg .b .output - (escapedFrame.node .b).outFifo.length)
      (cellsFrom (escapedFrame.node .b).rxFrame 0 (4#16).toNat) = .ok ([0xFFFFFFFD#32], 0x18#32) ∧
    decodeCells cutFrame.cfg (fifoCap cutFrame.cfg .b .output - (cutFrame.node .b).outFifo.length)
      (cellsFrom (cutFrame.node .b).rxFrame 0 (2#16).toNat) = .error .unwritten ∧
    escapedFrame.cfg.frameMax < (17#16).toNat := by
  decide

/-- Room for as many words as the frame has slots. -/
theorem witness_DecodeWithRoomNeverOverflows :
    (2#16).toNat ≤ fifoCap State.reset.cfg .b .output - (State.reset.node .b).outFifo.length ∧
    ∃ t, exec (.decode .b 2#16) (sysB (framing [] [1#32, 0xFFFFFFFD#32] [] [])) = .next t ∧ t.fault = none :=
  ⟨by decide, _, rfl, rfl⟩

theorem witness_ResultRegistersChangeOnlyByTheFramer :
    (Instr.xchg).isOperation = true ∧ ∃ t, exec .xchg inFlight = .next t := ⟨rfl, _, rfl⟩

theorem witness_FramerIgnoresEngine :
    (∃ t, exec (.encode .a 5#16) inFlight = .next t) ∧
    ∃ t, exec (.decode .b 2#16) (sysB (framing [] [1#32, 0xFFFFFFFD#32] [] [])) = .next t :=
  ⟨⟨_, rfl⟩, _, rfl⟩

/-- P4 before its ENCODE: three words to send, one of them reserved. -/
def beforeP4 : State := sysA (framing [] [] [0x11#32, 0xFFFFFFFE#32, 0x22#32] [])

/-- Four slots are exactly enough for the three words, and OUT of B has room. -/
theorem witness_FrameRoundTrip :
    beforeP4.cfg.wf ∧ (4#16).toNat ≤ beforeP4.cfg.frameMax ∧
    (beforeP4.node .a).inFifo.length + (beforeP4.node .a).inFifo.countP (fun w => w ∈ beforeP4.cfg.rsv) = (4#16).toNat ∧
    (beforeP4.node .a).inFifo.length ≤
      fifoCap beforeP4.cfg (Node.peer .a) .output - (beforeP4.node (Node.peer .a)).outFifo.length := by
  decide

/-- P5 before its first ENCODE: three words to send, two slots a round. -/
def beforeP5 : State := sysA (framing [] [] [0xFFFFFFFE#32, 0x00000001#32, 0xFFFFFFFF#32] [])

theorem witness_FrameRoundConservesWords :
    beforeP5.cfg.wf ∧ (2#16).toNat ≤ beforeP5.cfg.frameMax ∧
    (2#16).toNat ≤ fifoCap beforeP5.cfg (Node.peer .a) .output - (beforeP5.node (Node.peer .a)).outFifo.length ∧
    2 ≤ (2#16).toNat ∧ (beforeP5.node .a).inFifo ≠ [] := by
  decide

theorem witness_FrameWordStepsAgreeWithDecode :
    (sysB (framing [] [0xFFFFFFFE#32, 5#32] [] [])).fault = none ∧
    (sysB (framing [] [0xFFFFFFFE#32, 5#32] [] [])).scan = none ∧ 2#16 ≠ 0#16 ∧
    ∃ t, exec (.decode .b 2#16) (sysB (framing [] [0xFFFFFFFE#32, 5#32] [] [])) = .next t ∧ t.fault = none :=
  ⟨rfl, rfl, by decide, _, rfl, rfl⟩

/-- The last place of a frame and the place before it. -/
theorem witness_ControlFrameWordsOnlySetFlags :
    (∃ sc, (scanning [0xFFFFFFFF#32, 0xFFFFFFFF#32] 0 0).scan = some sc ∧ sc.pos + 1 < sc.len) ∧
    ∃ sc, (scanning [0xFFFFFFFF#32, 0xFFFFFFFF#32] 1 0).scan = some sc ∧ sc.pos < sc.len ∧ sc.pos + 1 = sc.len :=
  ⟨⟨_, rfl, by decide⟩, _, rfl, by decide⟩

/-- The last place of a frame, a full OUT, the last free place of OUT, and an unwritten second cell. -/
theorem witness_EscapeDeliversTheNextWord :
    (∃ sc, (scanning [0xFFFFFFFE#32] 0 8).scan = some sc ∧ sc.pos < sc.len ∧ sc.pos + 1 = sc.len) ∧
    (∃ sc, (scanning [0xFFFFFFFE#32, 5#32] 0 0).scan = some sc ∧ sc.pos + 1 < sc.len ∧
      fifoCap Config.reference .b .output ≤ ((scanning [0xFFFFFFFE#32, 5#32] 0 0).node .b).outFifo.length) ∧
    (∃ sc, (scanning [0xFFFFFFFE#32, 5#32] 0 1).scan = some sc ∧ sc.pos + 1 < sc.len ∧
      ((scanning [0xFFFFFFFE#32, 5#32] 0 1).node .b).outFifo.length < fifoCap Config.reference .b .output ∧
      ((scanning [0xFFFFFFFE#32, 5#32] 0 1).node .b).rxFrame.read 1 = .written 5#32) ∧
    ((sysB (framing [] [0xFFFFFFFE#32] [] [])).node .b).rxFrame.read 1 = .unwritten :=
  ⟨⟨_, rfl, by decide⟩, ⟨_, rfl, by decide⟩, ⟨_, rfl, by decide⟩, rfl⟩

theorem witness_LiteralIsDeliveredOrOverflows :
    (∃ sc, (scanning [1#32, 2#32] 1 1).scan = some sc ∧ sc.pos < sc.len ∧
      ((scanning [1#32, 2#32] 1 1).node .b).outFifo.length < fifoCap Config.reference .b .output) ∧
    ∃ sc, (scanning [1#32, 2#32] 1 0).scan = some sc ∧ sc.pos < sc.len ∧
      fifoCap Config.reference .b .output ≤ ((scanning [1#32, 2#32] 1 0).node .b).outFifo.length :=
  ⟨⟨_, rfl, by decide⟩, _, rfl, by decide⟩

theorem witness_FrameWordsNeedAScan : State.reset.scan = none ∧ (Instr.literal 0#32).isOperation = false := ⟨rfl, rfl⟩

/-- Seven words and eight words of a FIFO of capacity 8. -/
theorem witness_FpushAppendsOrReportsFull :
    (((scanning [] 0 1).node .b).fifo .output).length + 1 = fifoCap Config.reference .b .output ∧
    (((scanning [] 0 0).node .b).fifo .output).length = fifoCap Config.reference .b .output := by
  decide

theorem witness_FpopTakesTheFront :
    (inFlight.node .a).fifo .input = [3#32] ∧ (State.reset.node .a).fifo .input = [] := ⟨rfl, rfl⟩

theorem witness_FsizeAndFfreeCount : inFlight.Wf := inFlight_wf

theorem witness_FpeekReadsWithoutRemoving :
    (0#16).toNat < ((inFlight.node .a).fifo .input).length ∧ ((inFlight.node .a).fifo .input).length ≤ (1#16).toNat := by
  decide

/-- A batch that just fits, an inactive node, and a batch one word too long (V-XCH-1, V-XCH-4, V-XCH-2). -/
theorem witness_XchgCopiesBothDirections :
    inFlight.Wf ∧ (∀ n, (inFlight.node n).life = .active) ∧ (∀ n, (inFlight.node n).lss ≤ (inFlight.node n.peer).cap) ∧
    (State.reset.node .b).life ≠ .active ∧
    ((sys (node 2 2 0 0 0 [1#32, 2#32] [] [] []) (node 1 0 0 0 0 [] [] [] [])).node .b).cap <
      ((sys (node 2 2 0 0 0 [1#32, 2#32] [] [] []) (node 1 0 0 0 0 [] [] [] [])).node .a).lss :=
  ⟨inFlight_wf, fun n => by cases n <;> rfl, fun n => by cases n <;> decide, by decide, by decide⟩

theorem witness_XchgCopiesBothDirections_faults_wf :
    State.reset.Wf ∧ (sys (node 2 2 0 0 0 [1#32, 2#32] [] [] []) (node 1 0 0 0 0 [] [] [] [])).Wf := by
  refine ⟨⟨by decide, fun n => ?_, nofun⟩, ⟨by decide, fun n => ?_, nofun⟩⟩ <;> cases n <;> constructor <;> decide

theorem witness_XchgTwiceIsXchgOnce :
    inFlight.Wf ∧ inFlight.fault = none ∧ ∃ t, exec .xchg inFlight = .next t ∧ t.fault = none :=
  ⟨inFlight_wf, rfl, _, rfl, rfl⟩

/-- A frame of as many words as were written, one word more, and a length past FRAME_MAX. -/
theorem witness_FrameCopiesToThePeer :
    (∀ i < (1#16).toNat, ((sysA (framing [9#32] [] [] [])).node .a).txFrame.read i ≠ .unwritten) ∧
    ((sysA (framing [9#32] [] [] [])).node .a).txFrame.read 1 = .unwritten ∧
    (16#16).toNat ≤ Config.reference.frameMax ∧ Config.reference.frameMax < (17#16).toNat := by
  decide

theorem witness_SetRecvWritesOneCell :
    (inFlight.node .b).life = .active ∧ 1#16 < (inFlight.node .b).cap ∧ (State.reset.node .b).life ≠ .active ∧
    (inFlight.node .b).cap ≤ 2#16 := by
  decide

theorem witness_SetRssWritesRss :
    (inFlight.node .b).life = .active ∧ 2#16 ≤ (inFlight.node .b).cap ∧ (State.reset.node .b).life ≠ .active ∧
    (inFlight.node .b).cap < 3#16 := by
  decide

theorem witness_SetRrsWritesRrs : (inFlight.node .b).life = .active ∧ (State.reset.node .b).life ≠ .active := by decide

theorem witness_SetRxfWritesOneCell :
    (15#16).toNat < State.reset.cfg.frameMax ∧ State.reset.cfg.frameMax ≤ (16#16).toNat := by decide

theorem witness_RdregReadsTheRegister : (inFlight.node .a).life = .active ∧ (State.reset.node .a).life ≠ .active := by
  decide

/-- A cell to read, an inactive node, the first index past the array, and an unwritten cell. -/
theorem witness_RdarrReadsTheCell :
    (inFlight.node .a).life = .active ∧ (1#16).toNat < (inFlight.node .a).cap.toNat ∧
    (inFlight.node .a).sendData.read 1 = .written 2#32 ∧ (State.reset.node .a).life ≠ .active ∧
    (inFlight.node .a).cap.toNat ≤ (2#16).toNat ∧ (inFlight.node .a).recvData.read 1 = .unwritten ∧
    (15#16).toNat < State.reset.cfg.frameMax ∧ State.reset.cfg.frameMax ≤ (16#16).toNat ∧
    (State.reset.node .a).txFrame.read 15 = .unwritten := by
  decide

theorem witness_PowerOnIsWellFormed : Config.reference.wf ∧ literalCfg.wf := by decide

/-- A step of an issued operation, and a step of a frame word. -/
theorem witness_EveryStepKeepsWellFormed :
    inFlight.Wf ∧ (∃ t, step inFlight = .next t) ∧ (scanning [0xFFFFFFFE#32, 5#32] 0 8).Wf ∧
    ∃ t, step (scanning [0xFFFFFFFE#32, 5#32] 0 8) = .next t :=
  ⟨inFlight_wf, ⟨_, rfl⟩, scanning_wf, _, rfl⟩

end Sys2Proof.Tests
end

section
/-! The state at power-on (R55). -/

namespace Sys2Proof.Machine

@[simp] theorem State.node_powerOn (c : Config) (n : Node) : (State.powerOn c).node n = NodeState.powerOn := by
  cases n <;> rfl

@[simp] theorem State.powerOn_fault (c : Config) : (State.powerOn c).fault = none := rfl

@[simp] theorem NodeState.array_powerOn (x : ArrSel) : NodeState.powerOn.array x = [] := by cases x <;> rfl

@[simp] theorem NodeState.fifo_powerOn (q : FifoSel) : NodeState.powerOn.fifo q = [] := by cases q <;> rfl

/-- Both staging arrays have `cap` cells, and `cap` is 0 at power-on. -/
theorem arrayLength_powerOn_staging (c : Config) :
    arrayLength c NodeState.powerOn .sendData = 0 ∧ arrayLength c NodeState.powerOn .recvData = 0 := ⟨rfl, rfl⟩

/-- Settles O1: both nodes hold `NodeState.powerOn`, whose arrays and FIFOs list no word. -/
theorem powerOnLeavesResetValues : Obligations.PowerOnLeavesResetValues := by
  intro c n
  rw [State.node_powerOn]
  obtain ⟨send_length, recv_length⟩ := arrayLength_powerOn_staging c
  have cells (x : ArrSel) (i : Nat) : (NodeState.powerOn.array x).read i = .unwritten := by
    rw [NodeState.array_powerOn, Memory.read_nil]
  exact ⟨rfl, rfl, rfl, rfl, rfl, rfl, send_length, recv_length, cells, rfl, rfl, NodeState.fifo_powerOn,
    State.powerOn_fault c⟩

end Sys2Proof.Machine
end

section
/-! The illegal operation words (R105): what each check of the decoder refuses, the words refused among the operations
that make the same checks, and the step that meets a refused word. -/

namespace Sys2Proof

/-! ## What each check refuses -/

section
variable (w : Word) (r : Except Illegal Instr)

theorem needSelZero_refuses :
    (∃ e, needSelZero w r = .error e) ↔ selOf w ≠ 0#7 ∨ ∃ e, r = .error e := by
  unfold needSelZero
  split
  · next sel_zero => simp [sel_zero]
  · next sel_nonzero => simp [sel_nonzero]

theorem needArgZero_refuses :
    (∃ e, needArgZero w r = .error e) ↔ argOf w ≠ 0#16 ∨ ∃ e, r = .error e := by
  unfold needArgZero
  split
  · next arg_zero => simp [arg_zero]
  · next arg_nonzero => simp [arg_nonzero]

theorem needNodeZero_refuses :
    (∃ e, needNodeZero w r = .error e) ↔ nodeOf w = .b ∨ ∃ e, r = .error e := by
  unfold needNodeZero
  cases nodeOf w <;> simp

end

/-- A range check refuses the selectors above `top`, and otherwise what the operation refuses, where that is the same
`P` for every selector. -/
theorem needSel_refuses {α : Type} {ofSel : BitVec 7 → Option α} {sel : α → BitVec 7} {top : Nat}
    (cases_ofSel : ∀ v, (∃ x, ofSel v = some x ∧ sel x = v) ∨ ofSel v = none ∧ top < v.toNat)
    (sel_le : ∀ x, (sel x).toNat ≤ top) (w : Word) {k : α → Except Illegal Instr} {P : Prop}
    (hk : ∀ x, (∃ e, k x = .error e) ↔ P) :
    (∃ e, needSel ofSel w k = .error e) ↔ top < (selOf w).toNat ∨ P := by
  unfold needSel
  obtain ⟨x, named, sel_eq⟩ | ⟨unnamed, above⟩ := cases_ofSel (selOf w)
  · have in_range : ¬ top < (selOf w).toNat := by
      rw [← sel_eq]
      exact Nat.not_lt.2 (sel_le x)
    simp [named, hk, in_range]
  · simp [unnamed, above]

theorem needFifoSel_refuses (w : Word) {k : FifoSel → Except Illegal Instr} {P : Prop}
    (hk : ∀ q, (∃ e, k q = .error e) ↔ P) :
    (∃ e, needSel FifoSel.ofSel w k = .error e) ↔ 1 < (selOf w).toNat ∨ P :=
  needSel_refuses FifoSel.ofSel_cases (fun q => by cases q <;> decide) w hk

theorem needRegSel_refuses (w : Word) {k : RegSel → Except Illegal Instr} {P : Prop}
    (hk : ∀ r, (∃ e, k r = .error e) ↔ P) :
    (∃ e, needSel RegSel.ofSel w k = .error e) ↔ 7 < (selOf w).toNat ∨ P :=
  needSel_refuses RegSel.ofSel_cases (fun r => by cases r <;> decide) w hk

theorem needArrSel_refuses (w : Word) {k : ArrSel → Except Illegal Instr} {P : Prop}
    (hk : ∀ x, (∃ e, k x = .error e) ↔ P) :
    (∃ e, needSel ArrSel.ofSel w k = .error e) ↔ 3 < (selOf w).toNat ∨ P :=
  needSel_refuses ArrSel.ofSel_cases (fun x => by cases x <;> decide) w hk

/-! ## The words refused, by the checks their operation makes -/

/-- The opcodes of the 18 operations (R104). -/
def assignedOps : List Nat :=
  [0x01, 0x02, 0x03, 0x04, 0x05, 0x10, 0x11, 0x12, 0x13, 0x14, 0x15, 0x20, 0x21, 0x22, 0x23, 0x24, 0x30, 0x31]

/-- The assigned opcodes in groups by their checks, and the rest. -/
theorem opcode_groups (n : Nat) :
    (n = 0x01 ∨ n = 0x05) ∨ n = 0x10 ∨ n ∈ [0x02, 0x03, 0x04, 0x11, 0x12, 0x13, 0x14, 0x15] ∨
    n ∈ [0x20, 0x21, 0x22, 0x23] ∨ n = 0x24 ∨ n = 0x30 ∨ n = 0x31 ∨ n ∉ assignedOps := by
  simp only [assignedOps, List.mem_cons, List.not_mem_nil, or_false]
  omega

section
variable {w : Word} (d : Word)

/-- ADVANCE and DESTROY take no SEL and no ARG. -/
theorem decodeOp_refuses_bare (op : (opOf w).toNat = 0x01 ∨ (opOf w).toNat = 0x05) :
    (∃ e, decodeOp w d = .error e) ↔ selOf w ≠ 0#7 ∨ argOf w ≠ 0#16 := by
  rcases op with op | op <;> simp [decodeOp, op, needSelZero_refuses, needArgZero_refuses]

theorem decodeOp_refuses_xchg (op : (opOf w).toNat = 0x10) :
    (∃ e, decodeOp w d = .error e) ↔ selOf w ≠ 0#7 ∨ argOf w ≠ 0#16 ∨ nodeOf w = .b := by
  simp [decodeOp, op, needSelZero_refuses, needArgZero_refuses, needNodeZero_refuses]

/-- The operations that take an ARG and no SEL. -/
theorem decodeOp_refuses_arg (op : (opOf w).toNat ∈ [0x02, 0x03, 0x04, 0x11, 0x12, 0x13, 0x14, 0x15]) :
    (∃ e, decodeOp w d = .error e) ↔ selOf w ≠ 0#7 := by
  simp only [List.mem_cons, List.not_mem_nil, or_false] at op
  rcases op with op | op | op | op | op | op | op | op <;> simp [decodeOp, op, needSelZero_refuses]

/-- The operations that take a FIFO and no ARG. -/
theorem decodeOp_refuses_fifo (op : (opOf w).toNat ∈ [0x20, 0x21, 0x22, 0x23]) :
    (∃ e, decodeOp w d = .error e) ↔ 1 < (selOf w).toNat ∨ argOf w ≠ 0#16 := by
  simp only [List.mem_cons, List.not_mem_nil, or_false] at op
  rcases op with op | op | op | op <;> simp only [decodeOp, op] <;>
    exact needFifoSel_refuses w fun q => by simp [needArgZero_refuses]

theorem decodeOp_refuses_fpeek (op : (opOf w).toNat = 0x24) :
    (∃ e, decodeOp w d = .error e) ↔ 1 < (selOf w).toNat := by
  simpa [decodeOp, op] using
    needFifoSel_refuses w (P := False) (k := fun q => .ok (.fpeek (nodeOf w) q (argOf w))) (by simp)

theorem decodeOp_refuses_rdreg (op : (opOf w).toNat = 0x30) :
    (∃ e, decodeOp w d = .error e) ↔ 7 < (selOf w).toNat ∨ argOf w ≠ 0#16 := by
  simp only [decodeOp, op]
  exact needRegSel_refuses w fun r => by simp [needArgZero_refuses]

theorem decodeOp_refuses_rdarr (op : (opOf w).toNat = 0x31) :
    (∃ e, decodeOp w d = .error e) ↔ 3 < (selOf w).toNat := by
  simpa [decodeOp, op] using
    needArrSel_refuses w (P := False) (k := fun x => .ok (.rdarr (nodeOf w) x (argOf w))) (by simp)

theorem decodeOp_of_unassigned (op : (opOf w).toNat ∉ assignedOps) : decodeOp w d = .error .unassignedOp := by
  unfold decodeOp
  split
  case h_19 => rfl
  all_goals
    next code =>
      rw [code] at op
      exact absurd (by decide) op

end

/-- R105: the decoder refuses a word exactly where one of the listed conditions holds. -/
theorem decodeOp_refuses_iff (w d : Word) :
    (∃ e, decodeOp w d = .error e) ↔
    (opOf w).toNat ∉ [0x01, 0x02, 0x03, 0x04, 0x05, 0x10, 0x11, 0x12, 0x13, 0x14, 0x15, 0x20, 0x21, 0x22, 0x23, 0x24,
      0x30, 0x31] ∨
    ((opOf w).toNat ∈ [0x01, 0x02, 0x03, 0x04, 0x05, 0x10, 0x11, 0x12, 0x13, 0x14, 0x15] ∧ selOf w ≠ 0#7) ∨
    ((opOf w).toNat ∈ [0x20, 0x21, 0x22, 0x23, 0x24] ∧ 1 < (selOf w).toNat) ∨
    ((opOf w).toNat = 0x30 ∧ 7 < (selOf w).toNat) ∨ ((opOf w).toNat = 0x31 ∧ 3 < (selOf w).toNat) ∨
    ((opOf w).toNat ∈ [0x01, 0x05, 0x10, 0x20, 0x21, 0x22, 0x23, 0x30] ∧ argOf w ≠ 0#16) ∨
    ((opOf w).toNat = 0x10 ∧ nodeOf w = .b) := by
  obtain op | op | op | op | op | op | op | op := opcode_groups (opOf w).toNat
  · rw [decodeOp_refuses_bare d op]
    rcases op with op | op <;> simp [op]
  · rw [decodeOp_refuses_xchg d op]
    simp [op]
  · rw [decodeOp_refuses_arg d op]
    simp only [List.mem_cons, List.not_mem_nil, or_false] at op
    rcases op with op | op | op | op | op | op | op | op <;> simp [op]
  · rw [decodeOp_refuses_fifo d op]
    simp only [List.mem_cons, List.not_mem_nil, or_false] at op
    rcases op with op | op | op | op <;> simp [op]
  · rw [decodeOp_refuses_fpeek d op]
    simp [op]
  · rw [decodeOp_refuses_rdreg d op]
    simp [op]
  · rw [decodeOp_refuses_rdarr d op]
    simp [op]
  · exact iff_of_true ⟨_, decodeOp_of_unassigned d op⟩ (.inl op)

end Sys2Proof

namespace Sys2Proof.Machine

theorem fetch_of_issued {s : State} {q : Issue} {rest : List Issue} (no_scan : s.scan = none)
    (head : s.issued = q :: rest) : fetch s = .operation q rest := by
  simp only [fetch, no_scan, head]

theorem step_of_illegal {s : State} {q : Issue} {rest : List Issue} {e : Illegal} (no_fault : s.fault = none)
    (no_scan : s.scan = none) (head : s.issued = q :: rest) (illegal : decodeOp q.word q.data = .error e) :
    step s = .next ((s.accept q rest).raise .illegalOp) := by
  simp only [step, no_fault, fetch_of_issued no_scan head, illegal]

/-- Settles O6: what the decoder refuses goes by the checks of the word's operation, and a step that meets a refused
word only takes it up and records the fault. -/
theorem illegalWordsRaiseIllegalOp : Obligations.IllegalWordsRaiseIllegalOp :=
  ⟨decodeOp_refuses_iff, fun _ _ _ _ no_fault no_scan head illegal => step_of_illegal no_fault no_scan head illegal⟩

end Sys2Proof.Machine
end

section
/-! The engine's operations (`40_engine.md` R140 to R142): the words that decode to them, what each computes in closed
form, and what each answers in the cases of its checks. -/

namespace Sys2Proof

/-! ## The operation words of the engine (R104) -/

section
variable (op : BitVec 8) (sel : BitVec 7) (n : Node) (arg : Count) (d : Word) (r : Except Illegal Instr)

@[simp] theorem needSelZero_packOp_zero : needSelZero (packOp op 0#7 n arg) r = r := if_pos (selOf_packOp op 0#7 n arg)

@[simp] theorem needArgZero_packOp_zero : needArgZero (packOp op sel n 0#16) r = r :=
  if_pos (argOf_packOp op sel n 0#16)

theorem decodeOp_packOp_advance : decodeOp (packOp 0x01#8 0#7 n 0#16) d = .ok (.advance n) := by simp [decodeOp]

theorem decodeOp_packOp_init : decodeOp (packOp 0x04#8 0#7 n arg) d = .ok (.init n arg) := by simp [decodeOp]

theorem decodeOp_packOp_destroy : decodeOp (packOp 0x05#8 0#7 n 0#16) d = .ok (.destroy n) := by simp [decodeOp]

end

end Sys2Proof

namespace Sys2Proof.Machine

/-! ## An operation that replaces its own node -/

theorem onlyNode_setNode_done (s : State) (n : Node) (x : NodeState) : OnlyNode n s (s.setNode n x).done := by
  constructor <;> simp

theorem node_setNode_done (s : State) (n : Node) (x : NodeState) : (s.setNode n x).done.node n = x := by simp

/-! ## INIT (R140) -/

section
variable {s : State} {n : Node} {arg : Count}

theorem exec_init_of_legal (inactive : (s.node n).life ≠ .active) (nonzero : arg ≠ 0#16)
    (le_max : arg.toNat ≤ s.cfg.capMax) :
    exec (.init n arg) s = .next (s.setNode n (initNode (s.node n) arg)).done := by
  have in_range : ¬ (arg = 0#16 ∨ s.cfg.capMax < arg.toNat) := not_or.2 ⟨nonzero, not_lt.2 le_max⟩
  rw [exec, execInit, if_neg inactive, if_neg in_range, commit_ok]

theorem exec_init_of_illegal (illegal : (s.node n).life = .active ∨ arg = 0#16 ∨ s.cfg.capMax < arg.toNat) :
    exec (.init n arg) s = .next (s.raise .badInit) := by
  rw [exec, execInit]
  by_cases active : (s.node n).life = .active
  · rw [if_pos active, commit_error]
  · rw [if_neg active, if_pos (illegal.resolve_left active), commit_error]

end

/-- Settles O16: INIT puts `initNode` in place of the node, whose staging arrays list no word. -/
theorem initConstructsNode : Obligations.InitConstructsNode := by
  intro s n arg
  refine ⟨decodeOp_packOp_init n arg, ?_, exec_init_of_illegal⟩
  intro inactive nonzero le_max
  refine ⟨_, exec_init_of_legal inactive nonzero le_max, onlyNode_setNode_done s n _, rfl, ?_⟩
  rw [node_setNode_done]
  exact ⟨rfl, rfl, rfl, fun i => ⟨Memory.read_nil i, Memory.read_nil i⟩⟩

/-! ## DESTROY (R141) -/

section
variable {s : State} {n : Node}

theorem exec_destroy_of_active (active : (s.node n).life = .active) :
    exec (.destroy n) s = .next (s.setNode n (destroyNode (s.node n))).done := by
  rw [exec, execDestroy, if_neg (not_not.2 active), commit_ok]

theorem exec_destroy_of_inactive (inactive : (s.node n).life ≠ .active) :
    exec (.destroy n) s = .next (s.raise .notActive) := by
  rw [exec, execDestroy, if_pos inactive, commit_error]

end

/-- Settles O17: DESTROY puts `destroyNode` in place of the node, whose staging arrays have no cells. -/
theorem destroyTearsDownNode : Obligations.DestroyTearsDownNode := by
  intro s n
  refine ⟨decodeOp_packOp_destroy n, ?_, exec_destroy_of_inactive⟩
  intro active
  refine ⟨_, exec_destroy_of_active active, onlyNode_setNode_done s n _, rfl, ?_⟩
  rw [node_setNode_done]
  exact ⟨rfl, rfl, rfl, fun i => ⟨Memory.read_nil i, Memory.read_nil i⟩⟩

/-! ## The phases of ADVANCE in closed form (R152, R153, R155) -/

theorem rewind_eq (handshake : Bool) (x : NodeState) :
    rewind handshake x = { x with lrs := if handshake = true ∧ x.rss = 0#16 then 0#16 else x.lrs } := by
  unfold rewind
  split <;> rfl

/-- Where the batch goes on after Reclaim (R153): at the start where the batch in flight was acknowledged. -/
def stageBase (x : NodeState) : Nat := if x.lss ≤ x.rrs then 0 else x.lss.toNat

theorem reclaim_eq (x : NodeState) : reclaim x = { x with lss := BitVec.ofNat 16 (stageBase x) } := by
  unfold reclaim stageBase
  split
  · rfl
  · rw [BitVec.ofNat_toNat, BitVec.setWidth_eq]

theorem stageBase_toNat (x : NodeState) : (BitVec.ofNat 16 (stageBase x)).toNat = stageBase x := by
  unfold stageBase
  split
  · rfl
  · rw [BitVec.ofNat_toNat, BitVec.setWidth_eq]

/-- How many words Stage moves after Reclaim, its gate included (R155). -/
def stagedWords (handshake : Bool) (x : NodeState) : Nat :=
  if handshake = false ∨ stageBase x ≠ 0 ∨ x.rrs = 0#16 then min (x.cap.toNat - stageBase x) x.inFifo.length else 0

theorem stageGate_reclaim (handshake : Bool) (x : NodeState) :
    stageGate handshake (reclaim x) = true ↔ handshake = false ∨ stageBase x ≠ 0 ∨ x.rrs = 0#16 := by
  have base_zero : BitVec.ofNat 16 (stageBase x) = 0#16 ↔ stageBase x = 0 := by
    rw [← BitVec.toNat_inj, stageBase_toNat, BitVec.toNat_zero]
  simp [stageGate, reclaim_eq, base_zero, or_assoc]

theorem stage_reclaim_eq (handshake : Bool) (x : NodeState) :
    stage handshake (reclaim x) =
      { x with
        inFifo := x.inFifo.drop (stagedWords handshake x)
        lss := BitVec.ofNat 16 (stageBase x + stagedWords handshake x)
        sendData := x.sendData.writeFrom (stageBase x) (x.inFifo.take (stagedWords handshake x)) } := by
  by_cases gate : handshake = false ∨ stageBase x ≠ 0 ∨ x.rrs = 0#16
  · rw [stage_eq, if_pos ((stageGate_reclaim handshake x).2 gate), stagedWords, if_pos gate]
    simp only [stageCount, reclaim_eq, stageBase_toNat, BitVec.ofNat_add]
  · rw [stage_eq, if_neg (mt (stageGate_reclaim handshake x).1 gate), stagedWords, if_neg gate, reclaim_eq]
    rfl

/-! ## ADVANCE (R142) -/

section
variable {handshake : Bool} {outCap : Nat} {x : NodeState}

/-- Deliver and Rewind touch none of what Reclaim and Stage read, so both counts are those of the node before. -/
theorem advanceNode_ok {ws : List Word}
    (delivered : cellsFrom x.recvData x.lrs.toNat (deliverCount outCap x) = ws.map .written) :
    advanceNode handshake outCap x =
      .ok { x with
        outFifo := x.outFifo ++ ws
        lrs := if handshake = true ∧ x.rss = 0#16 then 0#16 else x.lrs + BitVec.ofNat 16 (deliverCount outCap x)
        lss := BitVec.ofNat 16 (stageBase x + stagedWords handshake x)
        inFifo := x.inFifo.drop (stagedWords handshake x)
        sendData := x.sendData.writeFrom (stageBase x) (x.inFifo.take (stagedWords handshake x)) } := by
  rw [advanceNode, deliver_ok delivered]
  simp only [rewind_eq, stage_reclaim_eq]
  rfl

theorem advanceNode_error (unwritten : Cell.unwritten ∈ cellsFrom x.recvData x.lrs.toNat (deliverCount outCap x)) :
    advanceNode handshake outCap x = .error .unwritten := by
  rw [advanceNode, deliver_error unwritten]

end

section
variable {s : State} {n : Node}

theorem exec_advance_of_ok {x : NodeState} (active : (s.node n).life = .active)
    (advanced : advanceNode s.cfg.handshake (fifoCap s.cfg n .output) (s.node n) = .ok x) :
    exec (.advance n) s = .next (s.setNode n x).done := by
  rw [exec, execAdvance, if_neg (not_not.2 active), advanced, commit_ok]

theorem exec_advance_of_error {code : FaultCode} (active : (s.node n).life = .active)
    (failed : advanceNode s.cfg.handshake (fifoCap s.cfg n .output) (s.node n) = .error code) :
    exec (.advance n) s = .next (s.raise code) := by
  rw [exec, execAdvance, if_neg (not_not.2 active), failed, commit_error]

theorem exec_advance_of_inactive (inactive : (s.node n).life ≠ .active) :
    exec (.advance n) s = .next (s.raise .notActive) := by
  rw [exec, execAdvance, if_pos inactive, commit_error]

end

/-- Settles O20: the four phases in closed form, once the cells that Deliver reaches are all written; the cells of
`send_data` are then those of a row of words written at the base. -/
theorem advanceMovesWords : Obligations.AdvanceMovesWords := by
  intro s n k base m k_eq base_eq m_eq
  obtain rfl : k = deliverCount (fifoCap s.cfg n .output) (s.node n) := k_eq
  obtain rfl : base = stageBase (s.node n) := base_eq
  obtain rfl : m = stagedWords s.cfg.handshake (s.node n) := m_eq
  refine ⟨decodeOp_packOp_advance n, ?delivers, ?unwritten, exec_advance_of_inactive⟩
  case delivers =>
    intro active ws delivered
    refine ⟨_, exec_advance_of_ok active (advanceNode_ok delivered), onlyNode_setNode_done s n _, rfl, ?_⟩
    rw [node_setNode_done]
    exact ⟨rfl, Memory.read_writeFrom _ _ _⟩
  case unwritten =>
    intro active unwritten
    exact ⟨_, exec_advance_of_error active (advanceNode_error unwritten), State.raise_fault s .unwritten⟩

end Sys2Proof.Machine
end

section
/-! The framer's two operations (`41_framer.md` R182, R190): the words that decode to them, the scan of DECODE as the
reading of the cells before it, and what each operation answers in the cases of its checks. -/

namespace Sys2Proof

/-! ## The operation words of the framer (R104) -/

section
variable (n : Node) (arg : Count) (d : Word)

theorem decodeOp_packOp_encode : decodeOp (packOp 0x02#8 0#7 n arg) d = .ok (.encode n arg) := by simp [decodeOp]

theorem decodeOp_packOp_decode : decodeOp (packOp 0x03#8 0#7 n arg) d = .ok (.decode n arg) := by simp [decodeOp]

end

end Sys2Proof

namespace Sys2Proof.Machine

/-! ## ENCODE (R182) -/

section
variable {s : State} {n : Node} {arg : Count}

theorem exec_encode_of_fits (fits : arg.toNat ≤ s.cfg.frameMax) :
    exec (.encode n arg) s = .next (s.setNode n (encodeNode s.cfg arg.toNat (s.node n))).done := by
  rw [exec, execEncode, if_neg (not_lt.2 fits), commit_ok]

theorem exec_encode_of_too_long (too_long : s.cfg.frameMax < arg.toNat) :
    exec (.encode n arg) s = .next (s.raise .argRange) := by
  rw [exec, execEncode, if_pos too_long, commit_error]

end

/-- What ENCODE does to its node: `encodeLoop_spec` for a whole frame. -/
theorem encodeNode_spec (c : Config) (len : Nat) (x : NodeState) :
    ∃ k ≤ x.inFifo.length, (frameItems c (x.inFifo.take k)).length ≤ len ∧
      (∀ w, x.inFifo[k]? = some w → len < (frameItems c (x.inFifo.take k)).length + (frameItem c w).length) ∧
      encodeNode c len x =
        { x with
          inFifo := x.inFifo.drop k, fxCount := BitVec.ofNat 32 k, txFrame := (encodeNode c len x).txFrame } ∧
      ∀ i, (encodeNode c len x).txFrame.read i =
        if i < len then .written ((frameItems c (x.inFifo.take k))[i]?.getD c.rsvIdle) else x.txFrame.read i := by
  obtain ⟨k, k_le, fits, longest, queue_eq, removed_eq, read_eq⟩ :=
    encodeLoop_spec c len 0 { queue := x.inFifo, frame := x.txFrame, removed := 0 }
  refine ⟨k, k_le, fits, longest, ?_, ?_⟩
  · simp only [encodeNode, queue_eq, removed_eq, Nat.zero_add, zextNat]
  · simpa [encodeNode] using read_eq

/-- Settles O32: ENCODE puts `encodeNode` in place of the node. -/
theorem encodeFillsFrame : Obligations.EncodeFillsFrame := by
  intro s n arg
  refine ⟨decodeOp_packOp_encode n arg, ?_, exec_encode_of_too_long⟩
  intro fits
  obtain ⟨k, k_le, items_fit, longest, node_eq, read_eq⟩ := encodeNode_spec s.cfg arg.toNat (s.node n)
  refine ⟨_, k, exec_encode_of_fits fits, onlyNode_setNode_done s n _, rfl, k_le, items_fit, longest, ?_⟩
  rw [node_setNode_done]
  exact ⟨node_eq, read_eq⟩

/-! ## The head word of the reading of a frame (R190 to R195) -/

section
variable {c : Config} {w : Word} (room : Nat) (rest : List Cell)

theorem decodeCells_idle (kind : classify c w = .idle) :
    decodeCells c room (.written w :: rest) = decodeCells c room rest := by
  rw [decodeCells.eq_def]
  simp only [kind]

theorem decodeCells_underrun (kind : classify c w = .underrun) :
    decodeCells c room (.written w :: rest) =
      (decodeCells c room rest).map fun r => (r.1, raiseFlag r.2 flagRemoteUnderrun) := by
  rw [decodeCells.eq_def]
  simp only [kind]

theorem decodeCells_overrun (kind : classify c w = .overrun) :
    decodeCells c room (.written w :: rest) =
      (decodeCells c room rest).map fun r => (r.1, raiseFlag r.2 flagRemoteOverrun) := by
  rw [decodeCells.eq_def]
  simp only [kind]

theorem decodeCells_literal {v : Word} (kind : classify c w = .literal v) :
    decodeCells c room (.written w :: rest) =
      if room = 0 then .ok ([], flagLocalRxOverflow)
      else (decodeCells c (room - 1) rest).map fun r => (v :: r.1, r.2) := by
  rw [decodeCells.eq_def]
  simp only [kind]

theorem decodeCells_escape_last (kind : classify c w = .escape) :
    decodeCells c room [.written w] = .ok ([], flagTruncatedEscape) := by
  rw [decodeCells.eq_def]
  simp only [kind]

theorem decodeCells_escape_full (kind : classify c w = .escape) (d : Cell) :
    decodeCells c 0 (.written w :: d :: rest) = .ok ([], flagLocalRxOverflow) := by
  rw [decodeCells.eq_def]
  simp only [kind, if_true]

variable {room}

theorem decodeCells_escape_unwritten (kind : classify c w = .escape) (has_room : room ≠ 0) :
    decodeCells c room (.written w :: .unwritten :: rest) = .error .unwritten := by
  rw [decodeCells.eq_def]
  simp only [kind, if_neg has_room]

theorem decodeCells_escape_written (kind : classify c w = .escape) (has_room : room ≠ 0) (v : Word) :
    decodeCells c room (.written w :: .written v :: rest) =
      (decodeCells c (room - 1) rest).map fun r => (v :: r.1, r.2) := by
  rw [decodeCells.eq_def]
  simp only [kind, if_neg has_room]

end

/-! ## What a scan has still to read, and where it ends -/

theorem raiseFlag_comm (f g : Word) : raiseFlag f g = raiseFlag g f := BitVec.or_comm f g

theorem raiseFlag_assoc (f g h : Word) : raiseFlag (raiseFlag f g) h = raiseFlag f (raiseFlag g h) :=
  BitVec.or_assoc f g h

theorem fifoFree_fifoPush (capacity : Nat) (q : List Word) (w : Word) :
    fifoFree capacity (fifoPush q w) = fifoFree capacity q - 1 := by
  simp [fifoFree, fifoPush, Nat.sub_add_eq]

/-- The cells of the frame from the place of the scan on. -/
def scanCells (x : NodeState) (sc : Scan) : List Cell := cellsFrom x.rxFrame sc.pos (sc.len - sc.pos)

/-- The node and the scan at the end of the frame, where the rest of the scan delivers `r.1` and raises `r.2`. -/
def scanEnd (x : NodeState) (sc : Scan) (r : List Word × Word) : NodeState × Scan :=
  ({ x with outFifo := x.outFifo ++ r.1 }, { sc with pos := sc.len, flags := raiseFlag sc.flags r.2 })

/-- The rest of a scan, by the reading of the cells that it has still to read. -/
def scanRest (c : Config) (outCap : Nat) (x : NodeState) (sc : Scan) : Except FaultCode (NodeState × Scan) :=
  (decodeCells c (fifoFree outCap x.outFifo) (scanCells x sc)).map (scanEnd x sc)

section
variable {c : Config} {outCap : Nat} {x : NodeState} {sc : Scan}

theorem scanCells_of_lt (in_frame : sc.pos < sc.len) :
    scanCells x sc = x.rxFrame.read sc.pos :: scanCells x (sc.skip 1) := by
  have length_eq : sc.len - sc.pos = sc.len - (sc.pos + 1) + 1 := by omega
  rw [scanCells, length_eq, cellsFrom_succ]
  rfl

theorem scanCells_of_ended (ended : sc.len ≤ sc.pos) : scanCells x sc = [] := by
  rw [scanCells, Nat.sub_eq_zero_of_le ended, cellsFrom_zero]

theorem scanEnd_nil (flag : Word) : scanEnd x sc ([], flag) = (x, { sc.mark flag with pos := sc.len }) := by
  simp only [scanEnd, List.append_nil, Scan.mark]

theorem scanEnd_skip (k : Nat) : scanEnd x (sc.skip k) = scanEnd x sc := rfl

theorem scanEnd_mark (flag : Word) (r : List Word × Word) :
    scanEnd x (sc.mark flag) r = scanEnd x sc (r.1, raiseFlag r.2 flag) := by
  simp only [scanEnd, Scan.mark, raiseFlag_assoc, raiseFlag_comm flag]

theorem scanEnd_push (v : Word) (r : List Word × Word) :
    scanEnd { x with outFifo := fifoPush x.outFifo v } sc r = scanEnd x sc (v :: r.1, r.2) := by
  simp [scanEnd, fifoPush]

theorem scanRest_of_ended (ended : sc.pos = sc.len) : scanRest c outCap x sc = .ok (x, sc) := by
  rw [scanRest, scanCells_of_ended ended.ge, decodeCells, Except.map, scanEnd_nil, ← ended]
  simp only [Scan.mark, raiseFlag, BitVec.or_zero]

theorem scanRest_overflow : scanRest c outCap x sc.overflow = .ok (x, sc.overflow) := scanRest_of_ended rfl

theorem scanRest_of_unwritten (in_frame : sc.pos < sc.len) (cell : x.rxFrame.read sc.pos = .unwritten) :
    scanRest c outCap x sc = .error .unwritten := by
  rw [scanRest, scanCells_of_lt in_frame, cell, decodeCells]
  rfl

/-- A flag raised before the rest of the scan is read, or added to what it gives. -/
theorem scanRest_mark_skip (flag : Word) :
    scanRest c outCap x ((sc.mark flag).skip 1) =
      ((decodeCells c (fifoFree outCap x.outFifo) (scanCells x (sc.skip 1))).map
        fun r => (r.1, raiseFlag r.2 flag)).map (scanEnd x sc) := by
  rw [scanRest, scanEnd_skip, funext (scanEnd_mark flag)]
  exact (Functor.map_map (f := Except FaultCode) _ _ _).symm

/-- A word pushed before the rest of the scan is read, or put in front of what it gives. -/
theorem scanRest_push_skip (v : Word) (k : Nat) :
    scanRest c outCap { x with outFifo := fifoPush x.outFifo v } (sc.skip k) =
      ((decodeCells c (fifoFree outCap x.outFifo - 1) (scanCells x (sc.skip k))).map
        fun r => (v :: r.1, r.2)).map (scanEnd x sc) := by
  rw [scanRest, scanEnd_skip, funext (scanEnd_push v), fifoFree_fifoPush]
  exact (Functor.map_map (f := Except FaultCode) _ _ _).symm

end

/-! ## The scan of DECODE is the reading of its cells -/

section
variable {c : Config} {outCap : Nat} {x : NodeState} {sc : Scan} {w : Word}

theorem scanRest_of_literal {v : Word} (in_frame : sc.pos < sc.len) (cell : x.rxFrame.read sc.pos = .written w)
    (kind : classify c w = .literal v) :
    scanRest c outCap x sc = (scanLiteral outCap v x sc).bind fun r => scanRest c outCap r.1 r.2 := by
  rw [scanRest, scanCells_of_lt in_frame, cell, decodeCells_literal _ _ kind, scanLiteral]
  by_cases full : fifoFree outCap x.outFifo = 0
  · rw [if_pos full, if_pos full]
    exact (congrArg Except.ok (scanEnd_nil _)).trans scanRest_overflow.symm
  · rw [if_neg full, if_neg full]
    exact (scanRest_push_skip v 1).symm

/-- The three cases of R192, R194 and R195, and the read of the word after the ESCAPE. -/
theorem scanRest_of_escape (in_frame : sc.pos < sc.len) (cell : x.rxFrame.read sc.pos = .written w)
    (kind : classify c w = .escape) :
    scanRest c outCap x sc = (scanEscape outCap x sc).bind fun r => scanRest c outCap r.1 r.2 := by
  rw [scanRest, scanCells_of_lt in_frame, cell, scanEscape]
  by_cases last : sc.pos + 1 = sc.len
  · rw [if_pos last, scanCells_of_ended (sc := sc.skip 1) last.ge, decodeCells_escape_last _ kind]
    have ended : scanEnd x sc ([], flagTruncatedEscape) = (x, (sc.mark flagTruncatedEscape).skip 1) := by
      rw [scanEnd_nil, ← last]
      rfl
    exact (congrArg Except.ok ended).trans (scanRest_of_ended last).symm
  · have second : scanCells x (sc.skip 1) = x.rxFrame.read (sc.pos + 1) :: scanCells x (sc.skip 2) :=
      scanCells_of_lt (sc := sc.skip 1) (lt_of_le_of_ne in_frame last)
    rw [if_neg last, second]
    by_cases full : fifoFree outCap x.outFifo = 0
    · rw [if_pos full, full, decodeCells_escape_full _ kind]
      exact (congrArg Except.ok (scanEnd_nil _)).trans scanRest_overflow.symm
    · rw [if_neg full]
      cases x.rxFrame.read (sc.pos + 1) with
      | unwritten =>
        rw [decodeCells_escape_unwritten _ kind full]
        rfl
      | written v =>
        rw [decodeCells_escape_written _ kind full]
        exact (scanRest_push_skip v 2).symm

/-- One frame word, read where the scan stands: the rest of the scan is that word and then what is left. -/
theorem scanRest_of_written (in_frame : sc.pos < sc.len) (cell : x.rxFrame.read sc.pos = .written w) :
    scanRest c outCap x sc = (scanWord outCap (classify c w) x sc).bind fun r => scanRest c outCap r.1 r.2 := by
  cases kind : classify c w with
  | idle =>
    rw [scanRest, scanCells_of_lt in_frame, cell, decodeCells_idle _ _ kind]
    rfl
  | underrun =>
    rw [scanRest, scanCells_of_lt in_frame, cell, decodeCells_underrun _ _ kind]
    exact (scanRest_mark_skip flagRemoteUnderrun).symm
  | overrun =>
    rw [scanRest, scanCells_of_lt in_frame, cell, decodeCells_overrun _ _ kind]
    exact (scanRest_mark_skip flagRemoteOverrun).symm
  | escape => exact scanRest_of_escape in_frame cell kind
  | literal v => exact scanRest_of_literal in_frame cell kind

theorem scanLoop_of_unwritten (k : Nat) (in_frame : sc.pos < sc.len) (cell : x.rxFrame.read sc.pos = .unwritten) :
    scanLoop c outCap (k + 1) x sc = .error .unwritten := by
  simp only [scanLoop, if_pos in_frame, cell]

theorem scanLoop_of_written (k : Nat) (in_frame : sc.pos < sc.len) (cell : x.rxFrame.read sc.pos = .written w) :
    scanLoop c outCap (k + 1) x sc =
      (scanWord outCap (classify c w) x sc).bind fun r => scanLoop c outCap k r.1 r.2 := by
  simp only [scanLoop, if_pos in_frame, cell]
  cases scanWord outCap (classify c w) x sc <;> rfl

/-- With as many rounds as cells left, the loop of DECODE reads them all. -/
theorem scanLoop_eq_scanRest (k : Nat) (pos_le : sc.pos ≤ sc.len) (enough : sc.len ≤ sc.pos + k) :
    scanLoop c outCap k x sc = scanRest c outCap x sc := by
  induction k generalizing x sc with
  | zero => exact (scanRest_of_ended (le_antisymm pos_le enough)).symm
  | succ k ih =>
    obtain ended | in_frame := pos_le.eq_or_lt
    · rw [scanLoop_ended _ ended.ge, scanRest_of_ended ended]
    · cases cell : x.rxFrame.read sc.pos with
      | unwritten => rw [scanLoop_of_unwritten k in_frame cell, scanRest_of_unwritten in_frame cell]
      | written w =>
        rw [scanLoop_of_written k in_frame cell, scanRest_of_written in_frame cell]
        cases word : scanWord outCap (classify c w) x sc with
        | error code => rfl
        | ok r =>
          obtain ⟨y, sd⟩ := r
          obtain ⟨moved, in_bounds⟩ := scanWord_pos word in_frame
          have same_len : sd.len = sc.len := by rw [(scanWord_frame word).2]
          exact ih in_bounds (show sd.len ≤ sd.pos + k by omega)

end

/-! ## DECODE (R190) -/

section
variable {s : State} {n : Node} {arg : Count}

/-- The whole scan of a DECODE of `len` words, by the reading of its cells. -/
theorem scanLoop_frame (c : Config) (outCap len : Nat) (n : Node) (x : NodeState) :
    scanLoop c outCap len x { node := n, pos := 0, len := len, flags := 0#32 } =
      (decodeCells c (outCap - x.outFifo.length) (cellsFrom x.rxFrame 0 len)).map fun r =>
        ({ x with outFifo := x.outFifo ++ r.1 }, { node := n, pos := len, len := len, flags := r.2 }) := by
  rw [scanLoop_eq_scanRest len (Nat.zero_le _) (Nat.zero_add len).ge]
  unfold scanRest scanEnd
  simp only [scanCells, fifoFree, raiseFlag, BitVec.zero_or, Nat.sub_zero]

theorem exec_decode_of_ok {x : NodeState} {sc : Scan} (fits : arg.toNat ≤ s.cfg.frameMax)
    (scanned : scanLoop s.cfg (fifoCap s.cfg n .output) arg.toNat (s.node n)
      { node := n, pos := 0, len := arg.toNat, flags := 0#32 } = .ok (x, sc)) :
    exec (.decode n arg) s = .next (s.setNode n { x with fxFlags := sc.flags }).done := by
  rw [exec, execDecode, if_neg (not_lt.2 fits), scanned, commit_ok]

theorem exec_decode_of_error {code : FaultCode} (fits : arg.toNat ≤ s.cfg.frameMax)
    (failed : scanLoop s.cfg (fifoCap s.cfg n .output) arg.toNat (s.node n)
      { node := n, pos := 0, len := arg.toNat, flags := 0#32 } = .error code) :
    exec (.decode n arg) s = .next (s.raise code) := by
  rw [exec, execDecode, if_neg (not_lt.2 fits), failed, commit_error]

theorem exec_decode_of_too_long (too_long : s.cfg.frameMax < arg.toNat) :
    exec (.decode n arg) s = .next (s.raise .argRange) := by
  rw [exec, execDecode, if_pos too_long, commit_error]

end

/-- Settles O34: the loop of DECODE is the reading of its cells (`scanLoop_frame`), and raises UNWRITTEN alone. -/
theorem decodeFollowsTheFrame : Obligations.DecodeFollowsTheFrame := by
  intro s n arg
  refine ⟨decodeOp_packOp_decode n arg, ?delivers, ?unwritten, exec_decode_of_too_long⟩
  case delivers =>
    intro fits ws flags reads
    have scanned := scanLoop_frame s.cfg (fifoCap s.cfg n .output) arg.toNat n (s.node n)
    rw [reads] at scanned
    refine ⟨_, exec_decode_of_ok fits scanned, onlyNode_setNode_done s n _, rfl, ?_⟩
    rw [node_setNode_done]
  case unwritten =>
    intro fits code reads
    have failed := scanLoop_frame s.cfg (fifoCap s.cfg n .output) arg.toNat n (s.node n)
    rw [reads] at failed
    obtain rfl := scanLoop_code _ failed
    exact ⟨rfl, _, exec_decode_of_error fits failed, State.raise_fault s .unwritten⟩

end Sys2Proof.Machine
end

section
/-! The FIFO port (`42_fifo.md` R221 to R225): the words that decode to its operations, how long a FIFO can be, and what
each operation answers on a FIFO that is full, empty, or neither. -/

namespace Sys2Proof

/-! ## The operation words of the FIFO port (R104, R106) -/

section
variable (n : Node) (q : FifoSel) (arg : Count) (d : Word)

@[simp] theorem needFifoSel_packOp (op : BitVec 8) (k : FifoSel → Except Illegal Instr) :
    needSel FifoSel.ofSel (packOp op q.sel n arg) k = k q := by
  rw [needSel, selOf_packOp, FifoSel.ofSel_sel]

theorem decodeOp_packOp_fpush : decodeOp (packOp 0x20#8 q.sel n 0#16) d = .ok (.fpush n q d) := by simp [decodeOp]

theorem decodeOp_packOp_fpop : decodeOp (packOp 0x21#8 q.sel n 0#16) d = .ok (.fpop n q) := by simp [decodeOp]

theorem decodeOp_packOp_fsize : decodeOp (packOp 0x22#8 q.sel n 0#16) d = .ok (.fsize n q) := by simp [decodeOp]

theorem decodeOp_packOp_ffree : decodeOp (packOp 0x23#8 q.sel n 0#16) d = .ok (.ffree n q) := by simp [decodeOp]

theorem decodeOp_packOp_fpeek : decodeOp (packOp 0x24#8 q.sel n arg) d = .ok (.fpeek n q arg) := by simp [decodeOp]

end

end Sys2Proof

namespace Sys2Proof.Machine

/-! ## An operation that returns a RESULT -/

theorem onlyNode_setNode_answer (s : State) (n : Node) (x : NodeState) (v : Word) :
    OnlyNode n s ((s.setNode n x).answer v) := by
  constructor <;> simp

theorem node_setNode_answer (s : State) (n : Node) (x : NodeState) (v : Word) :
    ((s.setNode n x).answer v).node n = x := by
  simp

theorem onlyResult_answer (s : State) (v : Word) : OnlyResult s (s.answer v) := by constructor <;> simp

/-! ## The length of a FIFO (R220) -/

theorem fifoFree_eq_zero {capacity : Nat} {q : List Word} : fifoFree capacity q = 0 ↔ capacity ≤ q.length :=
  Nat.sub_eq_zero_iff_le

theorem NodeState.Wf.fifo_le {c : Config} {n : Node} {x : NodeState} (wf : x.Wf c n) (q : FifoSel) :
    (x.fifo q).length ≤ fifoCap c n q := by
  cases q with
  | input => exact wf.in_le
  | output => exact wf.out_le

/-- A configuration of the spec has FIFOs whose every count fits in a word (log 10). -/
theorem fifoCap_lt {c : Config} (wf : c.wf) (n : Node) (q : FifoSel) : fifoCap c n q < 2 ^ 32 := by
  obtain ⟨-, -, in_a, in_b, out_a, out_b, -⟩ := wf
  cases n <;> cases q
  exacts [in_a.2, out_a.2, in_b.2, out_b.2]

theorem toNat_zextNat {k : Nat} (fits : k < 2 ^ 32) : (zextNat k).toNat = k :=
  (BitVec.toNat_ofNat k 32).trans (Nat.mod_eq_of_lt fits)

/-! ## FPUSH (R221) -/

section
variable {s : State} {n : Node} {q : FifoSel}

theorem exec_fpush_of_room (w : Word) (room : ((s.node n).fifo q).length < fifoCap s.cfg n q) :
    exec (.fpush n q w) s =
      .next ((s.setNode n ((s.node n).setFifo q ((s.node n).fifo q ++ [w]))).answer 1#32) := by
  have has_room : ¬ fifoFree (fifoCap s.cfg n q) ((s.node n).fifo q) = 0 := mt fifoFree_eq_zero.1 (not_le.2 room)
  rw [exec, execFpush, if_neg has_room, commit_ok]
  rfl

theorem exec_fpush_of_full (w : Word) (full : fifoCap s.cfg n q ≤ ((s.node n).fifo q).length) :
    exec (.fpush n q w) s = .next (s.answer 0#32) := by
  rw [exec, execFpush, if_pos (fifoFree_eq_zero.2 full), commit_ok]
  rfl

end

/-- Settles O45: FPUSH replaces its FIFO where there is room, and only answers where there is none. -/
theorem fpushAppendsOrReportsFull : Obligations.FpushAppendsOrReportsFull := by
  intro s n q w
  refine ⟨decodeOp_packOp_fpush n q w, ?_, exec_fpush_of_full w⟩
  intro room
  exact ⟨_, exec_fpush_of_room w room, onlyNode_setNode_answer s n _ _, rfl, node_setNode_answer s n _ _⟩

/-! ## FPOP (R222) -/

section
variable {s : State} {n : Node} {q : FifoSel}

theorem exec_fpop_of_cons {w : Word} {rest : List Word} (front : (s.node n).fifo q = w :: rest) :
    exec (.fpop n q) s = .next ((s.setNode n ((s.node n).setFifo q rest)).answer w) := by
  rw [exec, execFpop, front, commit_ok]

theorem exec_fpop_of_empty (empty : (s.node n).fifo q = []) :
    exec (.fpop n q) s = .next (s.raise .fifoRange) := by
  rw [exec, execFpop, empty, commit_error]

end

/-- Settles O46: FPOP replaces its FIFO by what stands behind the front word. -/
theorem fpopTakesTheFront : Obligations.FpopTakesTheFront := by
  intro s n q
  refine ⟨decodeOp_packOp_fpop n q, ?_, exec_fpop_of_empty⟩
  intro w rest front
  exact ⟨_, exec_fpop_of_cons front, onlyNode_setNode_answer s n _ w, rfl, node_setNode_answer s n _ w⟩

/-! ## FSIZE and FFREE (R223, R224) -/

theorem exec_fsize (s : State) (n : Node) (q : FifoSel) :
    exec (.fsize n q) s = .next (s.answer (zextNat ((s.node n).fifo q).length)) := rfl

theorem exec_ffree (s : State) (n : Node) (q : FifoSel) :
    exec (.ffree n q) s = .next (s.answer (zextNat (fifoCap s.cfg n q - ((s.node n).fifo q).length))) := rfl

/-- Settles O47: both counts are at most the capacity, so RESULT holds them exactly. -/
theorem fsizeAndFfreeCount : Obligations.FsizeAndFfreeCount := by
  intro s n q wf
  have cap_fits := fifoCap_lt wf.cfg_wf n q
  have size_fits := ((wf.node_wf n).fifo_le q).trans_lt cap_fits
  have free_fits := (Nat.sub_le _ ((s.node n).fifo q).length).trans_lt cap_fits
  exact ⟨decodeOp_packOp_fsize n q, decodeOp_packOp_ffree n q,
    ⟨_, _, exec_fsize s n q, onlyResult_answer s _, rfl, toNat_zextNat size_fits⟩,
    _, _, exec_ffree s n q, onlyResult_answer s _, rfl, toNat_zextNat free_fits⟩

/-! ## FPEEK (R225) -/

section
variable {s : State} {n : Node} {q : FifoSel} {arg : Count}

theorem exec_fpeek_of_lt (in_range : arg.toNat < ((s.node n).fifo q).length) :
    exec (.fpeek n q arg) s = .next (s.answer ((s.node n).fifo q)[arg.toNat]) := by
  rw [exec, execFpeek, List.getElem?_eq_getElem in_range, commit_ok]

theorem exec_fpeek_of_ge (out_of_range : ((s.node n).fifo q).length ≤ arg.toNat) :
    exec (.fpeek n q arg) s = .next (s.raise .fifoRange) := by
  rw [exec, execFpeek, List.getElem?_eq_none out_of_range, commit_error]

end

/-- Settles O48: FPEEK answers with the word at ARG, or raises FIFO_RANGE where there is none. -/
theorem fpeekReadsWithoutRemoving : Obligations.FpeekReadsWithoutRemoving :=
  fun _ n q arg => ⟨decodeOp_packOp_fpeek n q arg, exec_fpeek_of_lt, exec_fpeek_of_ge⟩

end Sys2Proof.Machine
end

section
/-! The transport and the test writes (`43_transport.md` R241 to R248): the words that decode to their operations, XCHG's
one word among them, and what each operation answers in the cases of its checks. -/

namespace Sys2Proof

/-! ## The operation words of the transport and the test writes (R104) -/

section
variable (n : Node) (arg : Count) (d : Word)

theorem decodeOp_packOp_xchg : decodeOp (packOp 0x10#8 0#7 .a 0#16) d = .ok .xchg := by simp [decodeOp, needNodeZero]

theorem decodeOp_packOp_frame : decodeOp (packOp 0x11#8 0#7 n arg) d = .ok (.frame n arg) := by simp [decodeOp]

theorem decodeOp_packOp_setRecv : decodeOp (packOp 0x12#8 0#7 n arg) d = .ok (.setRecv n arg d) := by simp [decodeOp]

theorem decodeOp_packOp_setRss : decodeOp (packOp 0x13#8 0#7 n arg) d = .ok (.setRss n arg) := by simp [decodeOp]

theorem decodeOp_packOp_setRrs : decodeOp (packOp 0x14#8 0#7 n arg) d = .ok (.setRrs n arg) := by simp [decodeOp]

theorem decodeOp_packOp_setRxf : decodeOp (packOp 0x15#8 0#7 n arg) d = .ok (.setRxf n arg d) := by simp [decodeOp]

end

/-! ## What each check of the decoder lets through (R105) -/

section
variable {w : Word} {r : Except Illegal Instr} {i : Instr}

@[simp] theorem needSelZero_eq_ok : needSelZero w r = .ok i ↔ selOf w = 0#7 ∧ r = .ok i := by
  unfold needSelZero
  split <;> simp [*]

@[simp] theorem needArgZero_eq_ok : needArgZero w r = .ok i ↔ argOf w = 0#16 ∧ r = .ok i := by
  unfold needArgZero
  split <;> simp [*]

@[simp] theorem needNodeZero_eq_ok : needNodeZero w r = .ok i ↔ nodeOf w = .a ∧ r = .ok i := by
  unfold needNodeZero
  split <;> simp [*]

@[simp] theorem needSel_eq_ok {α : Type} {ofSel : BitVec 7 → Option α} {k : α → Except Illegal Instr} :
    needSel ofSel w k = .ok i ↔ ∃ x, ofSel (selOf w) = some x ∧ k x = .ok i := by
  unfold needSel
  cases ofSel (selOf w) <;> simp

end

/-! ## The word of XCHG (R101, R241) -/

theorem Node.bit_ofBit (x : BitVec 1) : (Node.ofBit x).bit = x := by revert x; decide

/-- The four fields of R101 are all of an operation word. -/
theorem packOp_fields (w : Word) : packOp (opOf w) (selOf w) (nodeOf w) (argOf w) = w := by
  rw [packOp, nodeOf, Node.bit_ofBit, argOf, selOf, opOf,
    BitVec.extractLsb'_append_extractLsb'_eq_extractLsb' (start₂ := 16) (start₁ := 15) rfl,
    BitVec.extractLsb'_append_extractLsb'_eq_extractLsb' (start₂ := 15) (start₁ := 8) rfl,
    BitVec.extractLsb'_append_extractLsb'_eq_extractLsb' (start₂ := 8) (start₁ := 0) rfl]
  exact BitVec.extractLsb'_eq_self

/-- Every row of R104 but XCHG's answers another operation, and XCHG's leaves no field open. -/
theorem fields_of_decodeOp_xchg {w d : Word} (decoded : decodeOp w d = .ok .xchg) :
    opOf w = 0x10#8 ∧ selOf w = 0#7 ∧ nodeOf w = .a ∧ argOf w = 0#16 := by
  unfold decodeOp at decoded
  split at decoded
  case h_6 op =>
    simp only [needSelZero_eq_ok, needArgZero_eq_ok, needNodeZero_eq_ok, and_true] at decoded
    obtain ⟨sel_zero, arg_zero, node_a⟩ := decoded
    exact ⟨BitVec.eq_of_toNat_eq op, sel_zero, node_a, arg_zero⟩
  all_goals simp at decoded

theorem decodeOp_xchg_iff (w d : Word) : decodeOp w d = .ok .xchg ↔ w = 0x00000010#32 := by
  constructor
  · intro decoded
    obtain ⟨op, sel_zero, node_a, arg_zero⟩ := fields_of_decodeOp_xchg decoded
    rw [← packOp_fields w, op, sel_zero, node_a, arg_zero]
    rfl
  · rintro rfl
    exact decodeOp_packOp_xchg d

end Sys2Proof

namespace Sys2Proof.Machine

/-! ## XCHG (R241) -/

/-- The state that XCHG leaves where its checks pass. -/
def State.exchanged (s : State) : State :=
  { s with nodeA := receiveFrom s.nodeB s.nodeA, nodeB := receiveFrom s.nodeA s.nodeB, result := none }

theorem State.exchanged_node_peer (s : State) (n : Node) :
    s.exchanged.node n.peer = receiveFrom (s.node n) (s.node n.peer) := by
  cases n <;> rfl

/-- An operation always answers a next state: a fault is recorded in it. -/
theorem commit_answers (s : State) (r : Except FaultCode State) : ∃ t, commit s r = .next t := by
  cases r with
  | ok t => exact ⟨t, rfl⟩
  | error code => exact ⟨s.raise code, rfl⟩

/-- XCHG answers by one of the three cases of `execXchg_cases`. -/
theorem exec_xchg_cases (s : State) :
    ((∃ m, (s.node m).life ≠ .active) ∧ exec .xchg s = .next (s.raise .notActive)) ∨
    ((∀ m, (s.node m).life = .active) ∧ (∃ m, (s.node m.peer).cap < (s.node m).lss) ∧
      exec .xchg s = .next (s.raise .xchgCapacity)) ∨
    ((∀ m, (s.node m).life = .active) ∧ (∀ m, (s.node m).lss ≤ (s.node m.peer).cap) ∧
      exec .xchg s = .next s.exchanged) := by
  obtain ⟨t, answered⟩ : ∃ t, exec .xchg s = .next t := commit_answers s _
  rw [answered]
  obtain ⟨inactive, rfl⟩ | ⟨active, too_long, rfl⟩ | ⟨active, fits, rfl⟩ := execXchg_cases answered
  · exact .inl ⟨inactive, rfl⟩
  · exact .inr (.inl ⟨active, too_long, rfl⟩)
  · exact .inr (.inr ⟨active, fits, rfl⟩)

section
variable {s : State}

theorem exec_xchg_of_fits (active : ∀ n, (s.node n).life = .active)
    (fits : ∀ n, (s.node n).lss ≤ (s.node n.peer).cap) : exec .xchg s = .next s.exchanged := by
  obtain ⟨⟨m, inactive⟩, -⟩ | ⟨-, ⟨m, too_long⟩, -⟩ | ⟨-, -, answered⟩ := exec_xchg_cases s
  · exact absurd (active m) inactive
  · exact absurd (fits m) (BitVec.not_le.2 too_long)
  · exact answered

theorem exec_xchg_of_inactive {n : Node} (inactive : (s.node n).life ≠ .active) :
    exec .xchg s = .next (s.raise .notActive) := by
  obtain ⟨-, answered⟩ | ⟨active, -⟩ | ⟨active, -⟩ := exec_xchg_cases s
  · exact answered
  · exact absurd (active n) inactive
  · exact absurd (active n) inactive

theorem exec_xchg_of_too_long {n : Node} (active : ∀ n, (s.node n).life = .active)
    (too_long : (s.node n.peer).cap < (s.node n).lss) : exec .xchg s = .next (s.raise .xchgCapacity) := by
  obtain ⟨⟨m, inactive⟩, -⟩ | ⟨-, -, answered⟩ | ⟨-, fits, -⟩ := exec_xchg_cases s
  · exact absurd (active m) inactive
  · exact answered
  · exact absurd (fits n) (BitVec.not_le.2 too_long)

end

/-- Settles O49: where the checks pass, each peer becomes `receiveFrom` of the state before, whose cells are those of
`copyCells`; the canonical form of the receive array makes that copy exact. -/
theorem xchgCopiesBothDirections : Obligations.XchgCopiesBothDirections := by
  refine ⟨decodeOp_xchg_iff, fun s wf => ?_⟩
  refine ⟨?_, fun _ => exec_xchg_of_inactive, fun active _ => exec_xchg_of_too_long active⟩
  intro active fits
  refine ⟨_, exec_xchg_of_fits active fits, rfl, rfl, rfl, rfl, rfl, rfl, fun n => ?_⟩
  rw [State.exchanged_node_peer]
  exact ⟨rfl, copyCells_read _ _ (wf.node_wf n.peer).recv_wf⟩

/-! ## FRAME (R244) -/

section
variable {s : State} {n : Node} {arg : Count}

theorem exec_frame_of_ok {m : Memory} (fits : arg.toNat ≤ s.cfg.frameMax)
    (copied : copyWritten (s.node n).txFrame arg.toNat (s.node n.peer).rxFrame = .ok m) :
    exec (.frame n arg) s = .next (s.setNode n.peer { s.node n.peer with rxFrame := m }).done := by
  rw [exec, execFrame, if_neg (not_lt.2 fits), copied, commit_ok]

theorem exec_frame_of_error {code : FaultCode} (fits : arg.toNat ≤ s.cfg.frameMax)
    (failed : copyWritten (s.node n).txFrame arg.toNat (s.node n.peer).rxFrame = .error code) :
    exec (.frame n arg) s = .next (s.raise code) := by
  rw [exec, execFrame, if_neg (not_lt.2 fits), failed, commit_error]

theorem exec_frame_of_too_long (too_long : s.cfg.frameMax < arg.toNat) :
    exec (.frame n arg) s = .next (s.raise .argRange) := by
  rw [exec, execFrame, if_pos too_long, commit_error]

end

/-- Settles O51: FRAME replaces the peer's receive frame by what `copyWritten` makes of it, and raises what it raises. -/
theorem frameCopiesToThePeer : Obligations.FrameCopiesToThePeer := by
  intro s n arg
  refine ⟨decodeOp_packOp_frame n arg, ?copies, ?unwritten, exec_frame_of_too_long⟩
  case copies =>
    intro fits written
    obtain ⟨m, copied, read_eq⟩ := copyWritten_ok _ _ (dst := (s.node n.peer).rxFrame) written
    refine ⟨_, exec_frame_of_ok fits copied, onlyNode_setNode_done s n.peer _, rfl, ?_⟩
    rw [node_setNode_done]
    exact ⟨rfl, read_eq⟩
  case unwritten =>
    intro fits unwritten
    exact ⟨_, exec_frame_of_error fits (copyWritten_error _ _ _ unwritten), State.raise_fault s .unwritten⟩

/-! ## SET_RECV (R245) -/

section
variable {s : State} {n : Node} {arg : Count} (w : Word)

theorem exec_setRecv_of_lt (active : (s.node n).life = .active) (in_range : arg < (s.node n).cap) :
    exec (.setRecv n arg w) s =
      .next (s.setNode n { s.node n with recvData := (s.node n).recvData.write arg.toNat w }).done := by
  rw [exec, execSetRecv, if_neg (not_not.2 active), if_neg (BitVec.not_le.2 in_range), commit_ok]

theorem exec_setRecv_of_inactive (inactive : (s.node n).life ≠ .active) :
    exec (.setRecv n arg w) s = .next (s.raise .notActive) := by
  rw [exec, execSetRecv, if_pos inactive, commit_error]

theorem exec_setRecv_of_ge (active : (s.node n).life = .active) (out_of_range : (s.node n).cap ≤ arg) :
    exec (.setRecv n arg w) s = .next (s.raise .argRange) := by
  rw [exec, execSetRecv, if_neg (not_not.2 active), if_pos out_of_range, commit_error]

end

/-- Settles O52: SET_RECV replaces one cell of the receive array (`Memory.read_write`). -/
theorem setRecvWritesOneCell : Obligations.SetRecvWritesOneCell := by
  intro s n arg w
  refine ⟨decodeOp_packOp_setRecv n arg w, ?_, exec_setRecv_of_inactive w, exec_setRecv_of_ge w⟩
  intro active in_range
  refine ⟨_, exec_setRecv_of_lt w active in_range, onlyNode_setNode_done s n _, rfl, ?_⟩
  rw [node_setNode_done]
  exact ⟨rfl, fun i => Memory.read_write _ _ i w⟩

/-! ## SET_RSS (R246) -/

section
variable {s : State} {n : Node} {arg : Count}

theorem exec_setRss_of_le (active : (s.node n).life = .active) (in_range : arg ≤ (s.node n).cap) :
    exec (.setRss n arg) s = .next (s.setNode n { s.node n with rss := arg }).done := by
  rw [exec, execSetRss, if_neg (not_not.2 active), if_neg (BitVec.not_lt.2 in_range), commit_ok]

theorem exec_setRss_of_inactive (inactive : (s.node n).life ≠ .active) :
    exec (.setRss n arg) s = .next (s.raise .notActive) := by
  rw [exec, execSetRss, if_pos inactive, commit_error]

theorem exec_setRss_of_gt (active : (s.node n).life = .active) (out_of_range : (s.node n).cap < arg) :
    exec (.setRss n arg) s = .next (s.raise .argRange) := by
  rw [exec, execSetRss, if_neg (not_not.2 active), if_pos out_of_range, commit_error]

end

/-- Settles O53: SET_RSS replaces `rss` where its value is at most the capacity. -/
theorem setRssWritesRss : Obligations.SetRssWritesRss := by
  intro s n arg
  refine ⟨decodeOp_packOp_setRss n arg, ?_, exec_setRss_of_inactive, exec_setRss_of_gt⟩
  intro active in_range
  exact ⟨_, exec_setRss_of_le active in_range, onlyNode_setNode_done s n _, rfl, node_setNode_done s n _⟩

/-! ## SET_RRS (R247) -/

section
variable {s : State} {n : Node} (arg : Count)

theorem exec_setRrs_of_active (active : (s.node n).life = .active) :
    exec (.setRrs n arg) s = .next (s.setNode n { s.node n with rrs := arg }).done := by
  rw [exec, execSetRrs, if_neg (not_not.2 active), commit_ok]

theorem exec_setRrs_of_inactive (inactive : (s.node n).life ≠ .active) :
    exec (.setRrs n arg) s = .next (s.raise .notActive) := by
  rw [exec, execSetRrs, if_pos inactive, commit_error]

end

/-- Settles O54: SET_RRS replaces `rrs`, whatever its value. -/
theorem setRrsWritesRrs : Obligations.SetRrsWritesRrs := by
  intro s n arg
  refine ⟨decodeOp_packOp_setRrs n arg, ?_, exec_setRrs_of_inactive arg⟩
  intro active
  exact ⟨_, exec_setRrs_of_active arg active, onlyNode_setNode_done s n _, rfl, node_setNode_done s n _⟩

/-! ## SET_RXF (R248) -/

section
variable {s : State} {n : Node} {arg : Count} (w : Word)

theorem exec_setRxf_of_lt (in_range : arg.toNat < s.cfg.frameMax) :
    exec (.setRxf n arg w) s =
      .next (s.setNode n { s.node n with rxFrame := (s.node n).rxFrame.write arg.toNat w }).done := by
  rw [exec, execSetRxf, if_neg (not_le.2 in_range), commit_ok]

theorem exec_setRxf_of_ge (out_of_range : s.cfg.frameMax ≤ arg.toNat) :
    exec (.setRxf n arg w) s = .next (s.raise .argRange) := by
  rw [exec, execSetRxf, if_pos out_of_range, commit_error]

end

/-- Settles O55: SET_RXF replaces one cell of the receive frame (`Memory.read_write`), with no check of the lifecycle. -/
theorem setRxfWritesOneCell : Obligations.SetRxfWritesOneCell := by
  intro s n arg w
  refine ⟨decodeOp_packOp_setRxf n arg w, ?_, exec_setRxf_of_ge w⟩
  intro in_range
  refine ⟨_, exec_setRxf_of_lt w in_range, onlyNode_setNode_done s n _, rfl, ?_⟩
  rw [node_setNode_done]
  exact ⟨rfl, fun i => Memory.read_write _ _ i w⟩

end Sys2Proof.Machine
end

section
/-! Observation (`44_observe.md` R260, R261): the words that decode to RDREG and RDARR, and what each answers in the cases
of its checks. -/

namespace Sys2Proof

/-! ## The operation words of observation (R104, R107, R108) -/

section
variable (n : Node) (r : RegSel) (x : ArrSel) (arg : Count) (d : Word)

@[simp] theorem needRegSel_packOp (op : BitVec 8) (k : RegSel → Except Illegal Instr) :
    needSel RegSel.ofSel (packOp op r.sel n arg) k = k r := by
  rw [needSel, selOf_packOp, RegSel.ofSel_sel]

@[simp] theorem needArrSel_packOp (op : BitVec 8) (k : ArrSel → Except Illegal Instr) :
    needSel ArrSel.ofSel (packOp op x.sel n arg) k = k x := by
  rw [needSel, selOf_packOp, ArrSel.ofSel_sel]

theorem decodeOp_packOp_rdreg : decodeOp (packOp 0x30#8 r.sel n 0#16) d = .ok (.rdreg n r) := by simp [decodeOp]

theorem decodeOp_packOp_rdarr : decodeOp (packOp 0x31#8 x.sel n arg) d = .ok (.rdarr n x arg) := by simp [decodeOp]

end

end Sys2Proof

namespace Sys2Proof.Machine

/-! ## RDREG (R260) -/

theorem regNeedsActive_iff (r : RegSel) :
    regNeedsActive r = true ↔ r ∈ [RegSel.capacity, .lss, .lrs, .rss, .rrs] := by
  cases r <;> decide

section
variable {s : State} {n : Node} {r : RegSel}

theorem exec_rdreg_of_readable (readable : regNeedsActive r = true → (s.node n).life = .active) :
    exec (.rdreg n r) s = .next (s.answer (readReg (s.node n) r)) := by
  rw [exec, execRdreg, if_neg fun ⟨needs, inactive⟩ => inactive (readable needs), commit_ok]

theorem exec_rdreg_of_inactive (needs : regNeedsActive r = true) (inactive : (s.node n).life ≠ .active) :
    exec (.rdreg n r) s = .next (s.raise .notActive) := by
  rw [exec, execRdreg, if_pos ⟨needs, inactive⟩, commit_error]

end

/-- Settles O56: a readable register answers `readReg`, and the registers that need an ACTIVE node are the five of
`regNeedsActive_iff`. -/
theorem rdregReadsTheRegister : Obligations.RdregReadsTheRegister := by
  intro s n
  refine ⟨decodeOp_packOp_rdreg n, ?lifecycle, exec_rdreg_of_readable nofun, exec_rdreg_of_readable nofun, ?active,
    ?inactive⟩
  case lifecycle =>
    intro v number
    have code : v = lifeCode (s.node n).life := by
      rw [number]
      cases (s.node n).life <;> rfl
    rw [code]
    exact exec_rdreg_of_readable nofun
  case active =>
    intro active
    have readable (r : RegSel) : exec (.rdreg n r) s = .next (s.answer (readReg (s.node n) r)) :=
      exec_rdreg_of_readable fun _ => active
    exact ⟨readable .capacity, readable .lss, readable .lrs, readable .rss, readable .rrs⟩
  case inactive =>
    intro inactive r listed
    exact exec_rdreg_of_inactive ((regNeedsActive_iff r).2 listed) inactive

/-! ## RDARR (R261) -/

section
variable {s : State} {n : Node} {x : ArrSel} {arg : Count}

theorem exec_rdarr_of_inactive (needs : arrNeedsActive x = true) (inactive : (s.node n).life ≠ .active) :
    exec (.rdarr n x arg) s = .next (s.raise .notActive) := by
  rw [exec, execRdarr, if_pos ⟨needs, inactive⟩, commit_error]

variable (readable : arrNeedsActive x = true → (s.node n).life = .active)
include readable

theorem exec_rdarr_of_ge (out_of_range : arrayLength s.cfg (s.node n) x ≤ arg.toNat) :
    exec (.rdarr n x arg) s = .next (s.raise .argRange) := by
  rw [exec, execRdarr, if_neg fun ⟨needs, inactive⟩ => inactive (readable needs), if_pos out_of_range, commit_error]

theorem exec_rdarr_of_written {w : Word} (in_range : arg.toNat < arrayLength s.cfg (s.node n) x)
    (cell : ((s.node n).array x).read arg.toNat = .written w) :
    exec (.rdarr n x arg) s = .next (s.answer w) := by
  rw [exec, execRdarr, if_neg fun ⟨needs, inactive⟩ => inactive (readable needs), if_neg (not_le.2 in_range), cell,
    commit_ok]

theorem exec_rdarr_of_unwritten (in_range : arg.toNat < arrayLength s.cfg (s.node n) x)
    (cell : ((s.node n).array x).read arg.toNat = .unwritten) :
    exec (.rdarr n x arg) s = .next (s.raise .unwritten) := by
  rw [exec, execRdarr, if_neg fun ⟨needs, inactive⟩ => inactive (readable needs), if_neg (not_le.2 in_range), cell,
    commit_error]

end

/-- Settles O57: the length, the cells and the need of an ACTIVE node that the statement lists array by array are
`arrayLength`, `NodeState.array` and `arrNeedsActive`. -/
theorem rdarrReadsTheCell : Obligations.RdarrReadsTheCell := by
  intro s n x arg len arr needs listed
  have named : (len, arr, needs) = (arrayLength s.cfg (s.node n) x, (s.node n).array x, arrNeedsActive x) := by
    rw [listed]
    cases x <;> rfl
  obtain ⟨rfl, rfl, rfl⟩ : len = _ ∧ arr = _ ∧ needs = _ := by simpa only [Prod.mk.injEq] using named
  exact ⟨decodeOp_packOp_rdarr n x arg, fun readable in_range _ => exec_rdarr_of_written readable in_range,
    exec_rdarr_of_inactive, exec_rdarr_of_ge, exec_rdarr_of_unwritten⟩

end Sys2Proof.Machine
end

section
/-! The idle block (`60_exceptions.md` R290): with nothing to fetch, a step answers the state it began with. -/

namespace Sys2Proof.Machine

variable {s : State}

theorem fetch_of_idle (no_scan : s.scan = none) (none_issued : s.issued = []) : fetch s = .nothing := by
  simp only [fetch, no_scan, none_issued]

theorem step_of_fetch_nothing (no_fault : s.fault = none) (nothing : fetch s = .nothing) : step s = .next s := by
  simp only [step, no_fault, nothing]

/-- Settles O2: an idle block fetches nothing, and such a step keeps every field of the state. -/
theorem idleStepChangesNothing : Obligations.IdleStepChangesNothing :=
  fun _ no_fault no_scan none_issued => step_of_fetch_nothing no_fault (fetch_of_idle no_scan none_issued)

end Sys2Proof.Machine
end

section
/-! All that an instruction can answer, in one form: a fault of its row of the table, recorded and nothing else, or an
effect that leaves the parameters and the fault record, and changes each node in one of the ways of `NodeChange`. The
statements about every instruction (R32, R46, R47, R70, R71, R272 and the table after R279) are read off this form. -/

namespace Sys2Proof.Machine

/-! ## The ways a node can change -/

/-- `NodeChange s m i y`: instruction `i`, completed in state `s`, makes `y` of node `m`. -/
inductive NodeChange (s : State) (m : Node) : Instr → NodeState → Prop
  | advance {y : NodeState}
      (advanced : advanceNode s.cfg.handshake (fifoCap s.cfg m .output) (s.node m) = .ok y) :
      NodeChange s m (.advance m) y
  | encode {arg : Count} (fits : arg.toNat ≤ s.cfg.frameMax) :
      NodeChange s m (.encode m arg) (encodeNode s.cfg arg.toNat (s.node m))
  | decode {arg : Count} {y : NodeState} {sd : Scan}
      (scanned : scanLoop s.cfg (fifoCap s.cfg m .output) arg.toNat (s.node m)
        { node := m, pos := 0, len := arg.toNat, flags := 0#32 } = .ok (y, sd)) :
      NodeChange s m (.decode m arg) { y with fxFlags := sd.flags }
  | init {arg : Count} (nonzero : arg ≠ 0#16) (le_max : arg.toNat ≤ s.cfg.capMax) :
      NodeChange s m (.init m arg) (initNode (s.node m) arg)
  | destroy : NodeChange s m (.destroy m) (destroyNode (s.node m))
  | receive (active : (s.node m).life = .active) (fits : (s.node m.peer).lss ≤ (s.node m).cap) :
      NodeChange s m .xchg (receiveFrom (s.node m.peer) (s.node m))
  | frame {arg : Count} {cells : Memory} (fits : arg.toNat ≤ s.cfg.frameMax)
      (copied : copyWritten (s.node m.peer).txFrame arg.toNat (s.node m).rxFrame = .ok cells) :
      NodeChange s m (.frame m.peer arg) { s.node m with rxFrame := cells }
  | setRecv {arg : Count} {w : Word} (in_range : arg < (s.node m).cap) :
      NodeChange s m (.setRecv m arg w) { s.node m with recvData := (s.node m).recvData.write arg.toNat w }
  | setRss {arg : Count} (in_range : arg ≤ (s.node m).cap) : NodeChange s m (.setRss m arg) { s.node m with rss := arg }
  | setRrs {arg : Count} (active : (s.node m).life = .active) :
      NodeChange s m (.setRrs m arg) { s.node m with rrs := arg }
  | setRxf {arg : Count} {w : Word} (in_range : arg.toNat < s.cfg.frameMax) :
      NodeChange s m (.setRxf m arg w) { s.node m with rxFrame := (s.node m).rxFrame.write arg.toNat w }
  | push {q : FifoSel} {w : Word} (room : ((s.node m).fifo q).length < fifoCap s.cfg m q) :
      NodeChange s m (.fpush m q w) ((s.node m).setFifo q ((s.node m).fifo q ++ [w]))
  | pop {q : FifoSel} {w : Word} {rest : List Word} (front : (s.node m).fifo q = w :: rest) :
      NodeChange s m (.fpop m q) ((s.node m).setFifo q rest)
  | word {k : FrameWord} {sc sd : Scan} {y : NodeState}
      (scanned : scanWord (fifoCap s.cfg m .output) k (s.node m) sc = .ok (y, sd)) :
      NodeChange s m k.toInstr y
  | lastWord {k : FrameWord} {sc sd : Scan} {y : NodeState} (scanning : s.scan = some sc)
      (scanned : scanWord (fifoCap s.cfg m .output) k (s.node m) sc = .ok (y, sd)) :
      NodeChange s m k.toInstr { y with fxFlags := sd.flags }

/-- The scan goes on from `sc` to `sd` by one frame word. -/
def ScanGoesOn (sc sd : Scan) : Prop :=
  sd.pos < sd.len ∧ ∃ outCap k x y, scanWord outCap k x sc = .ok (y, sd)

/-- What instruction `i` does in state `s` where it raises no fault. -/
structure Effect (i : Instr) (s t : State) : Prop where
  cfg : t.cfg = s.cfg
  fault : t.fault = s.fault
  node : ∀ m, t.node m = s.node m ∨ NodeChange s m i (t.node m)
  scan : t.scan = s.scan ∨ t.scan = none ∨ ∃ sc sd, s.scan = some sc ∧ ScanGoesOn sc sd ∧ t.scan = some sd

section
variable {s : State} {i : Instr} {n : Node} {y : NodeState}

theorem node_setNode_cases (change : NodeChange s n i y) (m : Node) :
    (s.setNode n y).node m = s.node m ∨ NodeChange s m i ((s.setNode n y).node m) := by
  by_cases home : m = n
  · subst home
    exact .inr ((State.node_setNode s m y).symm ▸ change)
  · exact .inl (State.node_setNode_of_ne s y home)

theorem effect_answer (s : State) (i : Instr) (v : Word) : Effect i s (s.answer v) where
  cfg := rfl
  fault := rfl
  node m := .inl (State.node_answer s v m)
  scan := .inl rfl

theorem effect_done (change : NodeChange s n i y) : Effect i s (s.setNode n y).done where
  cfg := State.setNode_cfg s n y
  fault := State.setNode_fault s n y
  node m := (State.node_done (s.setNode n y) m).symm ▸ node_setNode_cases change m
  scan := .inl (State.setNode_scan s n y)

theorem effect_setNode_answer (v : Word) (change : NodeChange s n i y) : Effect i s ((s.setNode n y).answer v) where
  cfg := State.setNode_cfg s n y
  fault := State.setNode_fault s n y
  node m := (State.node_answer (s.setNode n y) v m).symm ▸ node_setNode_cases change m
  scan := .inl (State.setNode_scan s n y)

theorem effect_exchanged (active : ∀ m, (s.node m).life = .active)
    (fits : ∀ m, (s.node m).lss ≤ (s.node m.peer).cap) : Effect .xchg s s.exchanged where
  cfg := rfl
  fault := rfl
  node m := by
    have received := State.exchanged_node_peer s m.peer
    have fits_m := fits m.peer
    rw [Node.peer_peer] at received fits_m
    exact .inr (received ▸ .receive (active m) fits_m)
  scan := .inl rfl

theorem State.afterWord_of_lt {sd : Scan} (more : sd.pos < sd.len) :
    s.afterWord n y sd = { s.setNode n y with scan := some sd } := if_pos more

theorem State.afterWord_of_ge {sd : Scan} (ended : sd.len ≤ sd.pos) :
    s.afterWord n y sd = { s.setNode n { y with fxFlags := sd.flags } with scan := none, result := none } :=
  if_neg (not_lt.2 ended)

theorem effect_afterWord {k : FrameWord} {sc sd : Scan} (scanning : s.scan = some sc)
    (scanned : scanWord (fifoCap s.cfg sc.node .output) k (s.node sc.node) sc = .ok (y, sd)) :
    Effect k.toInstr s (s.afterWord sc.node y sd) where
  cfg := (s.afterWord_frame sc.node y sd).1
  fault := (s.afterWord_frame sc.node y sd).2.1
  node m := by
    obtain more | ended := lt_or_ge sd.pos sd.len
    · rw [State.afterWord_of_lt more, State.node_mk]
      exact node_setNode_cases (.word scanned) m
    · rw [State.afterWord_of_ge ended, State.node_mk]
      exact node_setNode_cases (.lastWord scanning scanned) m
  scan := by
    obtain more | ended := lt_or_ge sd.pos sd.len
    · exact .inr (.inr ⟨sc, sd, scanning, ⟨more, _, k, _, y, scanned⟩, by rw [State.afterWord_of_lt more]⟩)
    · exact .inr (.inl (by rw [State.afterWord_of_ge ended]))

end

/-! ## The answer of every instruction -/

/-- `t` is `s` with a fault of `i` recorded, or what `i` computes from `s`. -/
def Answers (i : Instr) (s t : State) : Prop := (∃ code ∈ i.faultCodes, t = s.raise code) ∨ Effect i s t

section
variable {s t : State} {n : Node} {arg : Count}

theorem frameWord_answers {k : FrameWord} (h : exec k.toInstr s = .next t) : Answers k.toInstr s t := by
  rw [exec_frameWord] at h
  obtain ⟨sc, scanning, ⟨code, failed, rfl⟩ | ⟨y, sd, scanned, rfl⟩⟩ := runFrameWord_cases h
  · obtain ⟨rfl, rfl⟩ := scanWord_code failed
    exact .inl ⟨_, List.mem_singleton_self _, rfl⟩
  · exact .inr (effect_afterWord scanning scanned)

theorem rdreg_answers {r : RegSel} (h : execRdreg n r s = .next t) : Answers (.rdreg n r) s t := by
  obtain ⟨needs, -, rfl⟩ | ⟨-, rfl⟩ := execRdreg_cases h
  · exact .inl ⟨.notActive, by simp [Instr.faultCodes, needs], rfl⟩
  · exact .inr (effect_answer s _ _)

theorem rdarr_answers {x : ArrSel} (h : execRdarr n x arg s = .next t) : Answers (.rdarr n x arg) s t := by
  obtain ⟨needs, -, rfl⟩ | ⟨-, rfl⟩ | ⟨-, -, rfl⟩ | ⟨v, -, -, rfl⟩ := execRdarr_cases h
  · exact .inl ⟨.notActive, by simp [Instr.faultCodes, needs], rfl⟩
  · exact .inl ⟨.argRange, by cases x <;> simp [Instr.faultCodes, arrNeedsActive], rfl⟩
  · exact .inl ⟨.unwritten, by cases x <;> simp [Instr.faultCodes, arrNeedsActive], rfl⟩
  · exact .inr (effect_answer s _ v)

/-- All that an instruction can answer with a next state. -/
theorem exec_answers {i : Instr} (h : exec i s = .next t) : Answers i s t := by
  cases i with
  | advance n =>
    obtain ⟨-, rfl⟩ | ⟨-, -, rfl⟩ | ⟨y, -, advanced, rfl⟩ := execAdvance_cases h
    · exact .inl ⟨.notActive, by simp [Instr.faultCodes], rfl⟩
    · exact .inl ⟨.unwritten, by simp [Instr.faultCodes], rfl⟩
    · exact .inr (effect_done (.advance advanced))
  | encode n arg =>
    obtain ⟨-, rfl⟩ | ⟨fits, rfl⟩ := execEncode_cases h
    · exact .inl ⟨.argRange, by simp [Instr.faultCodes], rfl⟩
    · exact .inr (effect_done (.encode fits))
  | decode n arg =>
    obtain ⟨-, rfl⟩ | ⟨-, -, rfl⟩ | ⟨y, sd, -, scanned, rfl⟩ := execDecode_cases h
    · exact .inl ⟨.argRange, by simp [Instr.faultCodes], rfl⟩
    · exact .inl ⟨.unwritten, by simp [Instr.faultCodes], rfl⟩
    · exact .inr (effect_done (.decode scanned))
  | init n arg =>
    obtain ⟨-, rfl⟩ | ⟨-, nonzero, le_max, rfl⟩ := execInit_cases h
    · exact .inl ⟨.badInit, by simp [Instr.faultCodes], rfl⟩
    · exact .inr (effect_done (.init nonzero le_max))
  | destroy n =>
    obtain ⟨-, rfl⟩ | ⟨-, rfl⟩ := execDestroy_cases h
    · exact .inl ⟨.notActive, by simp [Instr.faultCodes], rfl⟩
    · exact .inr (effect_done .destroy)
  | xchg =>
    obtain ⟨-, rfl⟩ | ⟨-, -, rfl⟩ | ⟨active, fits, rfl⟩ := execXchg_cases h
    · exact .inl ⟨.notActive, by simp [Instr.faultCodes], rfl⟩
    · exact .inl ⟨.xchgCapacity, by simp [Instr.faultCodes], rfl⟩
    · exact .inr (effect_exchanged active fits)
  | frame n arg =>
    obtain ⟨-, rfl⟩ | ⟨-, -, rfl⟩ | ⟨cells, fits, copied, rfl⟩ := execFrame_cases h
    · exact .inl ⟨.argRange, by simp [Instr.faultCodes], rfl⟩
    · exact .inl ⟨.unwritten, by simp [Instr.faultCodes], rfl⟩
    · have change : NodeChange s n.peer (.frame n.peer.peer arg) { s.node n.peer with rxFrame := cells } :=
        .frame fits (by rwa [Node.peer_peer])
      rw [Node.peer_peer] at change
      exact .inr (effect_done change)
  | setRecv n arg w =>
    obtain ⟨-, rfl⟩ | ⟨-, -, rfl⟩ | ⟨-, in_range, rfl⟩ := execSetRecv_cases h
    · exact .inl ⟨.notActive, by simp [Instr.faultCodes], rfl⟩
    · exact .inl ⟨.argRange, by simp [Instr.faultCodes], rfl⟩
    · exact .inr (effect_done (.setRecv in_range))
  | setRss n arg =>
    obtain ⟨-, rfl⟩ | ⟨-, -, rfl⟩ | ⟨-, in_range, rfl⟩ := execSetRss_cases h
    · exact .inl ⟨.notActive, by simp [Instr.faultCodes], rfl⟩
    · exact .inl ⟨.argRange, by simp [Instr.faultCodes], rfl⟩
    · exact .inr (effect_done (.setRss in_range))
  | setRrs n arg =>
    obtain ⟨-, rfl⟩ | ⟨active, rfl⟩ := execSetRrs_cases h
    · exact .inl ⟨.notActive, by simp [Instr.faultCodes], rfl⟩
    · exact .inr (effect_done (.setRrs active))
  | setRxf n arg w =>
    obtain ⟨-, rfl⟩ | ⟨in_range, rfl⟩ := execSetRxf_cases h
    · exact .inl ⟨.argRange, by simp [Instr.faultCodes], rfl⟩
    · exact .inr (effect_done (.setRxf in_range))
  | fpush n q w =>
    obtain ⟨-, rfl⟩ | ⟨room, rfl⟩ := execFpush_cases h
    · exact .inr (effect_answer s _ _)
    · exact .inr (effect_setNode_answer _ (.push room))
  | fpop n q =>
    obtain ⟨-, rfl⟩ | ⟨v, rest, front, rfl⟩ := execFpop_cases h
    · exact .inl ⟨.fifoRange, by simp [Instr.faultCodes], rfl⟩
    · exact .inr (effect_setNode_answer v (.pop front))
  | fpeek n q arg =>
    obtain ⟨-, rfl⟩ | ⟨v, -, rfl⟩ := execFpeek_cases h
    · exact .inl ⟨.fifoRange, by simp [Instr.faultCodes], rfl⟩
    · exact .inr (effect_answer s _ v)
  | fsize n q =>
    rw [exec_fsize, Host.Outcome.next.injEq] at h
    exact h ▸ .inr (effect_answer s _ _)
  | ffree n q =>
    rw [exec_ffree, Host.Outcome.next.injEq] at h
    exact h ▸ .inr (effect_answer s _ _)
  | rdreg n r => exact rdreg_answers h
  | rdarr n x arg => exact rdarr_answers h
  | idle => exact frameWord_answers (k := .idle) h
  | escape => exact frameWord_answers (k := .escape) h
  | underrun => exact frameWord_answers (k := .underrun) h
  | overrun => exact frameWord_answers (k := .overrun) h
  | literal w => exact frameWord_answers (k := .literal w) h

/-- Each node of the answer, a fault included, is the node before or a change of it. -/
theorem exec_node {i : Instr} (h : exec i s = .next t) (m : Node) :
    t.node m = s.node m ∨ NodeChange s m i (t.node m) := by
  obtain ⟨code, -, rfl⟩ | effect := exec_answers h
  · exact .inl (State.node_raise s code m)
  · exact effect.node m

theorem exec_cfg {i : Instr} (h : exec i s = .next t) : t.cfg = s.cfg := by
  obtain ⟨code, -, rfl⟩ | effect := exec_answers h
  · rfl
  · exact effect.cfg

/-- No instruction starts a scan. -/
theorem exec_scan_none {i : Instr} (h : exec i s = .next t) (no_scan : s.scan = none) : t.scan = none := by
  obtain ⟨code, -, rfl⟩ | effect := exec_answers h
  · exact no_scan
  · obtain kept | ended | ⟨sc, sd, scanning, -⟩ := effect.scan
    · exact kept.trans no_scan
    · exact ended
    · exact absurd (scanning.symm.trans no_scan) (Option.some_ne_none sc)

/-- An answer with a fault recorded, from a state without one, is the fault alone. -/
theorem exec_fault {i : Instr} {code : FaultCode} (h : exec i s = .next t) (no_fault : s.fault = none)
    (faulted : t.fault = some code) : code ∈ i.faultCodes ∧ t = s.raise code := by
  obtain ⟨raised, listed, rfl⟩ | effect := exec_answers h
  · obtain rfl : raised = code := Option.some.inj faulted
    exact ⟨listed, rfl⟩
  · rw [effect.fault, no_fault] at faulted
    exact absurd faulted nofun

end

/-- Settles O12: a step executes at most one instruction, and no instruction starts a scan. -/
theorem operationsLeaveNoScan : Obligations.OperationsLeaveNoScan := by
  intro s t no_scan stepped
  obtain ⟨-, ⟨-, -, rfl⟩ | ⟨q, rest, e, -, -, -, rfl⟩ | ⟨q, rest, i, -, -, -, executed⟩ | ⟨sc, w, scanning, -⟩ |
    ⟨sc, scanning, -⟩⟩ := step_cases stepped
  · exact no_scan
  · exact no_scan
  · exact exec_scan_none executed no_scan
  · exact absurd (scanning.symm.trans no_scan) (Option.some_ne_none sc)
  · exact absurd (scanning.symm.trans no_scan) (Option.some_ne_none sc)

/-- Settles O14: a fault recorded in the answer is one that `exec_answers` lists. -/
theorem faultCodesFollowTheTable : Obligations.FaultCodesFollowTheTable :=
  fun _ _ _ _ no_fault executed faulted => (exec_fault executed no_fault faulted).1

/-- Settles O15: an answer with a fault is `State.raise` of the state before. -/
theorem faultsHaveNoOtherEffect : Obligations.FaultsHaveNoOtherEffect :=
  fun _ _ _ _ no_fault executed faulted => (exec_fault executed no_fault faulted).2

/-! ## What a change keeps of its node -/

section
variable {s : State} {m : Node} {i : Instr} {y : NodeState}

theorem scanWord_eq {outCap : Nat} {k : FrameWord} {x : NodeState} {sc sd : Scan}
    (scanned : scanWord outCap k x sc = .ok (y, sd)) : y = { x with outFifo := y.outFifo } := (scanWord_frame scanned).1

theorem scanLoop_eq {c : Config} {outCap k : Nat} {x : NodeState} {sc sd : Scan}
    (scanned : scanLoop c outCap k x sc = .ok (y, sd)) : y = { x with outFifo := y.outFifo } :=
  (scanLoop_keeps k scanned).1

/-- R32: only INIT and DESTROY of a node change its lifecycle. -/
theorem NodeChange.life_eq (change : NodeChange s m i y) :
    y.life = (s.node m).life ∨ (∃ arg, i = .init m arg) ∨ i = .destroy m := by
  cases change with
  | advance advanced => exact .inl (advanceNode_frame advanced).1
  | decode scanned => exact .inl (by rw [scanLoop_eq scanned])
  | init => exact .inr (.inl ⟨_, rfl⟩)
  | destroy => exact .inr (.inr rfl)
  | push => exact .inl (NodeState.setFifo_frame _ _ _).1
  | pop => exact .inl (NodeState.setFifo_frame _ _ _).1
  | word scanned => exact .inl (by rw [scanWord_eq scanned])
  | lastWord _ scanned => exact .inl (by rw [scanWord_eq scanned])
  | encode | receive | frame | setRecv | setRss | setRrs | setRxf => exact .inl rfl

theorem toInstr_not_operation (k : FrameWord) : k.toInstr.isOperation = false := by cases k <;> rfl

/-- R46: of the operations, only DECODE of a node writes its flags. -/
theorem NodeChange.fxFlags_eq (change : NodeChange s m i y) (operation : i.isOperation = true) :
    y.fxFlags = (s.node m).fxFlags ∨ ∃ arg, i = .decode m arg := by
  cases change with
  | advance advanced =>
    obtain ⟨-, -, -, -, -, -, -, flags, -⟩ := advanceNode_frame advanced
    exact .inl flags
  | decode => exact .inr ⟨_, rfl⟩
  | push => cases ‹FifoSel› <;> exact .inl rfl
  | pop => cases ‹FifoSel› <;> exact .inl rfl
  | @word k | @lastWord k => exact absurd operation (by simp [toInstr_not_operation])
  | encode | init | destroy | receive | frame | setRecv | setRss | setRrs | setRxf => exact .inl rfl

/-- R47: only ENCODE of a node writes its count. -/
theorem NodeChange.fxCount_eq (change : NodeChange s m i y) :
    y.fxCount = (s.node m).fxCount ∨ ∃ arg, i = .encode m arg := by
  cases change with
  | advance advanced =>
    obtain ⟨-, -, -, -, -, -, -, -, count⟩ := advanceNode_frame advanced
    exact .inl count
  | encode => exact .inr ⟨_, rfl⟩
  | decode scanned => exact .inl (by rw [scanLoop_eq scanned])
  | push => cases ‹FifoSel› <;> exact .inl rfl
  | pop => cases ‹FifoSel› <;> exact .inl rfl
  | word scanned => exact .inl (by rw [scanWord_eq scanned])
  | lastWord _ scanned => exact .inl (by rw [scanWord_eq scanned])
  | init | destroy | receive | frame | setRecv | setRss | setRrs | setRxf => exact .inl rfl

/-- R71: an operation addressed to a node changes that node only. -/
theorem NodeChange.eq_home {n : Node} (change : NodeChange s m i y) (home : i.home = some n) : m = n := by
  cases change with
  | @word k | @lastWord k => cases k <;> exact absurd home nofun
  | receive | frame => exact absurd home nofun
  | _ => exact Option.some.inj home

end

/-- Settles O18, by `NodeChange.life_eq`. -/
theorem lifecycleChangesOnlyByInitAndDestroy : Obligations.LifecycleChangesOnlyByInitAndDestroy := by
  intro i s t n executed
  obtain same | change := exec_node executed n
  · exact .inl (congrArg NodeState.life same)
  · exact change.life_eq

/-- Settles O19: the peer can only be as before, since its every change is by an operation addressed to it. -/
theorem otherNodeIsUntouched : Obligations.OtherNodeIsUntouched := by
  intro i s t n home executed
  refine ⟨?_, exec_cfg executed⟩
  obtain same | change := exec_node executed n.peer
  · exact same
  · exact absurd (change.eq_home home) n.peer_ne

/-- Settles O36, by `NodeChange.fxFlags_eq` and `NodeChange.fxCount_eq`. -/
theorem resultRegistersChangeOnlyByTheFramer : Obligations.ResultRegistersChangeOnlyByTheFramer := by
  intro i s t n operation executed
  obtain same | change := exec_node executed n
  · rw [same]
    exact ⟨.inl rfl, .inl rfl⟩
  · exact ⟨change.fxFlags_eq operation, change.fxCount_eq⟩

end Sys2Proof.Machine
end

section
/-! Well-formed states: the power-on state is one (R55), and every change of a node, every fault and every step keeps
them so (R33, R38, R76, R196, R220). -/

namespace Sys2Proof.Machine

/-! ## The power-on state -/

theorem powerOn_node_wf (c : Config) (n : Node) : NodeState.powerOn.Wf c n where
  lss_le := BitVec.le_refl _
  lrs_le := BitVec.le_refl _
  rss_le := BitVec.le_refl _
  cap_le := Nat.zero_le _
  active_iff := by decide
  inactive_rrs _ := rfl
  send_wf := .nil
  recv_wf := .nil
  tx_wf := .nil
  rx_wf := .nil
  send_below := nofun
  recv_below := nofun
  tx_below := nofun
  rx_below := nofun
  staged _ below_zero := absurd below_zero (Nat.not_lt_zero _)
  in_le := Nat.zero_le _
  out_le := Nat.zero_le _
  flags_ok := rfl
  count_le := Nat.zero_le _

/-- Settles O58: both nodes are `NodeState.powerOn`, and no scan is in progress. -/
theorem powerOnIsWellFormed : Obligations.PowerOnIsWellFormed := fun c allowed =>
  { cfg_wf := allowed
    node_wf := fun n => (State.node_powerOn c n).symm ▸ powerOn_node_wf c n
    scan_ok := nofun }

/-! ## ADVANCE, read from its answer -/

section
variable {handshake : Bool} {outCap : Nat} {x y : NodeState}

/-- The node that ADVANCE computes, in closed form: `advanceNode_ok` read backwards. -/
theorem advanceNode_eq_ok (advanced : advanceNode handshake outCap x = .ok y) :
    ∃ ws : List Word, cellsFrom x.recvData x.lrs.toNat (deliverCount outCap x) = ws.map .written ∧
      y = { x with
        outFifo := x.outFifo ++ ws
        lrs := if handshake = true ∧ x.rss = 0#16 then 0#16 else x.lrs + BitVec.ofNat 16 (deliverCount outCap x)
        lss := BitVec.ofNat 16 (stageBase x + stagedWords handshake x)
        inFifo := x.inFifo.drop (stagedWords handshake x)
        sendData := x.sendData.writeFrom (stageBase x) (x.inFifo.take (stagedWords handshake x)) } := by
  obtain ⟨ws, delivered⟩ | unwritten :=
    cellsFrom_written_or x.recvData x.lrs.toNat (deliverCount outCap x)
  · rw [advanceNode_ok delivered, Except.ok.injEq] at advanced
    exact ⟨ws, delivered, advanced.symm⟩
  · rw [advanceNode_error unwritten] at advanced
    exact absurd advanced nofun

theorem length_of_cellsFrom {m : Memory} {i k : Nat} {ws : List Word} (h : cellsFrom m i k = ws.map .written) :
    ws.length = k := by
  rw [← cellsFrom_length m i k, h, List.length_map]

theorem stageBase_le (x : NodeState) : stageBase x ≤ x.lss.toNat := by
  unfold stageBase
  split
  · exact Nat.zero_le _
  · exact le_rfl

theorem stagedWords_le_cap (handshake : Bool) (x : NodeState) :
    stagedWords handshake x ≤ x.cap.toNat - stageBase x := by
  unfold stagedWords
  split
  · exact Nat.min_le_left _ _
  · exact Nat.zero_le _

theorem stagedWords_le_length (handshake : Bool) (x : NodeState) : stagedWords handshake x ≤ x.inFifo.length := by
  unfold stagedWords
  split
  · exact Nat.min_le_right _ _
  · exact Nat.zero_le _

/-- The send count after ADVANCE does not wrap (R18). -/
theorem advance_lss_toNat (handshake : Bool) (x : NodeState) :
    (BitVec.ofNat 16 (stageBase x + stagedWords handshake x)).toNat = stageBase x + stagedWords handshake x := by
  have base_le := stageBase_le x
  have words_le := stagedWords_le_cap handshake x
  have lss_lt := x.lss.isLt
  have cap_lt := x.cap.isLt
  rw [BitVec.toNat_ofNat]
  exact Nat.mod_eq_of_lt (by omega)

end

/-! ## A change of a node keeps it well formed -/

section
variable {c : Config} {n : Node} {x y : NodeState}

theorem advanceNode_wf {handshake : Bool} (wf : x.Wf c n)
    (advanced : advanceNode handshake (fifoCap c n .output) x = .ok y) : y.Wf c n := by
  obtain ⟨ws, delivered, rfl⟩ := advanceNode_eq_ok advanced
  have count_eq := length_of_cellsFrom delivered
  have count_le : deliverCount (fifoCap c n .output) x ≤ fifoCap c n .output - x.outFifo.length := Nat.min_le_right _ _
  have lrs_eq := deliver_lrs_toNat (fifoCap c n .output) x
  have lrs_count_le : deliverCount (fifoCap c n .output) x ≤ x.rss.toNat - x.lrs.toNat := Nat.min_le_left _ _
  have words_le_cap := stagedWords_le_cap handshake x
  have words_le_length := stagedWords_le_length handshake x
  have lss_eq := advance_lss_toNat handshake x
  have base_le := stageBase_le x
  have lss_le := BitVec.le_def.1 wf.lss_le
  have lrs_le := BitVec.le_def.1 wf.lrs_le
  have rss_le := BitVec.le_def.1 wf.rss_le
  have out_le := wf.out_le
  have taken_length : (x.inFifo.take (stagedWords handshake x)).length = stagedWords handshake x := by
    rw [List.length_take, Nat.min_eq_left words_le_length]
  refine
    { wf with
      lss_le := BitVec.le_def.2 (by simp only [lss_eq]; omega)
      lrs_le := ?lrs_le
      send_wf := Memory.writeFrom_wf wf.send_wf _ _
      send_below := Memory.writeFrom_below wf.send_below _ _ (by omega)
      staged := ?staged
      in_le := ?in_le
      out_le := ?out_le }
  case lrs_le =>
    change (if _ then _ else _) ≤ x.cap
    split
    · exact BitVec.le_def.2 (Nat.zero_le _)
    · rw [BitVec.le_def, lrs_eq]
      omega
  case staged =>
    intro i in_batch
    simp only [lss_eq] at in_batch
    rw [Memory.read_writeFrom]
    split
    · next from_base =>
      rw [List.getElem?_eq_getElem (by omega)]
      exact nofun
    · next below_base => exact wf.staged i (by omega)
  case in_le => exact (List.length_drop ▸ Nat.sub_le _ _).trans wf.in_le
  case out_le =>
    rw [List.length_append]
    omega

/-- Every word takes at least one slot of a frame (R182). -/
theorem le_frameItems_length (c : Config) {ws : List Word} {k : Nat} (k_le : k ≤ ws.length) :
    k ≤ (frameItems c (ws.take k)).length := by
  rw [frameItems_length, List.length_take, Nat.min_eq_left k_le]
  exact Nat.le_add_right _ _

theorem encodeNode_wf {len : Nat} (allowed : c.wf) (wf : x.Wf c n) (fits : len ≤ c.frameMax) :
    (encodeNode c len x).Wf c n := by
  obtain ⟨k, k_le, items_fit, -, node_eq, -⟩ := encodeNode_spec c len x
  obtain ⟨tx_wf, tx_below⟩ :=
    encodeLoop_keeps c len 0 { queue := x.inFifo, frame := x.txFrame, removed := 0 } wf.tx_wf
  obtain ⟨-, ⟨-, frame_max⟩, -⟩ := allowed
  have count_le := (le_frameItems_length c k_le).trans items_fit
  rw [node_eq]
  exact
    { wf with
      tx_wf := tx_wf
      tx_below := tx_below c.frameMax (by omega) wf.tx_below
      in_le := (List.length_drop ▸ Nat.sub_le _ _).trans wf.in_le
      count_le := (BitVec.toNat_ofNat k 32 ▸ Nat.mod_le k _).trans (by omega) }

theorem initNode_wf {arg : Count} (wf : x.Wf c n) (nonzero : arg ≠ 0#16) (le_max : arg.toNat ≤ c.capMax) :
    (initNode x arg).Wf c n :=
  { wf with
    lss_le := BitVec.le_def.2 (Nat.zero_le _)
    lrs_le := BitVec.le_def.2 (Nat.zero_le _)
    rss_le := BitVec.le_def.2 (Nat.zero_le _)
    cap_le := le_max
    active_iff := iff_of_true rfl nonzero
    inactive_rrs := fun _ => rfl
    send_wf := .nil
    recv_wf := .nil
    send_below := nofun
    recv_below := nofun
    staged := fun _ below_zero => absurd below_zero (Nat.not_lt_zero _) }

theorem destroyNode_wf (wf : x.Wf c n) : (destroyNode x).Wf c n :=
  { wf with
    lss_le := BitVec.le_refl _
    lrs_le := BitVec.le_refl _
    rss_le := BitVec.le_refl _
    cap_le := Nat.zero_le _
    active_iff := iff_of_false nofun (fun nonzero => nonzero rfl)
    inactive_rrs := fun _ => rfl
    send_wf := .nil
    recv_wf := .nil
    send_below := nofun
    recv_below := nofun
    staged := fun _ below_zero => absurd below_zero (Nat.not_lt_zero _) }

theorem receiveFrom_wf {z : NodeState} (wf : x.Wf c n) (active : x.life = .active) (fits : z.lss ≤ x.cap) :
    (receiveFrom z x).Wf c n :=
  { wf with
    rss_le := fits
    inactive_rrs := fun inactive => absurd active inactive
    recv_wf := copyCells_wf _ _ wf.recv_wf
    recv_below := copyCells_below _ _ wf.recv_below (BitVec.le_def.1 fits) }

theorem setFifo_wf {q : FifoSel} {l : List Word} (wf : x.Wf c n) (length_le : l.length ≤ fifoCap c n q) :
    (x.setFifo q l).Wf c n := by
  cases q with
  | input => exact { wf with in_le := length_le }
  | output => exact { wf with out_le := length_le }

/-- A scan delivers to OUT and raises flags, within the capacity and within the mask. -/
theorem scanned_wf {flags : Word} (wf : x.Wf c n) (only_out : y = { x with outFifo := y.outFifo })
    (out_le : y.outFifo.length ≤ fifoCap c n .output) (flags_ok : flags &&& ~~~flagMask = 0#32) :
    ({ y with fxFlags := flags } : NodeState).Wf c n := by
  rw [only_out]
  exact { wf with out_le := out_le, flags_ok := flags_ok }

theorem scanWord_wf {k : FrameWord} {sc sd : Scan} (wf : x.Wf c n)
    (scanned : scanWord (fifoCap c n .output) k x sc = .ok (y, sd)) : y.Wf c n := by
  obtain ⟨ws, -, out_le⟩ := scanWord_out scanned
  rw [scanWord_eq scanned]
  exact { wf with out_le := out_le wf.out_le }

theorem NodeChange.wf {s : State} {m : Node} {i : Instr} (wf : s.Wf) (change : NodeChange s m i y) :
    y.Wf s.cfg m := by
  have node_wf := wf.node_wf m
  cases change with
  | advance advanced => exact advanceNode_wf node_wf advanced
  | encode fits => exact encodeNode_wf wf.cfg_wf node_wf fits
  | decode scanned =>
    obtain ⟨only_out, -, out_le, -, -, flags_ok⟩ := scanLoop_keeps _ scanned
    exact scanned_wf node_wf only_out (out_le node_wf.out_le) (flags_ok BitVec.zero_and)
  | init nonzero le_max => exact initNode_wf node_wf nonzero le_max
  | destroy => exact destroyNode_wf node_wf
  | receive active fits => exact receiveFrom_wf node_wf active fits
  | frame fits copied =>
    obtain ⟨rx_wf, rx_below⟩ := copyWritten_keeps copied
    exact { node_wf with rx_wf := rx_wf node_wf.rx_wf, rx_below := rx_below _ fits node_wf.rx_below }
  | setRecv in_range =>
    exact
      { node_wf with
        recv_wf := Memory.write_wf node_wf.recv_wf _ _
        recv_below := Memory.write_below node_wf.recv_below (BitVec.lt_def.1 in_range) _ }
  | setRss in_range => exact { node_wf with rss_le := in_range }
  | setRrs active => exact { node_wf with inactive_rrs := fun inactive => absurd active inactive }
  | setRxf in_range =>
    exact
      { node_wf with
        rx_wf := Memory.write_wf node_wf.rx_wf _ _
        rx_below := Memory.write_below node_wf.rx_below in_range _ }
  | push room => exact setFifo_wf node_wf (by rw [List.length_append]; exact room)
  | pop front =>
    have length_le := node_wf.fifo_le ‹FifoSel›
    rw [front] at length_le
    exact setFifo_wf node_wf ((Nat.le_succ _).trans length_le)
  | word scanned => exact scanWord_wf node_wf scanned
  | lastWord scanning scanned =>
    obtain ⟨-, -, flags_ok⟩ := wf.scan_ok _ scanning
    obtain ⟨ws, -, out_le⟩ := scanWord_out scanned
    exact scanned_wf node_wf (scanWord_eq scanned) (out_le node_wf.out_le) (scanWord_flags scanned flags_ok)

end

/-! ## Every instruction and every step keeps a state well formed -/

section
variable {s t : State}

theorem raise_wf (wf : s.Wf) (code : FaultCode) : (s.raise code).Wf where
  cfg_wf := wf.cfg_wf
  node_wf m := (State.node_raise s code m).symm ▸ wf.node_wf m
  scan_ok := wf.scan_ok

theorem accept_wf (wf : s.Wf) (q : Issue) (rest : List Issue) : (s.accept q rest).Wf where
  cfg_wf := wf.cfg_wf
  node_wf m := (State.node_accept s q rest m).symm ▸ wf.node_wf m
  scan_ok := wf.scan_ok

theorem Effect.wf {i : Instr} (wf : s.Wf) (effect : Effect i s t) : t.Wf where
  cfg_wf := effect.cfg.symm ▸ wf.cfg_wf
  node_wf m := by
    rw [effect.cfg]
    obtain same | change := effect.node m
    · exact same.symm ▸ wf.node_wf m
    · exact change.wf wf
  scan_ok := by
    intro sd scanning
    rw [effect.cfg]
    obtain kept | ended | ⟨sc, se, before, ⟨more, outCap, k, x, y, scanned⟩, goes_on⟩ := effect.scan
    · exact wf.scan_ok sd (kept.symm.trans scanning)
    · exact absurd (scanning.symm.trans ended) (Option.some_ne_none sd)
    · obtain rfl : se = sd := Option.some.inj (goes_on.symm.trans scanning)
      obtain ⟨-, len_le, flags_ok⟩ := wf.scan_ok sc before
      have same_len : se.len = sc.len := by rw [(scanWord_frame scanned).2]
      exact ⟨more, same_len.le.trans len_le, scanWord_flags scanned flags_ok⟩

theorem exec_wf {i : Instr} (wf : s.Wf) (executed : exec i s = .next t) : t.Wf := by
  obtain ⟨code, -, rfl⟩ | effect := exec_answers executed
  · exact raise_wf wf code
  · exact effect.wf wf

end

/-- Settles O59: a step executes an instruction (`exec_wf`), or only takes up an operation or records a fault. -/
theorem everyStepKeepsWellFormed : Obligations.EveryStepKeepsWellFormed := by
  intro s t wf stepped
  obtain ⟨-, ⟨-, -, rfl⟩ | ⟨q, rest, e, -, -, -, rfl⟩ | ⟨q, rest, i, -, -, -, executed⟩ |
    ⟨sc, w, -, -, executed⟩ | ⟨sc, -, -, rfl⟩⟩ := step_cases stepped
  · exact wf
  · exact raise_wf (accept_wf wf q rest) _
  · exact exec_wf (accept_wf wf q rest) executed
  · exact exec_wf wf executed
  · exact raise_wf wf _

end Sys2Proof.Machine
end

section
/-! ADVANCE (`40_engine.md` R156, R160) and the batch in flight (R41): what Reclaim and Stage do with HANDSHAKE, in
three cases, and what follows for a second ADVANCE and for the cells of a standing batch. -/

namespace Sys2Proof.Machine

/-! ## Reclaim and Stage with HANDSHAKE -/

/-- With HANDSHAKE a batch that is not acknowledged stands and is added to, an acknowledged one is reclaimed and nothing
is staged until the peer has rewound, and a new batch starts only with both counts at 0. -/
theorem stage_cases (x : NodeState) :
    (x.rrs < x.lss ∧ stageBase x = x.lss.toNat ∧
      stagedWords true x = min (x.cap.toNat - x.lss.toNat) x.inFifo.length) ∨
    (x.lss ≤ x.rrs ∧ x.rrs ≠ 0#16 ∧ stageBase x = 0 ∧ stagedWords true x = 0) ∨
    (x.lss = 0#16 ∧ x.rrs = 0#16 ∧ stageBase x = 0 ∧ stagedWords true x = min x.cap.toNat x.inFifo.length) := by
  by_cases reclaimed : x.lss ≤ x.rrs
  · have base_eq : stageBase x = 0 := if_pos reclaimed
    by_cases rewound : x.rrs = 0#16
    · have lss_zero : x.lss = 0#16 := BitVec.le_zero_iff.1 (rewound ▸ reclaimed)
      exact .inr (.inr ⟨lss_zero, rewound, base_eq, by simp [stagedWords, base_eq, rewound]⟩)
    · exact .inr (.inl ⟨reclaimed, rewound, base_eq, by simp [stagedWords, base_eq, rewound]⟩)
  · have base_eq : stageBase x = x.lss.toNat := if_neg reclaimed
    have standing : x.rrs < x.lss := BitVec.not_le.1 reclaimed
    have nonempty : x.lss.toNat ≠ 0 := (Nat.zero_le _).trans_lt (BitVec.lt_def.1 standing) |>.ne'
    exact .inl ⟨standing, base_eq, by simp [stagedWords, base_eq, nonempty]⟩

/-- R41: an ADVANCE with HANDSHAKE empties the batch, or keeps its cells and adds to it. -/
theorem advanceNode_keeps_batch {outCap : Nat} {x y : NodeState} (advanced : advanceNode true outCap x = .ok y) :
    y.lss = 0#16 ∨ (x.lss ≤ y.lss ∧ ∀ j < x.lss.toNat, y.sendData.read j = x.sendData.read j) := by
  obtain ⟨ws, -, rfl⟩ := advanceNode_eq_ok advanced
  have lss_eq := advance_lss_toNat true x
  obtain ⟨-, base_eq, -⟩ | ⟨-, -, base_eq, none_staged⟩ | ⟨lss_zero, -, -, -⟩ := stage_cases x
  · refine .inr ⟨BitVec.le_def.2 (by simp only [lss_eq]; omega), fun j in_batch => ?_⟩
    rw [Memory.read_writeFrom, if_neg (by omega)]
  · exact .inl (by simp only [base_eq, none_staged])
  · refine .inr ⟨BitVec.le_def.2 (by simp [lss_zero]), fun j in_batch => ?_⟩
    rw [lss_zero] at in_batch
    exact absurd in_batch (Nat.not_lt_zero j)

theorem NodeChange.keeps_batch {s : State} {m : Node} {i : Instr} {y : NodeState} (handshake : s.cfg.handshake = true)
    (change : NodeChange s m i y) :
    y.lss = 0#16 ∨
    ((s.node m).lss ≤ y.lss ∧ ∀ j < (s.node m).lss.toNat, y.sendData.read j = (s.node m).sendData.read j) := by
  have kept {z : NodeState} (lss_eq : z.lss = (s.node m).lss) (send_eq : z.sendData = (s.node m).sendData) :
      (s.node m).lss ≤ z.lss ∧ ∀ j < (s.node m).lss.toNat, z.sendData.read j = (s.node m).sendData.read j :=
    ⟨lss_eq ▸ BitVec.le_refl _, fun j _ => by rw [send_eq]⟩
  cases change with
  | advance advanced =>
    rw [handshake] at advanced
    exact advanceNode_keeps_batch advanced
  | init | destroy => exact .inl rfl
  | decode scanned => exact .inr (kept (by rw [scanLoop_eq scanned]) (by rw [scanLoop_eq scanned]))
  | push => exact .inr (by cases ‹FifoSel› <;> exact kept rfl rfl)
  | pop => exact .inr (by cases ‹FifoSel› <;> exact kept rfl rfl)
  | word scanned => exact .inr (kept (by rw [scanWord_eq scanned]) (by rw [scanWord_eq scanned]))
  | lastWord _ scanned => exact .inr (kept (by rw [scanWord_eq scanned]) (by rw [scanWord_eq scanned]))
  | encode | receive | frame | setRecv | setRss | setRrs | setRxf => exact .inr (kept rfl rfl)

/-- Settles O23, by `NodeChange.keeps_batch`. -/
theorem stagedBatchIsImmutable : Obligations.StagedBatchIsImmutable := by
  intro i s t n handshake executed
  obtain same | change := exec_node executed n
  · rw [same]
    exact .inr ⟨BitVec.le_refl _, fun _ _ => rfl⟩
  · exact change.keeps_batch handshake

/-- Settles O24: at capacity 1 a standing batch fills the array, so only the start of a new batch takes a word. -/
theorem capacityOneStopsAndWaits : Obligations.CapacityOneStopsAndWaits := by
  intro s t n handshake cap_one executed taken
  obtain ⟨-, rfl⟩ | ⟨-, -, rfl⟩ | ⟨y, -, advanced, rfl⟩ := execAdvance_cases executed
  · exact absurd (by rw [State.node_raise]) taken
  · exact absurd (by rw [State.node_raise]) taken
  · rw [handshake] at advanced
    obtain ⟨ws, -, rfl⟩ := advanceNode_eq_ok advanced
    rw [node_setNode_done] at taken
    have some_staged : stagedWords true (s.node n) ≠ 0 := fun none_staged => taken (by rw [none_staged, List.drop_zero])
    obtain ⟨standing, -, staged_eq⟩ | ⟨-, -, -, none_staged⟩ | ⟨lss_zero, rrs_zero, -, -⟩ := stage_cases (s.node n)
    · have full : (s.node n).cap.toNat - (s.node n).lss.toNat = 0 := by
        have := BitVec.lt_def.1 standing
        rw [cap_one]
        exact Nat.sub_eq_zero_of_le (Nat.one_le_of_lt this)
      exact absurd (by rw [staged_eq, full, Nat.zero_min]) some_staged
    · exact absurd none_staged some_staged
    · exact ⟨lss_zero, rrs_zero⟩

/-! ## A second ADVANCE (R156) -/

section
variable {outCap : Nat} {x y : NodeState}

/-- After Deliver nothing is left to deliver, or OUT is full. -/
theorem deliverCount_again {ws : List Word} (delivered : ws.length = deliverCount outCap x) (rss_eq : y.rss = x.rss)
    (lrs_eq : y.rss = 0#16 ∨ y.lrs = x.lrs + BitVec.ofNat 16 (deliverCount outCap x))
    (out_eq : y.outFifo = x.outFifo ++ ws) :
    deliverCount outCap y = 0 := by
  obtain rss_zero | lrs_eq := lrs_eq
  · rw [deliverCount, rss_zero]
    simp
  · have toNat_eq := deliver_lrs_toNat outCap x
    rw [deliverCount, fifoFree, out_eq, List.length_append, delivered, rss_eq, lrs_eq, toNat_eq]
    unfold deliverCount fifoFree
    omega

/-- After Stage a second Reclaim and Stage leave the batch as it is. -/
theorem stage_again (rrs_eq : y.rrs = x.rrs) (cap_eq : y.cap = x.cap)
    (lss_eq : y.lss.toNat = stageBase x + stagedWords true x)
    (in_eq : y.inFifo = x.inFifo.drop (stagedWords true x)) :
    stageBase y = y.lss.toNat ∧ stagedWords true y = 0 := by
  have in_length : y.inFifo.length = x.inFifo.length - stagedWords true x := by rw [in_eq, List.length_drop]
  have rrs_toNat := congrArg BitVec.toNat rrs_eq
  have cap_toNat := congrArg BitVec.toNat cap_eq
  have x_cases := stage_cases x
  have y_cases := stage_cases y
  simp only [ne_eq, BitVec.lt_def, BitVec.le_def, ← BitVec.toNat_inj, BitVec.toNat_ofNat, Nat.zero_mod]
    at x_cases y_cases
  omega

/-- R156: ADVANCE with HANDSHAKE computes a node that it leaves as it is. -/
theorem advanceNode_again (advanced : advanceNode true outCap x = .ok y) : advanceNode true outCap y = .ok y := by
  obtain ⟨ws, delivered, rfl⟩ := advanceNode_eq_ok advanced
  have length_eq := length_of_cellsFrom delivered
  have lss_eq := advance_lss_toNat true x
  generalize y_eq : ({ x with outFifo := _, lrs := _, lss := _, inFifo := _, sendData := _ } : NodeState) = y
  obtain ⟨base_eq, none_staged⟩ : stageBase y = y.lss.toNat ∧ stagedWords true y = 0 := by
    subst y_eq
    exact stage_again (x := x) rfl rfl lss_eq rfl
  have none_delivered : deliverCount outCap y = 0 := by
    subst y_eq
    refine deliverCount_again length_eq rfl ?_ rfl
    by_cases rss_zero : x.rss = 0#16
    · exact .inl rss_zero
    · exact .inr (if_neg fun h => rss_zero h.2)
  have lrs_rewound : y.rss = 0#16 → y.lrs = 0#16 := by
    subst y_eq
    exact fun rss_zero => if_pos ⟨rfl, rss_zero⟩
  have lrs_eq : (if true = true ∧ y.rss = 0#16 then 0#16 else y.lrs + BitVec.ofNat 16 0) = y.lrs := by
    split
    · next h => exact (lrs_rewound h.2).symm
    · exact BitVec.add_zero y.lrs
  rw [advanceNode_ok (ws := []) (by rw [none_delivered]; rfl), none_delivered, none_staged, base_eq, lrs_eq]
  simp [Memory.writeFrom]

end

/-- Settles O21, by `advanceNode_again`. -/
theorem advanceTwiceIsAdvanceOnce : Obligations.AdvanceTwiceIsAdvanceOnce := by
  intro s t n handshake no_fault executed no_fault'
  obtain ⟨-, rfl⟩ | ⟨-, -, rfl⟩ | ⟨y, active, advanced, rfl⟩ := execAdvance_cases executed
  · exact absurd no_fault' nofun
  · exact absurd no_fault' nofun
  · have node_eq := node_setNode_done s n y
    have active_y : y.life = .active := (advanceNode_frame advanced).1.trans active
    rw [handshake] at advanced
    have again : advanceNode (s.setNode n y).done.cfg.handshake (fifoCap (s.setNode n y).done.cfg n .output)
        ((s.setNode n y).done.node n) = .ok y := by
      rw [node_eq, State.done_cfg, State.setNode_cfg, handshake]
      exact advanceNode_again advanced
    rw [exec_advance_of_ok (node_eq.symm ▸ active_y) again]
    cases n <;> rfl

/-! ## Without HANDSHAKE a second ADVANCE is another one (R156, R164) -/

/-- Node A of V-ADV-9: at capacity 1, with its one word acknowledged and two more to send. -/
def acknowledgedNode : NodeState :=
  { NodeState.powerOn with
    life := .active, cap := 1#16, lss := 1#16, rrs := 1#16, sendData := [(0, 1#32)], inFifo := [2#32, 3#32] }

/-- V-ADV-9: without HANDSHAKE, node A has its batch acknowledged. -/
def literalStart : State :=
  { State.powerOn { Config.reference with handshake := false } with nodeA := acknowledgedNode }

/-- After one ADVANCE of A the word 2 stands in the batch, unsent. -/
def literalOnce : State :=
  { literalStart with nodeA := { acknowledgedNode with sendData := [(0, 2#32)], inFifo := [3#32] } }

/-- After two, the word 3 has taken its place. -/
def literalTwice : State :=
  { literalStart with nodeA := { acknowledgedNode with sendData := [(0, 3#32)], inFifo := [] } }

theorem literalStart_wf : literalStart.Wf where
  cfg_wf := by decide
  node_wf n := by cases n <;> constructor <;> decide
  scan_ok := nofun

theorem literalStart_advance : exec (.advance .a) literalStart = .next literalOnce := rfl

theorem literalOnce_advance : exec (.advance .a) literalOnce = .next literalTwice := rfl

/-- Refutes O22: in V-ADV-9 the second ADVANCE reclaims the word that the first one staged. -/
theorem not_literalAdvanceTwiceIsAdvanceOnce : ¬ Obligations.LiteralAdvanceTwiceIsAdvanceOnce := by
  intro claim
  have again := claim literalStart literalOnce .a literalStart_wf rfl rfl literalStart_advance rfl
  rw [literalOnce_advance, Host.Outcome.next.injEq] at again
  exact absurd again (by decide)

end Sys2Proof.Machine
end

section
/-! The link between two nodes (`40_engine.md` R158 to R161) with HANDSHAKE: it holds after both INITs, ADVANCE of
either end and XCHG keep it, and no other instruction but construction, teardown and the test writes touches it. On a link that
holds, ADVANCE raises no fault. -/

namespace Sys2Proof.Machine

/-! ## The link as a relation between the sending and the receiving node -/

/-- `Link n s` as a relation between the sender `x`, node `n`, and the receiver `z`, its peer. -/
structure Linked (x z : NodeState) : Prop where
  flight : x.lss ≠ 0#16 →
    x.rrs ≤ z.lrs ∧ z.lrs ≤ z.rss ∧ z.rss ≤ x.lss ∧ ∀ i < z.rss.toNat, z.recvData.read i = x.sendData.read i
  free : x.lss = 0#16 →
    (z.rss ≠ 0#16 → z.lrs = z.rss ∧ x.rrs = z.rss) ∧ (z.rss = 0#16 → z.lrs = 0#16 ∨ z.lrs = x.rrs)

theorem link_iff (n : Node) (s : State) : Link n s ↔ Linked (s.node n) (s.node n.peer) :=
  ⟨fun h => ⟨h.flight, h.free⟩, fun h => ⟨h.flight, h.free⟩⟩

theorem link_peer_iff (n : Node) (s : State) : Link n.peer s ↔ Linked (s.node n.peer) (s.node n) := by
  rw [link_iff, Node.peer_peer]

section
variable {x y z : NodeState} {outCap : Nat}

/-- A node between INIT and the first XCHG has nothing in flight and nothing received. -/
theorem linked_of_zero (lss_zero : x.lss = 0#16) (rss_zero : z.rss = 0#16) (lrs_zero : z.lrs = 0#16) : Linked x z :=
  ⟨fun nonzero => absurd lss_zero nonzero, fun _ => ⟨fun nonzero => absurd rss_zero nonzero, fun _ => .inl lrs_zero⟩⟩

/-- A cell that the receiver has still to deliver lies in the batch in flight, and is a true copy. -/
theorem Linked.undelivered_cell (link : Linked x z) {i : Nat} (lrs_le : z.lrs.toNat ≤ i) (lt_rss : i < z.rss.toNat) :
    i < x.lss.toNat ∧ z.recvData.read i = x.sendData.read i := by
  by_cases lss_zero : x.lss = 0#16
  · obtain ⟨delivered, -⟩ := link.free lss_zero
    have rss_pos : z.rss ≠ 0#16 := fun rss_zero => absurd lt_rss (by simp [rss_zero])
    rw [(delivered rss_pos).1] at lrs_le
    exact absurd lt_rss (not_lt.2 lrs_le)
  · obtain ⟨-, -, rss_le, copied⟩ := link.flight lss_zero
    exact ⟨lt_rss.trans_le (BitVec.le_def.1 rss_le), copied i lt_rss⟩

/-- R158: outside a rewind that is still to come, the receive count is within what the peer has sent. -/
theorem Linked.lrs_le_rss (link : Linked x z) (rss_pos : z.rss ≠ 0#16) : z.lrs ≤ z.rss := by
  by_cases lss_zero : x.lss = 0#16
  · rw [((link.free lss_zero).1 rss_pos).1]
    exact BitVec.le_refl _
  · exact (link.flight lss_zero).2.1

/-- Where both ends of the acknowledgement are at 0, the receiver has nothing left of an earlier batch. -/
theorem Linked.rewound (link : Linked x z) (lss_zero : x.lss = 0#16) (rrs_zero : x.rrs = 0#16) :
    z.rss = 0#16 ∧ z.lrs = 0#16 := by
  obtain ⟨delivered, rewound⟩ := link.free lss_zero
  have rss_zero : z.rss = 0#16 := by
    by_contra rss_pos
    exact rss_pos ((delivered rss_pos).2.symm.trans rrs_zero)
  exact ⟨rss_zero, (rewound rss_zero).elim id (fun h => h.trans rrs_zero)⟩

/-! ## ADVANCE of the sender -/

theorem Linked.advance_sender (link : Linked x z) (advanced : advanceNode true outCap x = .ok y) : Linked y z := by
  obtain ⟨ws, -, rfl⟩ := advanceNode_eq_ok advanced
  have lss_eq := advance_lss_toNat true x
  obtain ⟨standing, base_eq, -⟩ | ⟨reclaimed, rrs_pos, base_eq, none_staged⟩ | ⟨lss_zero, rrs_zero, -, -⟩ :=
    stage_cases x
  case inl =>
    have lss_pos : x.lss ≠ 0#16 := fun lss_zero => BitVec.not_lt_zero (lss_zero ▸ standing)
    obtain ⟨rrs_le, lrs_le, rss_le, copied⟩ := link.flight lss_pos
    have lss_toNat_pos := BitVec.toNat_ne_iff_ne.2 lss_pos
    rw [BitVec.le_def] at rss_le
    refine ⟨fun _ => ⟨rrs_le, lrs_le, BitVec.le_def.2 (by simp only [lss_eq]; omega), fun i i_lt => ?_⟩, fun h => ?_⟩
    · rw [Memory.read_writeFrom, if_neg (by omega)]
      exact copied i i_lt
    · have := congrArg BitVec.toNat h
      simp only [lss_eq, BitVec.toNat_zero] at this lss_toNat_pos
      omega
  case inr.inl =>
    have emptied : BitVec.ofNat 16 (stageBase x + stagedWords true x) = 0#16 := by rw [base_eq, none_staged]
    refine ⟨fun h => absurd emptied h, fun _ => ?_⟩
    by_cases lss_zero : x.lss = 0#16
    · exact link.free lss_zero
    · obtain ⟨rrs_le, lrs_le, rss_le, -⟩ := link.flight lss_zero
      have lrs_eq : z.lrs = z.rss := by bv_omega
      have rrs_eq : x.rrs = z.rss := by bv_omega
      exact ⟨fun _ => ⟨lrs_eq, rrs_eq⟩, fun _ => .inr (lrs_eq.trans rrs_eq.symm)⟩
  case inr.inr =>
    obtain ⟨rss_zero, lrs_zero⟩ := link.rewound lss_zero rrs_zero
    refine ⟨fun _ => ?_, fun _ => ⟨fun rss_pos => absurd rss_zero rss_pos, fun _ => .inl lrs_zero⟩⟩
    simp [rss_zero, lrs_zero, rrs_zero]

/-! ## ADVANCE of the receiver -/

/-- Where ADVANCE of the receiver leaves its receive count. -/
theorem Linked.advance_lrs (link : Linked x z) (advanced : advanceNode true outCap z = .ok y) :
    (z.rss = 0#16 ∧ y.lrs = 0#16) ∨ (z.rss ≠ 0#16 ∧ z.lrs ≤ y.lrs ∧ y.lrs ≤ z.rss) := by
  obtain ⟨ws, -, rfl⟩ := advanceNode_eq_ok advanced
  by_cases rss_zero : z.rss = 0#16
  · exact .inl ⟨rss_zero, if_pos ⟨rfl, rss_zero⟩⟩
  · have lrs_le := BitVec.le_def.1 (link.lrs_le_rss rss_zero)
    have lrs_eq := deliver_lrs_toNat outCap z
    have count_le : deliverCount outCap z ≤ z.rss.toNat - z.lrs.toNat := Nat.min_le_left _ _
    simp only [rss_zero, and_false, if_false, BitVec.le_def, lrs_eq]
    exact .inr ⟨rss_zero, by omega, by omega⟩

theorem Linked.advance_receiver (link : Linked x z) (advanced : advanceNode true outCap z = .ok y) : Linked x y := by
  obtain ⟨-, -, rss_eq, -, recv_eq, -⟩ := advanceNode_frame advanced
  obtain ⟨rss_zero, lrs_zero⟩ | ⟨rss_pos, lrs_le, le_rss⟩ := link.advance_lrs advanced
  · refine ⟨fun lss_pos => ?_, fun _ => ⟨fun rss_pos => absurd (rss_eq.trans rss_zero) rss_pos, fun _ => .inl lrs_zero⟩⟩
    obtain ⟨rrs_le, lrs_le, rss_le, copied⟩ := link.flight lss_pos
    rw [rss_eq, recv_eq, lrs_zero]
    exact ⟨by bv_omega, by bv_omega, rss_le, copied⟩
  · refine ⟨fun lss_pos => ?_, fun lss_zero => ?_⟩
    · obtain ⟨rrs_le, -, rss_le, copied⟩ := link.flight lss_pos
      rw [rss_eq, recv_eq]
      exact ⟨BitVec.le_trans rrs_le lrs_le, le_rss, rss_le, copied⟩
    · obtain ⟨lrs_eq, rrs_eq⟩ := (link.free lss_zero).1 rss_pos
      rw [rss_eq]
      exact ⟨fun _ => ⟨BitVec.le_antisymm le_rss (lrs_eq ▸ lrs_le), rrs_eq⟩, fun rss_zero => absurd rss_zero rss_pos⟩

/-! ## XCHG -/

theorem Linked.exchange (link : Linked x z) (recv_wf : z.recvData.wf) :
    Linked (receiveFrom z x) (receiveFrom x z) where
  flight lss_pos := by
    obtain ⟨-, lrs_le, rss_le, -⟩ := link.flight lss_pos
    refine ⟨BitVec.le_refl _, BitVec.le_trans lrs_le rss_le, BitVec.le_refl _, fun i i_lt => ?_⟩
    exact (copyCells_read x.sendData x.lss.toNat recv_wf i).trans (if_pos i_lt)
  free lss_zero := ⟨fun rss_pos => absurd lss_zero rss_pos, fun _ => .inr rfl⟩

/-- Nodes with the engine fields of linked nodes are linked. -/
theorem Linked.withEngine (link : Linked x z) (u v : NodeState) : Linked (u.withEngine x) (v.withEngine z) :=
  ⟨link.flight, link.free⟩

end

/-! ## The instructions that leave the engine alone -/

/-- The operations that move words of the engine path or its counters (R142, R241). -/
def runsEngine : Instr → Bool
  | .advance _ | .xchg => true
  | _ => false

section
variable {s t : State} {m n : Node} {i : Instr} {y : NodeState}

theorem NodeChange.engine_kept (change : NodeChange s m i y) (keeps : i.breaksLink = false)
    (not_engine : runsEngine i = false) : y.withEngine (s.node m) = y := by
  cases change with
  | decode scanned => rw [scanLoop_eq scanned]; rfl
  | word scanned => rw [scanWord_eq scanned]; rfl
  | lastWord _ scanned => rw [scanWord_eq scanned]; rfl
  | push => cases ‹FifoSel› <;> rfl
  | pop => cases ‹FifoSel› <;> rfl
  | encode | frame | setRxf => rfl
  | advance | receive => exact absurd not_engine nofun
  | init | destroy | setRecv | setRss | setRrs => exact absurd keeps nofun

theorem exec_engine_kept (executed : exec i s = .next t) (keeps : i.breaksLink = false)
    (not_engine : runsEngine i = false) (m : Node) : (t.node m).withEngine (s.node m) = t.node m := by
  obtain same | change := exec_node executed m
  · rw [same]
    rfl
  · exact change.engine_kept keeps not_engine

theorem link_setNode_sender (link : Linked y (s.node n.peer)) : Link n (s.setNode n y).done := by
  rw [link_iff, State.node_done, State.node_done, State.node_setNode, State.node_peer_setNode]
  exact link

theorem link_setNode_receiver (link : Linked (s.node n) y) : Link n (s.setNode n.peer y).done := by
  rw [link_iff, State.node_done, State.node_done, State.node_setNode, State.node_setNode_peer]
  exact link

theorem State.exchanged_node (s : State) (m : Node) :
    s.exchanged.node m = receiveFrom (s.node m.peer) (s.node m) := by
  cases m <;> rfl

theorem link_raise (link : Link n s) (code : FaultCode) : Link n (s.raise code) := by
  rw [link_iff] at link ⊢
  simpa only [State.node_raise] using link

theorem exec_advance_link (handshake : s.cfg.handshake = true) (link : Link n s)
    (executed : exec (.advance m) s = .next t) : Link n t := by
  obtain ⟨-, rfl⟩ | ⟨-, -, rfl⟩ | ⟨y, -, advanced, rfl⟩ := execAdvance_cases executed
  · exact link_raise link _
  · exact link_raise link _
  · rw [handshake] at advanced
    obtain rfl | rfl := m.eq_or_eq_peer n
    · exact link_setNode_sender (((link_iff _ s).1 link).advance_sender advanced)
    · exact link_setNode_receiver (((link_iff _ s).1 link).advance_receiver advanced)

theorem exec_xchg_link (wf : s.Wf) (link : Link n s) (executed : exec .xchg s = .next t) : Link n t := by
  obtain ⟨-, rfl⟩ | ⟨-, -, rfl⟩ | ⟨-, -, rfl⟩ := execXchg_cases executed
  · exact link_raise link _
  · exact link_raise link _
  · change Link n s.exchanged
    rw [link_iff, State.exchanged_node, State.exchanged_node, Node.peer_peer]
    exact ((link_iff n s).1 link).exchange (wf.node_wf n.peer).recv_wf

end

/-- Settles O26: ADVANCE and XCHG keep the link by the rules above, the others keep the engine fields of both nodes. -/
theorem linkSurvivesEveryOtherInstruction : Obligations.LinkSurvivesEveryOtherInstruction := by
  intro i s t n wf handshake link keeps executed
  cases engine : runsEngine i with
  | true =>
    cases i with
    | advance m => exact exec_advance_link handshake link executed
    | xchg => exact exec_xchg_link wf link executed
    | _ => exact absurd engine nofun
  | false =>
    have kept := exec_engine_kept executed keeps engine
    rw [link_iff, ← kept n, ← kept n.peer]
    exact ((link_iff n s).1 link).withEngine _ _

/-- Settles O25: the second INIT leaves the node of the first, and both nodes start with every count at 0. -/
theorem linkHoldsAfterBothInits : Obligations.LinkHoldsAfterBothInits := by
  intro s t u x y n no_fault init_a init_b no_fault_u
  obtain ⟨-, rfl⟩ | ⟨-, -, -, rfl⟩ := execInit_cases init_b
  · exact absurd no_fault_u nofun
  obtain ⟨-, rfl⟩ | ⟨-, -, -, rfl⟩ := execInit_cases init_a
  · exact absurd no_fault_u nofun
  rw [link_iff]
  cases n <;> exact linked_of_zero rfl rfl rfl

/-- Settles O29, by `Linked.advance_lrs`. -/
theorem advanceRestoresWindowBound : Obligations.AdvanceRestoresWindowBound := by
  intro s t n handshake link no_fault executed no_fault_t
  obtain ⟨-, rfl⟩ | ⟨-, -, rfl⟩ | ⟨y, -, advanced, rfl⟩ := execAdvance_cases executed
  · exact absurd no_fault_t nofun
  · exact absurd no_fault_t nofun
  · rw [handshake] at advanced
    obtain ⟨-, -, rss_eq, -⟩ := advanceNode_frame advanced
    rw [node_setNode_done, rss_eq]
    obtain ⟨-, lrs_zero⟩ | ⟨-, -, lrs_le⟩ := ((link_peer_iff n s).1 link).advance_lrs advanced
    · rw [lrs_zero]
      exact BitVec.le_def.2 (Nat.zero_le _)
    · exact lrs_le

/-! ## No fault on a link that holds (R150, R243) -/

/-- What holds of a node and of its peer holds of both nodes. -/
theorem both_nodes {p : Node → Prop} {n : Node} (here : p n) (there : p n.peer) (m : Node) : p m :=
  (m.eq_or_eq_peer n).elim (fun h => h ▸ here) (fun h => h ▸ there)

section
variable {s : State} {n : Node}

/-- What Deliver must read was written: it lies in the batch in flight of the peer. -/
theorem Linked.deliver_written {x z : NodeState} (link : Linked x z)
    (staged : ∀ i < x.lss.toNat, x.sendData.read i ≠ .unwritten) (outCap : Nat) :
    ∃ ws : List Word, cellsFrom z.recvData z.lrs.toNat (deliverCount outCap z) = ws.map .written := by
  rw [cellsFrom_written_iff]
  intro j j_lt
  have count_le : deliverCount outCap z ≤ z.rss.toNat - z.lrs.toNat := Nat.min_le_left _ _
  obtain ⟨in_batch, copied⟩ := link.undelivered_cell (Nat.le_add_right _ j) (by omega)
  rw [copied]
  exact staged _ in_batch

/-- ADVANCE of an ACTIVE node at the end of a link that holds completes. -/
theorem exec_advance_linked (wf : s.Wf) (active : (s.node n).life = .active) (link : Link n.peer s) :
    ∃ y, advanceNode s.cfg.handshake (fifoCap s.cfg n .output) (s.node n) = .ok y ∧
      exec (.advance n) s = .next (s.setNode n y).done := by
  obtain ⟨ws, delivered⟩ :=
    ((link_peer_iff n s).1 link).deliver_written (wf.node_wf n.peer).staged (fifoCap s.cfg n .output)
  exact ⟨_, advanceNode_ok delivered, exec_advance_of_ok active (advanceNode_ok delivered)⟩

end

/-- Settles O30: ADVANCE by `exec_advance_linked`; between equal capacities a batch fits, since it fits its own. -/
theorem linkedOperationsRaiseNoFault : Obligations.LinkedOperationsRaiseNoFault := by
  intro s n wf active
  refine ⟨fun link => ?_, fun active_peer cap_eq => ?_⟩
  · obtain ⟨y, -, executed⟩ := exec_advance_linked wf active link
    exact ⟨_, executed, State.setNode_fault s n y⟩
  · refine ⟨_, exec_xchg_of_fits (both_nodes active active_peer) (both_nodes (n := n) ?_ ?_), rfl⟩
    · exact cap_eq ▸ (wf.node_wf n).lss_le
    · rw [Node.peer_peer, cap_eq]
      exact (wf.node_wf n.peer).lss_le

end Sys2Proof.Machine
end

section
/-! The words of one direction on their way (`40_engine.md` R161): ADVANCE of either end and XCHG leave them as one list
as it is, a push puts a word behind it and a pop takes one from its front. -/

namespace Sys2Proof.Machine

/-! ## Rows of cells -/

theorem cellsFrom_add (m : Memory) (i j k : Nat) :
    cellsFrom m i (j + k) = cellsFrom m i j ++ cellsFrom m (i + j) k := by
  simp [cellsFrom, List.range_add, Function.comp_def, Nat.add_assoc]

theorem cellsFrom_congr {m m' : Memory} {i k : Nat} (same : ∀ j, i ≤ j → j < i + k → m.read j = m'.read j) :
    cellsFrom m i k = cellsFrom m' i k :=
  List.map_congr_left fun j j_lt => same (i + j) (Nat.le_add_right i j) (Nat.add_lt_add_left (List.mem_range.1 j_lt) i)

theorem cellsFrom_writeFrom_below (m : Memory) (i : Nat) (ws : List Word) :
    cellsFrom (m.writeFrom i ws) 0 i = cellsFrom m 0 i :=
  cellsFrom_congr fun j _ j_lt => by rw [Memory.read_writeFrom, if_neg (by omega)]

theorem cellsFrom_writeFrom (m : Memory) (i : Nat) (ws : List Word) :
    cellsFrom (m.writeFrom i ws) i ws.length = ws.map .written := by
  refine List.ext_getElem (by simp) fun j j_lt _ => ?_
  have in_row : j < ws.length := by simpa using j_lt
  simp [cellsFrom, Memory.read_writeFrom, in_row]

theorem map_written_inj {us ws : List Word} : us.map Cell.written = ws.map Cell.written ↔ us = ws :=
  (List.map_injective_iff.2 fun _ _ h => by simpa using h).eq_iff

/-! ## The batch in flight -/

section
variable {x y z : NodeState} {outCap : Nat}

theorem batch_of_cells {ws : List Word} (cells : cellsFrom x.sendData 0 x.lss.toNat = ws.map .written) :
    x.batch = ws := by
  have as_filterMap : x.batch = (cellsFrom x.sendData 0 x.lss.toNat).filterMap Cell.word? := by
    simp [NodeState.batch, cellsFrom, List.filterMap_map]
  rw [as_filterMap, cells, List.filterMap_map]
  exact List.filterMap_some

/-- A batch whose cells are all written is those cells. -/
theorem cells_of_batch (staged : ∀ i < x.lss.toNat, x.sendData.read i ≠ .unwritten) :
    cellsFrom x.sendData 0 x.lss.toNat = x.batch.map .written := by
  obtain ⟨ws, cells⟩ := (cellsFrom_written_iff x.sendData 0 x.lss.toNat).2 (by simpa using staged)
  rw [batch_of_cells cells, cells]

theorem batch_length (staged : ∀ i < x.lss.toNat, x.sendData.read i ≠ .unwritten) :
    x.batch.length = x.lss.toNat := by
  rw [← List.length_map Cell.written, ← cells_of_batch staged, cellsFrom_length]

theorem batch_of_lss_zero (lss_zero : x.lss = 0#16) : x.batch = [] := batch_of_cells (by rw [lss_zero]; rfl)

/-- Words that stand in the cells of a batch are a part of it. -/
theorem batch_part {ws : List Word} {i k : Nat} (staged : ∀ i < x.lss.toNat, x.sendData.read i ≠ .unwritten)
    (le_lss : i + k ≤ x.lss.toNat) (cells : cellsFrom x.sendData i k = ws.map .written) :
    ws = (x.batch.drop i).take k := by
  obtain ⟨l, lss_eq⟩ := Nat.exists_eq_add_of_le le_lss
  have batch_cells := cells_of_batch staged
  rw [lss_eq, cellsFrom_add, cellsFrom_add, Nat.zero_add, cells] at batch_cells
  rw [← map_written_inj, List.map_take, List.map_drop, ← batch_cells, List.append_assoc,
    List.drop_left' (cellsFrom_length _ _ _), List.take_left' (by rw [← cells, cellsFrom_length])]

/-- ADVANCE keeps the batch up to the base and puts the words it takes from IN behind it. -/
theorem batch_advance {handshake : Bool} (staged : ∀ i < x.lss.toNat, x.sendData.read i ≠ .unwritten)
    (advanced : advanceNode handshake outCap x = .ok y) :
    y.batch = x.batch.take (stageBase x) ++ x.inFifo.take (stagedWords handshake x) ∧
      y.inFifo = x.inFifo.drop (stagedWords handshake x) := by
  obtain ⟨ws, -, rfl⟩ := advanceNode_eq_ok advanced
  refine ⟨batch_of_cells ?_, rfl⟩
  have taken_length : (x.inFifo.take (stagedWords handshake x)).length = stagedWords handshake x :=
    List.length_take_of_le (stagedWords_le_length handshake x)
  have kept : cellsFrom x.sendData 0 (stageBase x) = (x.batch.take (stageBase x)).map .written := by
    obtain ⟨l, lss_eq⟩ := Nat.exists_eq_add_of_le (stageBase_le x)
    rw [List.map_take, ← cells_of_batch staged, lss_eq, cellsFrom_add, List.take_left' (cellsFrom_length _ _ _)]
  have added := cellsFrom_writeFrom x.sendData (stageBase x) (x.inFifo.take (stagedWords handshake x))
  rw [taken_length] at added
  simp only [advance_lss_toNat]
  rw [cellsFrom_add, cellsFrom_writeFrom_below, kept, Nat.zero_add, added, List.map_append]

/-! ## The words on their way, between two nodes -/

/-- The words on their way from node `x` to node `z`, oldest first. -/
def flow (x z : NodeState) : List Word := z.outFifo ++ x.batch.drop z.lrs.toNat ++ x.inFifo

theorem pipeline_eq_flow (s : State) (n : Node) : s.pipeline n = flow (s.node n) (s.node n.peer) := rfl

/-- ADVANCE of the sender only moves words from IN to the end of the batch: what it reclaims was delivered. -/
theorem Linked.flow_advance_sender (link : Linked x z) (staged : ∀ i < x.lss.toNat, x.sendData.read i ≠ .unwritten)
    (advanced : advanceNode true outCap x = .ok y) : flow y z = flow x z := by
  obtain ⟨batch_eq, in_eq⟩ := batch_advance staged advanced
  have length_eq := batch_length staged
  rw [flow, flow, batch_eq, in_eq, List.append_assoc, List.append_assoc]
  congr 1
  obtain ⟨standing, base_eq, -⟩ | ⟨reclaimed, rrs_pos, base_eq, none_staged⟩ | ⟨lss_zero, rrs_zero, base_eq, -⟩ :=
    stage_cases x
  · have lss_pos : x.lss ≠ 0#16 := fun lss_zero => BitVec.not_lt_zero (lss_zero ▸ standing)
    obtain ⟨-, lrs_le, rss_le, -⟩ := link.flight lss_pos
    have in_batch : z.lrs.toNat ≤ x.batch.length := length_eq ▸ BitVec.le_def.1 (BitVec.le_trans lrs_le rss_le)
    rw [base_eq, ← length_eq, List.take_length, List.drop_append_of_le_length in_batch, List.append_assoc,
      List.take_append_drop]
  · have delivered : x.batch.drop z.lrs.toNat = [] := by
      rw [List.drop_eq_nil_iff, length_eq]
      by_cases lss_zero : x.lss = 0#16
      · simp [lss_zero]
      · exact BitVec.le_def.1 (BitVec.le_trans reclaimed (link.flight lss_zero).1)
    rw [base_eq, none_staged, delivered]
    simp
  · obtain ⟨-, lrs_zero⟩ := link.rewound lss_zero rrs_zero
    rw [batch_of_lss_zero lss_zero, lrs_zero]
    simp

/-- The words that Deliver reads are the next words of the batch in flight. -/
theorem Linked.delivered_eq (link : Linked x z) (staged : ∀ i < x.lss.toNat, x.sendData.read i ≠ .unwritten)
    {ws : List Word} (delivered : cellsFrom z.recvData z.lrs.toNat (deliverCount outCap z) = ws.map .written) :
    ws = (x.batch.drop z.lrs.toNat).take (deliverCount outCap z) := by
  have count_le : deliverCount outCap z ≤ z.rss.toNat - z.lrs.toNat := Nat.min_le_left _ _
  obtain none_delivered | some_delivered := Nat.eq_zero_or_pos (deliverCount outCap z)
  · rw [none_delivered] at delivered ⊢
    rw [List.take_zero, ← List.length_eq_zero_iff, length_of_cellsFrom delivered]
  · have last_lt : z.rss.toNat - 1 < x.lss.toNat := (link.undelivered_cell (by omega) (by omega)).1
    refine batch_part staged (by omega) (Eq.trans (cellsFrom_congr fun j lrs_le lt_count => ?_) delivered)
    exact (link.undelivered_cell lrs_le (by omega)).2.symm

/-- A receiver that has nothing to receive stands at the start of the batch, or there is none. -/
theorem Linked.drop_of_rss_zero (link : Linked x z) (rss_zero : z.rss = 0#16) : x.batch.drop z.lrs.toNat = x.batch := by
  by_cases lss_zero : x.lss = 0#16
  · rw [batch_of_lss_zero lss_zero, List.drop_nil]
  · have lrs_zero : z.lrs = 0#16 := BitVec.le_zero_iff.1 (rss_zero ▸ (link.flight lss_zero).2.1)
    rw [lrs_zero]
    rfl

/-- ADVANCE of the receiver only moves words from the batch to OUT. -/
theorem Linked.flow_advance_receiver (link : Linked x z) (staged : ∀ i < x.lss.toNat, x.sendData.read i ≠ .unwritten)
    (advanced : advanceNode true outCap z = .ok y) : flow x y = flow x z := by
  obtain ⟨ws, delivered, rfl⟩ := advanceNode_eq_ok advanced
  have ws_eq := link.delivered_eq staged delivered
  simp only [flow]
  by_cases rss_zero : z.rss = 0#16
  · have none_delivered : deliverCount outCap z = 0 := by simp [deliverCount, rss_zero]
    rw [none_delivered, List.take_zero] at ws_eq
    rw [if_pos ⟨trivial, rss_zero⟩, ws_eq, link.drop_of_rss_zero rss_zero, List.append_nil]
    rfl
  · rw [if_neg fun h => rss_zero h.2, deliver_lrs_toNat, ws_eq, List.append_assoc z.outFifo, ← List.drop_drop,
      List.take_append_drop]

end

/-! ## ADVANCE, XCHG and the instructions that only observe -/

section
variable {s t : State} {m n : Node} {i : Instr}

theorem pipeline_raise (s : State) (n : Node) (code : FaultCode) : (s.raise code).pipeline n = s.pipeline n := by
  simp only [pipeline_eq_flow, State.node_raise]

theorem pipeline_answer (s : State) (n : Node) (v : Word) : (s.answer v).pipeline n = s.pipeline n := by
  simp only [pipeline_eq_flow, State.node_answer]

theorem exec_advance_pipeline (wf : s.Wf) (handshake : s.cfg.handshake = true) (link : Link n s)
    (executed : exec (.advance m) s = .next t) : t.pipeline n = s.pipeline n := by
  obtain ⟨-, rfl⟩ | ⟨-, -, rfl⟩ | ⟨y, -, advanced, rfl⟩ := execAdvance_cases executed
  · exact pipeline_raise s n _
  · exact pipeline_raise s n _
  · rw [handshake] at advanced
    have staged := (wf.node_wf n).staged
    rw [pipeline_eq_flow, pipeline_eq_flow, State.node_done, State.node_done]
    obtain rfl | rfl := m.eq_or_eq_peer n
    · rw [State.node_setNode, State.node_peer_setNode]
      exact ((link_iff m s).1 link).flow_advance_sender staged advanced
    · rw [State.node_setNode, State.node_setNode_peer]
      exact ((link_iff n s).1 link).flow_advance_receiver staged advanced

theorem exec_xchg_pipeline (executed : exec .xchg s = .next t) : t.pipeline n = s.pipeline n := by
  obtain ⟨-, rfl⟩ | ⟨-, -, rfl⟩ | ⟨-, -, rfl⟩ := execXchg_cases executed
  · exact pipeline_raise s n _
  · exact pipeline_raise s n _
  · cases n <;> rfl

end

/-- Settles O27: ADVANCE by the two rules of the link, and XCHG writes no field that the words are read from. -/
theorem advanceAndXchgConserveWords : Obligations.AdvanceAndXchgConserveWords := by
  intro i s t n wf handshake link moves executed
  obtain rfl | rfl | rfl := moves
  · exact exec_advance_pipeline wf handshake link executed
  · exact exec_advance_pipeline wf handshake link executed
  · exact exec_xchg_pipeline executed

/-! ## The traffic of a run -/

/-- The operations of the engine path that move no word of it: they observe, or write a frame buffer. -/
def movesNoWord : Instr → Bool
  | .fsize _ _ | .ffree _ _ | .fpeek _ _ _ | .rdreg _ _ | .rdarr _ _ _ | .frame _ _ | .setRxf _ _ _ => true
  | _ => false

/-- The words popped from OUT of the peer of `n`, then those on their way, are the words pushed into IN of `n`. -/
def Accounted (n : Node) (s : State) (h : Traffic) : Prop := h.popped ++ s.pipeline n = h.pushed

section
variable {s t : State} {m n : Node} {i : Instr} {h : Traffic}

theorem NodeChange.only_rxFrame {y : NodeState} (change : NodeChange s m i y) (quiet : movesNoWord i = true) :
    y = { s.node m with rxFrame := y.rxFrame } := by
  cases change with
  | frame | setRxf => rfl
  | @word k | @lastWord k => cases k <;> exact absurd quiet nofun
  | _ => exact absurd quiet nofun

theorem exec_quiet_pipeline (executed : exec i s = .next t) (quiet : movesNoWord i = true) :
    t.pipeline n = s.pipeline n := by
  have kept (m : Node) : t.node m = { s.node m with rxFrame := (t.node m).rxFrame } := by
    obtain same | change := exec_node executed m
    · rw [same]
    · exact change.only_rxFrame quiet
  rw [pipeline_eq_flow, kept n, kept n.peer]
  rfl

theorem Accounted.of_pipeline (accounted : Accounted n s h) (same : t.pipeline n = s.pipeline n) : Accounted n t h := by
  rw [Accounted, same]
  exact accounted

/-- A push into IN of `n` puts its word behind all others; one into the other IN leaves them. -/
theorem Accounted.fpush {w : Word} (accounted : Accounted n s h) (executed : exec (.fpush m .input w) s = .next t) :
    Accounted n t (h.after n (.fpush m .input w) t) := by
  obtain ⟨-, rfl⟩ | ⟨-, rfl⟩ := execFpush_cases executed
  · have not_pushed : ¬ (m = n ∧ (s.answer (boolWord false)).result = some (boolWord true)) := by
      rintro ⟨-, h⟩
      exact absurd (Option.some.inj h) (by decide)
    rw [Traffic.after, if_neg not_pushed]
    exact accounted.of_pipeline (pipeline_answer s n _)
  · generalize pushed : s.setNode m ((s.node m).setFifo .input ((s.node m).fifo .input ++ [w])) = u
    obtain rfl | rfl := m.eq_or_eq_peer n
    · rw [Traffic.after, if_pos ⟨rfl, rfl⟩]
      have behind : (u.answer (boolWord true)).pipeline m = s.pipeline m ++ [w] := by
        subst pushed
        rw [pipeline_answer, pipeline_eq_flow, State.node_setNode, State.node_peer_setNode]
        exact (List.append_assoc _ _ _).symm
      rw [Accounted, behind, ← List.append_assoc, accounted]
    · rw [Traffic.after, if_neg fun h => n.peer_ne h.1]
      subst pushed
      refine accounted.of_pipeline ((pipeline_answer _ n _).trans ?_)
      rw [pipeline_eq_flow, State.node_setNode_peer, State.node_setNode]
      rfl

/-- A pop from OUT of the peer of `n` takes the first of all words; one from the other OUT leaves them. -/
theorem Accounted.fpop (accounted : Accounted n s h) (executed : exec (.fpop m .output) s = .next t) :
    Accounted n t (h.after n (.fpop m .output) t) := by
  obtain ⟨-, rfl⟩ | ⟨v, rest, front, rfl⟩ := execFpop_cases executed
  · have not_popped : h.after n (.fpop m .output) (s.raise .fifoRange) = h := ite_self h
    rw [not_popped]
    exact accounted.of_pipeline (pipeline_raise s n _)
  · obtain rfl | rfl := m.eq_or_eq_peer n
    · rw [Traffic.after, if_neg m.ne_peer]
      refine accounted.of_pipeline ((pipeline_answer _ m _).trans ?_)
      rw [pipeline_eq_flow, State.node_setNode, State.node_peer_setNode]
      rfl
    · have front_first : s.pipeline n =
          v :: ((s.setNode n.peer ((s.node n.peer).setFifo .output rest)).answer v).pipeline n := by
        rw [pipeline_answer, pipeline_eq_flow, pipeline_eq_flow, State.node_setNode, State.node_setNode_peer, flow,
          show (s.node n.peer).outFifo = v :: rest from front]
        rfl
      rw [Accounted, front_first] at accounted
      rw [Traffic.after, if_pos rfl, Accounted, ← accounted]
      exact List.append_assoc _ _ _

/-- One instruction of the engine path keeps the account. -/
theorem Accounted.exec (wf : s.Wf) (handshake : s.cfg.handshake = true) (link : Link n s) (use : i.linkUse = true)
    (accounted : Accounted n s h) (executed : exec i s = .next t) : Accounted n t (h.after n i t) := by
  cases i with
  | advance m => exact accounted.of_pipeline (exec_advance_pipeline wf handshake link executed)
  | xchg => exact accounted.of_pipeline (exec_xchg_pipeline executed)
  | fpush m q w =>
    cases q with
    | input => exact accounted.fpush executed
    | output => exact absurd use nofun
  | fpop m q =>
    cases q with
    | input => exact absurd use nofun
    | output => exact accounted.fpop executed
  | fsize | ffree | fpeek | rdreg | rdarr | frame | setRxf =>
    exact accounted.of_pipeline (exec_quiet_pipeline executed rfl)
  | encode | decode | init | destroy | setRecv | setRss | setRrs | idle | escape | underrun | overrun | literal =>
    exact absurd use nofun

theorem linkUse_keeps_link (use : i.linkUse = true) : i.breaksLink = false := by
  cases i with
  | init | destroy | setRecv | setRss | setRrs => exact absurd use nofun
  | _ => rfl

end

/-- Settles O28, by induction on the run: one instruction keeps the account, and what the next one needs. -/
theorem wordsArriveOnceInOrder : Obligations.WordsArriveOnceInOrder := by
  intro is
  induction is with
  | nil =>
    intro s t n h k _ _ _ _ ran accounted
    simp only [runTraffic, Option.some.injEq, Prod.mk.injEq] at ran
    obtain ⟨rfl, rfl⟩ := ran
    exact accounted
  | cons i is ih =>
    intro s t n h k wf handshake link uses ran accounted
    obtain ⟨use, uses⟩ := List.forall_mem_cons.1 uses
    cases executed : exec i s with
    | next u =>
      simp only [runTraffic, executed] at ran
      exact ih u t n (h.after n i u) k (exec_wf wf executed) (by rw [exec_cfg executed, handshake])
        (linkSurvivesEveryOtherInstruction i s u n wf handshake link (linkUse_keeps_link use) executed) uses ran
        (Accounted.exec wf handshake link use accounted executed)
    | fault | refused =>
      simp only [runTraffic, executed] at ran
      exact absurd ran nofun

end Sys2Proof.Machine
end

section
/-! Bounded progress (`40_engine.md` R161, R163): one round of ADVANCE, XCHG and ADVANCE of the peer, from rest. -/

namespace Sys2Proof.Machine

section
variable {x y z : NodeState} {outCap : Nat}

/-- From rest ADVANCE makes a batch of as many words as fit. -/
theorem batch_of_rest (staged : ∀ i < x.lss.toNat, x.sendData.read i ≠ .unwritten) (lss_zero : x.lss = 0#16)
    (rrs_zero : x.rrs = 0#16) (advanced : advanceNode true outCap x = .ok y) :
    y.batch = x.inFifo.take x.cap.toNat ∧ y.inFifo = x.inFifo.drop x.cap.toNat := by
  obtain ⟨batch_eq, in_eq⟩ := batch_advance staged advanced
  obtain ⟨standing, -⟩ | ⟨-, rrs_pos, -⟩ | ⟨-, -, base_eq, words_eq⟩ := stage_cases x
  · exact absurd (lss_zero ▸ standing) BitVec.not_lt_zero
  · exact absurd rrs_zero rrs_pos
  · rw [batch_eq, in_eq, base_eq, words_eq]
    obtain le | le := Nat.le_total x.cap.toNat x.inFifo.length
    · rw [Nat.min_eq_left le]
      exact ⟨rfl, rfl⟩
    · rw [Nat.min_eq_right le, List.take_length, List.drop_length, List.take_of_length_le le, List.drop_of_length_le le]
      exact ⟨rfl, rfl⟩

/-- A receiver at the start of a batch that it has room for delivers all of it. -/
theorem deliver_received (staged : ∀ i < y.lss.toNat, y.sendData.read i ≠ .unwritten) (recv_wf : z.recvData.wf)
    (lrs_zero : z.lrs = 0#16) (room : y.batch.length ≤ outCap - z.outFifo.length) :
    cellsFrom (receiveFrom y z).recvData (receiveFrom y z).lrs.toNat (deliverCount outCap (receiveFrom y z)) =
      y.batch.map .written := by
  have count_eq : deliverCount outCap (receiveFrom y z) = y.lss.toNat := by
    rw [batch_length staged] at room
    simpa [deliverCount, receiveFrom, lrs_zero, fifoFree] using room
  rw [count_eq, ← cells_of_batch staged, show (receiveFrom y z).lrs = 0#16 from lrs_zero]
  refine cellsFrom_congr fun i _ i_lt => ?_
  exact (copyCells_read y.sendData y.lss.toNat recv_wf i).trans (if_pos (by simpa using i_lt))

end

/-- Settles O31: ADVANCE makes the batch, XCHG copies it, and ADVANCE of the peer delivers all of it. -/
theorem oneRoundDeliversABatch : Obligations.OneRoundDeliversABatch := by
  intro s n wf handshake link active cap_eq lss_zero rrs_zero rss_zero lrs_zero room
  obtain ⟨y, advanced, advance_n⟩ := exec_advance_linked wf (active n) (link n.peer)
  have y_wf := advanceNode_wf (wf.node_wf n) advanced
  obtain ⟨life_eq, y_cap_eq, -⟩ := advanceNode_frame advanced
  rw [handshake] at advanced
  obtain ⟨batch_eq, in_eq⟩ := batch_of_rest (wf.node_wf n).staged lss_zero rrs_zero advanced
  generalize t_eq : (s.setNode n y).done = t at advance_n
  have t_node : t.node n = y := by rw [← t_eq, node_setNode_done]
  have t_peer : t.node n.peer = s.node n.peer := by rw [← t_eq, State.node_done, State.node_peer_setNode]
  have t_cfg : t.cfg = s.cfg := by rw [← t_eq, State.done_cfg, State.setNode_cfg]
  have t_fault : t.fault = s.fault := by rw [← t_eq, State.done_fault, State.setNode_fault]
  have xchg : exec .xchg t = .next t.exchanged := by
    refine exec_xchg_of_fits (both_nodes (n := n) ?_ ?_) (both_nodes (n := n) ?_ ?_)
    · rw [t_node, life_eq, active n]
    · rw [t_peer, active n.peer]
    · rw [t_node, t_peer, ← cap_eq, ← y_cap_eq]
      exact y_wf.lss_le
    · rw [Node.peer_peer, t_node, t_peer, y_cap_eq, cap_eq]
      exact (wf.node_wf n.peer).lss_le
  have u_peer : t.exchanged.node n.peer = receiveFrom y (s.node n.peer) := by
    rw [State.exchanged_node_peer, t_node, t_peer]
  have delivered := advanceNode_ok (handshake := s.cfg.handshake)
    (deliver_received (outCap := fifoCap s.cfg n.peer .output) y_wf.staged (wf.node_wf n.peer).recv_wf lrs_zero
      (by rw [batch_eq, List.length_take]; exact room))
  have advance_peer := exec_advance_of_ok (s := t.exchanged) (n := n.peer) (by rw [u_peer]; exact active n.peer)
    (by rw [u_peer, show t.exchanged.cfg = s.cfg from t_cfg]; exact delivered)
  refine ⟨t, t.exchanged, _, advance_n, xchg, advance_peer, ?_, ?_, ?_⟩
  · rw [State.done_fault, State.setNode_fault, ← t_fault]
    rfl
  · rw [node_setNode_done, ← batch_eq]
    rfl
  · rw [State.node_done, State.node_setNode_peer, State.exchanged_node, t_node, ← in_eq]
    rfl

end Sys2Proof.Machine
end

section
/-! Words and instructions (`30_encoding.md` R101 to R112, R120): decoding takes back every encoding, every legal word
is the encoding of what it decodes to, and each frame word has one kind. -/

namespace Sys2Proof

/-! ## Decoding takes back the encoding of every operation -/

section
variable {op : BitVec 8} {sel : BitVec 7} {n : Node} {arg : Count} {d : Word} {i : Instr}

theorem carriesData_packOp :
    carriesData (packOp op sel n arg) = (op = 0x12#8 || op = 0x15#8 || op = 0x20#8) := by
  rw [carriesData, opOf_packOp]

theorem decodeWords_of_plain (rest : List Word) (plain : (op = 0x12#8 || op = 0x15#8 || op = 0x20#8) = false)
    (decoded : decodeOp (packOp op sel n arg) 0#32 = .ok i) :
    decodeWords (packOp op sel n arg :: rest) = .ok (i, rest) := by
  simp only [decodeWords.eq_def, carriesData_packOp, plain, decoded]
  rfl

theorem decodeWords_of_data (rest : List Word) (carries : (op = 0x12#8 || op = 0x15#8 || op = 0x20#8) = true)
    (decoded : decodeOp (packOp op sel n arg) d = .ok i) :
    decodeWords (packOp op sel n arg :: d :: rest) = .ok (i, rest) := by
  simp only [decodeWords, carriesData_packOp, carries, decoded]
  rfl

end

/-- Settles O4: the decoder reads back each packed word, and the DATA word of the three operations that carry one. -/
theorem operationWordsRoundTrip : Obligations.OperationWordsRoundTrip := by
  intro c i rest operation
  cases i with
  | advance n => exact decodeWords_of_plain rest rfl (decodeOp_packOp_advance n _)
  | encode n arg => exact decodeWords_of_plain rest rfl (decodeOp_packOp_encode n arg _)
  | decode n arg => exact decodeWords_of_plain rest rfl (decodeOp_packOp_decode n arg _)
  | init n arg => exact decodeWords_of_plain rest rfl (decodeOp_packOp_init n arg _)
  | destroy n => exact decodeWords_of_plain rest rfl (decodeOp_packOp_destroy n _)
  | xchg => exact decodeWords_of_plain rest rfl (decodeOp_packOp_xchg _)
  | frame n arg => exact decodeWords_of_plain rest rfl (decodeOp_packOp_frame n arg _)
  | setRecv n arg d => exact decodeWords_of_data rest rfl (decodeOp_packOp_setRecv n arg d)
  | setRss n arg => exact decodeWords_of_plain rest rfl (decodeOp_packOp_setRss n arg _)
  | setRrs n arg => exact decodeWords_of_plain rest rfl (decodeOp_packOp_setRrs n arg _)
  | setRxf n arg d => exact decodeWords_of_data rest rfl (decodeOp_packOp_setRxf n arg d)
  | fpush n q d => exact decodeWords_of_data rest rfl (decodeOp_packOp_fpush n q d)
  | fpop n q => exact decodeWords_of_plain rest rfl (decodeOp_packOp_fpop n q _)
  | fsize n q => exact decodeWords_of_plain rest rfl (decodeOp_packOp_fsize n q _)
  | ffree n q => exact decodeWords_of_plain rest rfl (decodeOp_packOp_ffree n q _)
  | fpeek n q arg => exact decodeWords_of_plain rest rfl (decodeOp_packOp_fpeek n q arg _)
  | rdreg n r => exact decodeWords_of_plain rest rfl (decodeOp_packOp_rdreg n r _)
  | rdarr n x arg => exact decodeWords_of_plain rest rfl (decodeOp_packOp_rdarr n x arg _)
  | idle | escape | underrun | overrun | literal => exact absurd operation nofun

/-! ## A legal word is the encoding of what it decodes to -/

section
variable {w d : Word} {op : BitVec 8} {sel : BitVec 7} {arg : Count}

theorem packOp_eq (op_eq : (opOf w).toNat = op.toNat) (sel_eq : selOf w = sel) (arg_eq : argOf w = arg) :
    packOp op sel (nodeOf w) arg = w := by
  rw [← BitVec.eq_of_toNat_eq op_eq, ← sel_eq, ← arg_eq, packOp_fields]

theorem plain_word (op_eq : (opOf w).toNat = op.toNat) (sel_eq : selOf w = sel) (arg_eq : argOf w = arg)
    (plain : (op = 0x12#8 || op = 0x15#8 || op = 0x20#8) = false) :
    [packOp op sel (nodeOf w) arg] = if carriesData w then [w, d] else [w] := by
  rw [carriesData, BitVec.eq_of_toNat_eq op_eq, plain, packOp_eq op_eq sel_eq arg_eq]
  rfl

theorem data_word (op_eq : (opOf w).toNat = op.toNat) (sel_eq : selOf w = sel) (arg_eq : argOf w = arg)
    (carries : (op = 0x12#8 || op = 0x15#8 || op = 0x20#8) = true) :
    [packOp op sel (nodeOf w) arg, d] = if carriesData w then [w, d] else [w] := by
  rw [carriesData, BitVec.eq_of_toNat_eq op_eq, carries, packOp_eq op_eq sel_eq arg_eq]
  rfl

/-- A selector that names `x` is the number of `x`. -/
theorem sel_of_ofSel {α : Type} {ofSel : BitVec 7 → Option α} {sel : α → BitVec 7} {top : Nat}
    (cases_ofSel : ∀ v, (∃ x, ofSel v = some x ∧ sel x = v) ∨ ofSel v = none ∧ top < v.toNat) {v : BitVec 7} {x : α}
    (named : ofSel v = some x) : v = sel x := by
  obtain ⟨y, named', sel_eq⟩ | ⟨unnamed, -⟩ := cases_ofSel v
  · rw [← sel_eq, Option.some.inj (named'.symm.trans named)]
  · exact absurd (unnamed.symm.trans named) nofun

end

/-- Settles O5: row by row, the checks of the decoder leave no bit of the word open that the encoder does not write. -/
theorem legalWordsAreEncodings : Obligations.LegalWordsAreEncodings := by
  intro c w d i decoded
  unfold decodeOp at decoded
  split at decoded <;>
    simp only [needSelZero_eq_ok, needArgZero_eq_ok, needNodeZero_eq_ok, needSel_eq_ok, Except.ok.injEq, reduceCtorEq]
      at decoded
  case h_1 op | h_5 op =>
    obtain ⟨sel, arg, rfl⟩ := decoded
    exact plain_word op sel arg rfl
  case h_6 op =>
    obtain ⟨sel, arg, node, rfl⟩ := decoded
    have word := plain_word (d := d) (op := 0x10#8) op sel arg rfl
    rwa [node] at word
  case h_2 op | h_3 op | h_4 op | h_7 op | h_9 op | h_10 op =>
    obtain ⟨sel, rfl⟩ := decoded
    exact plain_word op sel rfl rfl
  case h_8 op | h_11 op =>
    obtain ⟨sel, rfl⟩ := decoded
    exact data_word op sel rfl rfl
  case h_12 op =>
    obtain ⟨q, sel, arg, rfl⟩ := decoded
    exact data_word op (sel_of_ofSel FifoSel.ofSel_cases sel) arg rfl
  case h_13 op | h_14 op | h_15 op =>
    obtain ⟨q, sel, arg, rfl⟩ := decoded
    exact plain_word op (sel_of_ofSel FifoSel.ofSel_cases sel) arg rfl
  case h_16 op =>
    obtain ⟨q, sel, rfl⟩ := decoded
    exact plain_word op (sel_of_ofSel FifoSel.ofSel_cases sel) rfl rfl
  case h_17 op =>
    obtain ⟨r, sel, arg, rfl⟩ := decoded
    exact plain_word op (sel_of_ofSel RegSel.ofSel_cases sel) arg rfl
  case h_18 op =>
    obtain ⟨x, sel, rfl⟩ := decoded
    exact plain_word op (sel_of_ofSel ArrSel.ofSel_cases sel) rfl rfl

/-! ## The worked encodings (R120) -/

/-- Settles O3: each word of the table is the packed word of its row, and each illegal example fails a check (R105). -/
theorem workedEncodingsDecode : Obligations.WorkedEncodingsDecode := by
  refine ⟨fun d => ?rows, ?setRecv, ?setRxf, ?fpushA, ?fpushB, fun d => ?illegal⟩
  case rows =>
    exact ⟨decodeOp_packOp_advance .a d, decodeOp_packOp_advance .b d, decodeOp_packOp_encode .a 5#16 d,
      decodeOp_packOp_decode .b 5#16 d, decodeOp_packOp_init .a 1#16 d, decodeOp_packOp_init .a 512#16 d,
      decodeOp_packOp_init .b 512#16 d, decodeOp_packOp_destroy .b d, decodeOp_packOp_xchg d,
      decodeOp_packOp_frame .a 5#16 d, decodeOp_packOp_setRss .a 1#16 d, decodeOp_packOp_setRrs .b 2#16 d,
      decodeOp_packOp_fpop .a .output d, decodeOp_packOp_fpop .b .output d, decodeOp_packOp_fsize .a .input d,
      decodeOp_packOp_ffree .b .output d, decodeOp_packOp_fpeek .a .output 1#16 d, decodeOp_packOp_rdreg .a .lss d,
      decodeOp_packOp_rdreg .a .lrs d, decodeOp_packOp_rdreg .b .fxFlags d, decodeOp_packOp_rdreg .a .fxCount d,
      decodeOp_packOp_rdarr .a .sendData 0#16 d, decodeOp_packOp_rdarr .b .rxFrame 2#16 d⟩
  case setRecv => exact decodeOp_packOp_setRecv .a 0#16 _
  case setRxf => exact decodeOp_packOp_setRxf .b 3#16 _
  case fpushA => exact decodeOp_packOp_fpush .a .input _
  case fpushB => exact decodeOp_packOp_fpush .b .input _
  case illegal =>
    simp only [List.forall_mem_cons]
    exact ⟨⟨.unassignedOp, rfl⟩, ⟨.selNotZero, rfl⟩, ⟨.argNotZero, rfl⟩, ⟨.nodeNotZero, rfl⟩, ⟨.selTooLarge, rfl⟩,
      ⟨.selTooLarge, rfl⟩, nofun⟩

/-! ## The kinds of frame word (R112) -/

section
variable {c : Config}

/-- In a configuration of the spec each reserved value is of the kind of its name. -/
theorem classify_reserved (allowed : c.wf) :
    classify c c.rsvIdle = .idle ∧ classify c c.rsvEscape = .escape ∧
    classify c c.rsvUnderrun = .underrun ∧ classify c c.rsvOverrun = .overrun := by
  obtain ⟨-, -, -, -, -, -, idle_escape, idle_underrun, idle_overrun, escape_underrun, escape_overrun,
    underrun_overrun⟩ := allowed
  simp [classify, idle_escape.symm, idle_underrun.symm, idle_overrun.symm, escape_underrun, escape_overrun,
    underrun_overrun.symm]

theorem classify_of_not_reserved {w : Word} (plain : w ∉ c.rsv) : classify c w = .literal w := by
  obtain ⟨rfl, -⟩ | ⟨rfl, -⟩ | ⟨rfl, -⟩ | ⟨rfl, -⟩ | ⟨-, kind⟩ := classify_cases c w
  case inr.inr.inr.inr => exact kind
  all_goals exact absurd (by simp [Config.rsv]) plain

theorem decodeFrame_reserved (allowed : c.wf) :
    decodeFrame c c.rsvIdle = .idle ∧ decodeFrame c c.rsvEscape = .escape ∧
    decodeFrame c c.rsvUnderrun = .underrun ∧ decodeFrame c c.rsvOverrun = .overrun := by
  obtain ⟨idle, escape, underrun, overrun⟩ := classify_reserved allowed
  simp [decodeFrame, idle, escape, underrun, overrun, FrameWord.toInstr]

theorem decodeFrame_of_not_reserved {w : Word} (plain : w ∉ c.rsv) : decodeFrame c w = .literal w := by
  rw [decodeFrame, classify_of_not_reserved plain, FrameWord.toInstr]

theorem encode_decodeFrame (c : Config) (w : Word) : encode c (decodeFrame c w) = [w] := by
  obtain ⟨rfl, kind⟩ | ⟨rfl, kind⟩ | ⟨rfl, kind⟩ | ⟨rfl, kind⟩ | ⟨-, kind⟩ := classify_cases c w <;>
    rw [decodeFrame, kind] <;> rfl

theorem not_reserved_of_decodeFrame {w v : Word} (read : decodeFrame c w = .literal v) : w ∉ c.rsv := by
  obtain ⟨-, kind⟩ | ⟨-, kind⟩ | ⟨-, kind⟩ | ⟨-, kind⟩ | ⟨plain, -⟩ := classify_cases c w
  case inr.inr.inr.inr => exact plain
  all_goals
    rw [decodeFrame, kind] at read
    exact absurd read nofun

/-- A frame word is the encoding of what it reads as, so it is the one word of that encoding. -/
theorem eq_of_decodeFrame {w v : Word} {i : Instr} (read : decodeFrame c w = i) (encoded : encode c i = [v]) :
    w = v := by
  have same := encode_decodeFrame c w
  rw [read, encoded] at same
  exact (List.singleton_inj.1 same).symm

end

/-- Settles O7: one way by `decodeFrame_reserved` and `decodeFrame_of_not_reserved`, the other since a word is the
encoding of its kind. -/
theorem frameWordsHaveOneKind : Obligations.FrameWordsHaveOneKind := by
  intro c w allowed
  obtain ⟨idle, escape, underrun, overrun⟩ := decodeFrame_reserved allowed
  refine ⟨⟨fun read => eq_of_decodeFrame read rfl, fun h => h ▸ idle⟩,
    ⟨fun read => eq_of_decodeFrame read rfl, fun h => h ▸ escape⟩,
    ⟨fun read => eq_of_decodeFrame read rfl, fun h => h ▸ underrun⟩,
    ⟨fun read => eq_of_decodeFrame read rfl, fun h => h ▸ overrun⟩, fun v => ⟨fun read => ?_, ?_⟩,
    encode_decodeFrame c w⟩
  · exact ⟨(eq_of_decodeFrame read rfl).symm, not_reserved_of_decodeFrame read⟩
  · rintro ⟨rfl, plain⟩
    exact decodeFrame_of_not_reserved plain

/-- Settles O8: a well-formed frame word is a reserved value, or a word outside the reserved set. -/
theorem frameWordsRoundTrip : Obligations.FrameWordsRoundTrip := by
  intro c i allowed wf not_operation
  obtain ⟨idle, escape, underrun, overrun⟩ := decodeFrame_reserved allowed
  cases i with
  | idle => exact ⟨_, rfl, idle⟩
  | escape => exact ⟨_, rfl, escape⟩
  | underrun => exact ⟨_, rfl, underrun⟩
  | overrun => exact ⟨_, rfl, overrun⟩
  | literal w => exact ⟨w, rfl, decodeFrame_of_not_reserved (of_decide_eq_true wf)⟩
  | _ => exact absurd not_operation nofun

end Sys2Proof
end

section
/-! The step (R70, R272, R285), the frame words as instructions (R112, R191 to R195; log 6), a repeated XCHG (R249). -/

namespace Sys2Proof.Machine

/-! ## What a step executes -/

section
variable {s : State}

theorem step_of_operation {q : Issue} {rest : List Issue} {i : Instr} (no_fault : s.fault = none)
    (no_scan : s.scan = none) (head : s.issued = q :: rest) (decoded : decodeOp q.word q.data = .ok i) :
    step s = exec i (s.accept q rest) := by
  simp only [step, no_fault, fetch_of_issued no_scan head, decoded]

theorem fetch_of_written {sc : Scan} {w : Word} (scanning : s.scan = some sc)
    (cell : (s.node sc.node).rxFrame.read sc.pos = .written w) : fetch s = .frameWord w := by
  simp only [fetch, scanning, cell]

theorem step_of_frameWord {sc : Scan} {w : Word} (no_fault : s.fault = none) (scanning : s.scan = some sc)
    (cell : (s.node sc.node).rxFrame.read sc.pos = .written w) : step s = exec (decodeFrame s.cfg w) s := by
  simp only [step, no_fault, fetch_of_written scanning cell]

theorem step_of_fault {code : FaultCode} (faulted : s.fault = some code) : step s = .fault (.stopped code) := by
  simp only [step, faulted]

end

/-- Settles O9: the operation leaves the queue by `State.accept`. -/
theorem stepRunsIssuedOperation : Obligations.StepRunsIssuedOperation :=
  fun _ _ _ _ no_fault no_scan head decoded => step_of_operation no_fault no_scan head decoded

/-- Settles O10: with a scan in progress the step fetches the frame word at its place. -/
theorem stepRunsFrameWord : Obligations.StepRunsFrameWord :=
  fun _ _ _ no_fault scanning cell => step_of_frameWord no_fault scanning cell

/-- Settles O11: the step reads the fault record before all else. -/
theorem faultedStateHasNoStep : Obligations.FaultedStateHasNoStep := fun _ _ faulted => step_of_fault faulted

/-! ## Frame words (log 6) -/

section
variable {s : State} {k : FrameWord} {sc sd : Scan} {x : NodeState}

theorem exec_frameWord_of_no_scan (k : FrameWord) (no_scan : s.scan = none) :
    exec k.toInstr s = .refused .noFrameScan := by
  simp only [exec_frameWord, runFrameWord, no_scan]

theorem exec_frameWord_of_ok (scanning : s.scan = some sc)
    (scanned : scanWord (fifoCap s.cfg sc.node .output) k (s.node sc.node) sc = .ok (x, sd)) :
    exec k.toInstr s = .next (s.afterWord sc.node x sd) := by
  simp only [exec_frameWord, runFrameWord, scanning, scanned, commit_ok]

theorem exec_frameWord_of_error {code : FaultCode} (scanning : s.scan = some sc)
    (failed : scanWord (fifoCap s.cfg sc.node .output) k (s.node sc.node) sc = .error code) :
    exec k.toInstr s = .next (s.raise code) := by
  simp only [exec_frameWord, runFrameWord, scanning, failed, commit_error]

/-- A frame word that delivers nothing leaves its node, until the flags are written at the end of the frame. -/
theorem afterWord_of_same_node (s : State) (n : Node) (sd : Scan) :
    s.afterWord n (s.node n) sd =
      if sd.pos < sd.len then { s with scan := some sd }
      else { s.setNode n { s.node n with fxFlags := sd.flags } with scan := none, result := none } := by
  rw [State.afterWord, State.setNode_node]

theorem afterWord_overflow (s : State) (n : Node) (sc : Scan) :
    s.afterWord n (s.node n) sc.overflow =
      { s.setNode n { s.node n with fxFlags := sc.flags ||| flagLocalRxOverflow } with scan := none, result := none } :=
  State.afterWord_of_ge (le_refl sc.len)

end

/-- Settles O44: the five meanings are `runFrameWord`, which reads the scan first. -/
theorem frameWordsNeedAScan : Obligations.FrameWordsNeedAScan := by
  intro s i no_scan not_operation
  cases i with
  | idle => exact exec_frameWord_of_no_scan .idle no_scan
  | escape => exact exec_frameWord_of_no_scan .escape no_scan
  | underrun => exact exec_frameWord_of_no_scan .underrun no_scan
  | overrun => exact exec_frameWord_of_no_scan .overrun no_scan
  | literal w => exact exec_frameWord_of_no_scan (.literal w) no_scan
  | _ => exact absurd not_operation nofun

/-- Settles O41: each of the three moves the scan on by one, after its flag. -/
theorem controlFrameWordsOnlySetFlags : Obligations.ControlFrameWordsOnlySetFlags := by
  intro s sc after scanning in_frame after_eq
  have moved (flags : Word) : s.afterWord sc.node (s.node sc.node) { sc with pos := sc.pos + 1, flags := flags } =
      after flags := by
    rw [afterWord_of_same_node, after_eq]
  refine ⟨?_, ?_, ?_⟩
  · exact (exec_frameWord_of_ok (k := .idle) scanning rfl).trans (congrArg _ (moved _))
  · exact (exec_frameWord_of_ok (k := .underrun) scanning rfl).trans (congrArg _ (moved _))
  · exact (exec_frameWord_of_ok (k := .overrun) scanning rfl).trans (congrArg _ (moved _))

/-- Settles O43: the word goes to the back of OUT, or OUT is full and the scan is over. -/
theorem literalIsDeliveredOrOverflows : Obligations.LiteralIsDeliveredOrOverflows := by
  intro s sc w scanning in_frame
  refine ⟨fun room => ?_, fun full => ?_⟩
  · have has_room : ¬ fifoFree (fifoCap s.cfg sc.node .output) (s.node sc.node).outFifo = 0 :=
      mt fifoFree_eq_zero.1 (not_le.2 room)
    exact exec_frameWord_of_ok (k := .literal w) scanning (if_neg has_room)
  · exact (exec_frameWord_of_ok (k := .literal w) scanning (if_pos (fifoFree_eq_zero.2 full))).trans
      (congrArg _ (afterWord_overflow s sc.node sc))

/-! ## ESCAPE (R192, R194, R195) -/

section
variable {outCap : Nat} {x : NodeState} {sc : Scan}

theorem scanEscape_last (last : sc.pos + 1 = sc.len) :
    scanEscape outCap x sc = .ok (x, (sc.mark flagTruncatedEscape).skip 1) := if_pos last

theorem scanEscape_full (not_last : sc.pos + 1 < sc.len) (full : outCap ≤ x.outFifo.length) :
    scanEscape outCap x sc = .ok (x, sc.overflow) := by
  rw [scanEscape, if_neg not_last.ne, if_pos (fifoFree_eq_zero.2 full)]

theorem scanEscape_written (not_last : sc.pos + 1 < sc.len) (room : x.outFifo.length < outCap) {d : Word}
    (cell : x.rxFrame.read (sc.pos + 1) = .written d) :
    scanEscape outCap x sc = .ok ({ x with outFifo := x.outFifo ++ [d] }, sc.skip 2) := by
  rw [scanEscape, if_neg not_last.ne, if_neg (mt fifoFree_eq_zero.1 (not_le.2 room)), cell]
  rfl

theorem scanEscape_unwritten (not_last : sc.pos + 1 < sc.len) (room : x.outFifo.length < outCap)
    (cell : x.rxFrame.read (sc.pos + 1) = .unwritten) : scanEscape outCap x sc = .error .unwritten := by
  rw [scanEscape, if_neg not_last.ne, if_neg (mt fifoFree_eq_zero.1 (not_le.2 room)), cell]

end

/-- Settles O42: an ESCAPE that is last, one that finds OUT full, and one that reads the cell after it. -/
theorem escapeDeliversTheNextWord : Obligations.EscapeDeliversTheNextWord := by
  intro s sc finish scanning in_frame finish_eq
  refine ⟨fun last => ?_, fun not_last full => ?_, fun not_last room => ⟨fun d cell => ?_, fun cell => ?_⟩⟩
  · rw [finish_eq]
    exact (exec_frameWord_of_ok (k := .escape) scanning (scanEscape_last last)).trans
      (congrArg _ (State.afterWord_of_ge (sd := (sc.mark flagTruncatedEscape).skip 1) last.ge))
  · rw [finish_eq]
    exact (exec_frameWord_of_ok (k := .escape) scanning (scanEscape_full not_last full)).trans
      (congrArg _ (afterWord_overflow s sc.node sc))
  · exact exec_frameWord_of_ok (k := .escape) scanning (scanEscape_written not_last room cell)
  · exact exec_frameWord_of_error (k := .escape) scanning (scanEscape_unwritten not_last room cell)

/-! ## A repeated XCHG (R249) -/

/-- The second copy finds the sender as it was and the cells copied already. -/
theorem receiveFrom_again {x z : NodeState} (recv_wf : x.recvData.wf) :
    receiveFrom (receiveFrom x z) (receiveFrom z x) = receiveFrom z x := by
  have copied : copyCells z.sendData z.lss.toNat (receiveFrom z x).recvData = (receiveFrom z x).recvData :=
    copyCells_self _ _ (copyCells_wf _ _ recv_wf) fun i i_lt => (copyCells_read _ _ recv_wf i).trans (if_pos i_lt)
  change { receiveFrom z x with recvData := copyCells z.sendData z.lss.toNat (receiveFrom z x).recvData } = _
  rw [copied]

/-- Settles O50: the checks pass again, since XCHG writes no lifecycle, capacity or send count. -/
theorem xchgTwiceIsXchgOnce : Obligations.XchgTwiceIsXchgOnce := by
  intro s t wf no_fault executed no_fault_t
  obtain ⟨-, rfl⟩ | ⟨-, -, rfl⟩ | ⟨active, fits, rfl⟩ := execXchg_cases executed
  · exact absurd no_fault_t nofun
  · exact absurd no_fault_t nofun
  · change exec .xchg s.exchanged = .next s.exchanged
    have again : s.exchanged.exchanged = s.exchanged := by
      have a := receiveFrom_again (z := s.nodeB) (wf.node_wf .a).recv_wf
      have b := receiveFrom_again (z := s.nodeA) (wf.node_wf .b).recv_wf
      exact congrArg₂ (fun x y => { s.exchanged with nodeA := x, nodeB := y }) a b
    rw [exec_xchg_of_fits, again]
    · intro m
      rw [State.exchanged_node]
      exact active m
    · intro m
      rw [State.exchanged_node, State.exchanged_node]
      exact fits m

end Sys2Proof.Machine
end

section
/-! The issuing agent (`60_exceptions.md` R285): every instruction commutes with a change of the recorded agent. -/

namespace Sys2Proof.Machine

/-- `s` with agent `y` recorded as the one whose operation was executed last. -/
def State.issuedBy (s : State) (y : Agent) : State := { s with issuer := some y }

/-- The outcome of an operation with agent `y` recorded in the state it answers. -/
def outcomeIssuedBy (y : Agent) : Host.Outcome State Fault Refusal → Host.Outcome State Fault Refusal
  | .next t => .next (t.issuedBy y)
  | .fault r => .fault r
  | .refused r => .refused r

section
variable (s : State) (n : Node) (x : NodeState) (y : Agent) (v : Word)

@[simp] theorem issuedBy_node : (s.issuedBy y).node n = s.node n := by cases n <;> rfl
@[simp] theorem issuedBy_cfg : (s.issuedBy y).cfg = s.cfg := rfl
@[simp] theorem issuedBy_scan : (s.issuedBy y).scan = s.scan := rfl
@[simp] theorem issuedBy_setNode : (s.issuedBy y).setNode n x = (s.setNode n x).issuedBy y := by cases n <;> rfl
@[simp] theorem issuedBy_done : (s.issuedBy y).done = s.done.issuedBy y := rfl
@[simp] theorem issuedBy_answer : (s.issuedBy y).answer v = (s.answer v).issuedBy y := rfl

@[simp] theorem commit_issuedBy_ok (t : State) :
    commit (s.issuedBy y) (.ok (t.issuedBy y)) = outcomeIssuedBy y (commit s (.ok t)) := rfl

@[simp] theorem issuedBy_afterWord (sc : Scan) : (s.issuedBy y).afterWord n x sc = (s.afterWord n x sc).issuedBy y := by
  unfold State.afterWord
  split <;> cases n <;> rfl

end

section
variable (s : State) (y : Agent)

theorem frameWord_issuedBy (k : FrameWord) :
    exec k.toInstr (s.issuedBy y) = outcomeIssuedBy y (exec k.toInstr s) := by
  rw [exec_frameWord, exec_frameWord, runFrameWord, runFrameWord, issuedBy_scan]
  cases s.scan with
  | none => rfl
  | some sc =>
    simp only [issuedBy_cfg, issuedBy_node]
    cases scanWord (fifoCap s.cfg sc.node .output) k (s.node sc.node) sc with
    | error code => rfl
    | ok r => simp only [issuedBy_afterWord, commit_issuedBy_ok]

/-- No instruction reads the recorded agent. -/
theorem exec_issuedBy (i : Instr) : exec i (s.issuedBy y) = outcomeIssuedBy y (exec i s) := by
  cases i with
  | encode | init | destroy | setRecv | setRss | setRrs | setRxf | fpush | rdreg =>
    simp only [exec, execEncode, execInit, execDestroy, execSetRecv, execSetRss, execSetRrs, execSetRxf, execFpush,
      execRdreg, issuedBy_cfg, issuedBy_node, issuedBy_setNode, issuedBy_done, issuedBy_answer]
    split_ifs <;> rfl
  | advance n =>
    simp only [exec, execAdvance, issuedBy_cfg, issuedBy_node, issuedBy_setNode, issuedBy_done]
    cases advanceNode s.cfg.handshake (fifoCap s.cfg n .output) (s.node n) <;> split_ifs <;> rfl
  | decode n arg =>
    simp only [exec, execDecode, issuedBy_cfg, issuedBy_node, issuedBy_setNode, issuedBy_done]
    cases scanLoop s.cfg (fifoCap s.cfg n .output) arg.toNat (s.node n) _ <;> split_ifs <;> rfl
  | frame n arg =>
    simp only [exec, execFrame, issuedBy_cfg, issuedBy_node, issuedBy_setNode, issuedBy_done]
    cases copyWritten (s.node n).txFrame arg.toNat (s.node n.peer).rxFrame <;> split_ifs <;> rfl
  | xchg =>
    obtain ⟨⟨m, inactive⟩, answered⟩ | ⟨active, ⟨m, too_long⟩, answered⟩ | ⟨active, fits, answered⟩ := exec_xchg_cases s
    · rw [answered, exec_xchg_of_inactive (n := m) (by simpa using inactive)]
      rfl
    · rw [answered, exec_xchg_of_too_long (n := m) (by simpa using active) (by simpa using too_long)]
      rfl
    · rw [answered, exec_xchg_of_fits (by simpa using active) (by simpa using fits)]
      rfl
  | fpop n q =>
    simp only [exec, execFpop, issuedBy_node, issuedBy_setNode, issuedBy_answer]
    cases (s.node n).fifo q <;> rfl
  | fpeek n q arg =>
    simp only [exec, execFpeek, issuedBy_node, issuedBy_answer]
    cases ((s.node n).fifo q)[arg.toNat]? <;> rfl
  | rdarr n x arg =>
    simp only [exec, execRdarr, issuedBy_cfg, issuedBy_node, issuedBy_answer]
    cases ((s.node n).array x).read arg.toNat <;> split_ifs <;> rfl
  | fsize | ffree =>
    simp only [exec_fsize, exec_ffree, issuedBy_cfg, issuedBy_node, issuedBy_answer]
    rfl
  | idle => exact frameWord_issuedBy s y .idle
  | escape => exact frameWord_issuedBy s y .escape
  | underrun => exact frameWord_issuedBy s y .underrun
  | overrun => exact frameWord_issuedBy s y .overrun
  | literal w => exact frameWord_issuedBy s y (.literal w)

end

theorem outcomeIssuedBy_other {x y : Agent} {t : State} {o : Host.Outcome State Fault Refusal}
    (by_x : outcomeIssuedBy x o = .next t) : outcomeIssuedBy y o = .next (t.issuedBy y) := by
  cases o with
  | next u => exact Host.Outcome.next.inj by_x ▸ rfl
  | fault | refused => exact absurd by_x nofun

/-- `s` with operation `q` issued ahead of `rest`. -/
def State.withIssued (s : State) (q : Issue) (rest : List Issue) : State := { s with issued := q :: rest }

/-- A step of an issued word is one outcome for every agent, but for the agent it records. -/
theorem step_withIssued {s : State} (no_fault : s.fault = none) (no_scan : s.scan = none) (w d : Word)
    (rest : List Issue) :
    ∃ o, ∀ z, step (s.withIssued { agent := z, word := w, data := d } rest) = outcomeIssuedBy z o := by
  cases decoded : decodeOp w d with
  | error e =>
    refine ⟨.next (State.raise { s with issued := rest } .illegalOp), fun z => ?_⟩
    exact step_of_illegal (s := s.withIssued _ rest) no_fault no_scan rfl decoded
  | ok i =>
    refine ⟨exec i { s with issued := rest }, fun z => ?_⟩
    rw [← exec_issuedBy]
    exact step_of_operation (s := s.withIssued _ rest) no_fault no_scan rfl decoded

/-- Settles O13, by `step_withIssued`: what one agent's step answers is that outcome. -/
theorem agentMakesNoDifference : Obligations.AgentMakesNoDifference := by
  intro s t x y w d rest no_fault no_scan stepped
  obtain ⟨o, step_eq⟩ := step_withIssued no_fault no_scan w d rest
  have by_x : outcomeIssuedBy x o = .next t := (step_eq x).symm.trans stepped
  exact (step_eq y).trans (outcomeIssuedBy_other by_x)

end Sys2Proof.Machine
end

section
/-! Properties of the framer (`41_framer.md` R181, R197, R198, R200; R312): ENCODE and DECODE see no engine field, a
frame carries half its slots, a DECODE with room does not overflow, and a round of ENCODE, FRAME and DECODE carries the words
at the front of IN to OUT of the peer. -/

namespace Sys2Proof.Machine

/-! ## How many words a frame carries (R198) -/

theorem frameItem_length_le (c : Config) (w : Word) : (frameItem c w).length ≤ 2 := by
  unfold frameItem
  split <;> simp

theorem frameItems_length_le (c : Config) (ws : List Word) : (frameItems c ws).length ≤ 2 * ws.length := by
  have reserved_le : ws.countP (fun w => w ∈ c.rsv) ≤ ws.length := List.countP_le_length
  rw [frameItems_length]
  omega

/-- Settles O33: a run of fewer than N/2 words leaves two slots, which the item of a further word fits. -/
theorem encodeCarriesHalfTheSlots : Obligations.EncodeCarriesHalfTheSlots := by
  intro s t n arg fits enough executed
  obtain ⟨too_long, -⟩ | ⟨-, rfl⟩ := execEncode_cases executed
  · exact absurd fits (not_le.2 too_long)
  · obtain ⟨k, k_le, items_fit, longest, node_eq, -⟩ := encodeNode_spec s.cfg arg.toNat (s.node n)
    have k_le_slots := (le_frameItems_length s.cfg k_le).trans items_fit
    have items_le := frameItems_length_le s.cfg ((s.node n).inFifo.take k)
    rw [List.length_take_of_le k_le] at items_le
    have half_le : arg.toNat / 2 ≤ k := by
      by_contra few
      have more : k < (s.node n).inFifo.length := by omega
      have no_room := longest _ (List.getElem?_eq_getElem more)
      have item_le := frameItem_length_le s.cfg (s.node n).inFifo[k]
      omega
    have fits_word : k < 2 ^ 32 := by have := arg.isLt; omega
    rw [node_setNode_done, node_eq]
    exact half_le.trans (toNat_zextNat fits_word).ge

/-! ## A DECODE with room (R312) -/

theorem map_eq_ok {α β : Type} {f : α → β} {r : Except FaultCode α} {b : β} (h : r.map f = .ok b) :
    ∃ a, r = .ok a ∧ f a = b := by
  cases r with
  | ok a => exact ⟨a, rfl, Except.ok.inj h⟩
  | error code => exact absurd h nofun

theorem raiseFlag_no_overflow {flags flag : Word} (flags_ok : flags &&& flagLocalRxOverflow = 0#32)
    (flag_ok : flag &&& flagLocalRxOverflow = 0#32) : raiseFlag flags flag &&& flagLocalRxOverflow = 0#32 := by
  rw [raiseFlag, BitVec.and_or_distrib_right, flags_ok, flag_ok, BitVec.or_zero]

/-- With as much room as cells, the reading of a frame never overflows: every word takes a cell. -/
theorem decodeCells_no_overflow (c : Config) (room : Nat) (cells : List Cell) (enough : cells.length ≤ room) :
    ∀ r, decodeCells c room cells = .ok r → r.2 &&& flagLocalRxOverflow = 0#32 := by
  fun_induction decodeCells c room cells with
  | case1 =>
    rintro r ⟨⟩
    exact BitVec.zero_and
  | case6 =>
    rintro r ⟨⟩
    decide
  | case2 | case8 => exact nofun
  | case7 | case10 => exact absurd enough (Nat.not_succ_le_zero _)
  | case3 room w rest kind ih => exact ih (Nat.le_of_succ_le enough)
  | case4 room w rest kind ih | case5 room w rest kind ih =>
    intro r read
    obtain ⟨q, before, rfl⟩ := map_eq_ok read
    exact raiseFlag_no_overflow (ih (Nat.le_of_succ_le enough) q before) (by decide)
  | case9 room w kind rest has_room v ih =>
    intro r read
    obtain ⟨q, before, rfl⟩ := map_eq_ok read
    exact ih (Nat.le_pred_of_lt (Nat.le_of_succ_le enough)) q before
  | case11 room w rest v kind has_room ih =>
    intro r read
    obtain ⟨q, before, rfl⟩ := map_eq_ok read
    exact ih (Nat.le_pred_of_lt enough) q before

/-- Settles O35: the scan is the reading of as many cells as the frame has words. -/
theorem decodeWithRoomNeverOverflows : Obligations.DecodeWithRoomNeverOverflows := by
  intro s t n arg no_fault room executed no_fault_t
  obtain ⟨-, rfl⟩ | ⟨-, -, rfl⟩ | ⟨y, sd, -, scanned, rfl⟩ := execDecode_cases executed
  · exact absurd no_fault_t nofun
  · exact absurd no_fault_t nofun
  · rw [scanLoop_frame] at scanned
    obtain ⟨r, read, ended⟩ := map_eq_ok scanned
    obtain ⟨-, rfl⟩ := Prod.mk.inj ended
    rw [node_setNode_done]
    exact decodeCells_no_overflow _ _ _ (by rwa [cellsFrom_length]) r read

/-! ## The framer and the engine fields (R181) -/

section
variable {s : State} {n : Node} {arg : Count} (e : NodeState)

/-- `s` with the engine fields of `e` in node `n`. -/
def withEngineAt (s : State) (n : Node) (e : NodeState) : State := s.setNode n ((s.node n).withEngine e)

theorem withEngineAt_node : (withEngineAt s n e).node n = (s.node n).withEngine e := State.node_setNode s n _

theorem withEngineAt_raise (code : FaultCode) :
    (withEngineAt s n e).raise code = withEngineAt (s.raise code) n e := by
  cases n <;> rfl

theorem withEngineAt_setNode_done (y : NodeState) :
    ((withEngineAt s n e).setNode n (y.withEngine e)).done = withEngineAt (s.setNode n y).done n e := by
  cases n <;> rfl

theorem encodeNode_withEngine (c : Config) (len : Nat) (x : NodeState) :
    encodeNode c len (x.withEngine e) = (encodeNode c len x).withEngine e := rfl

theorem scanLoop_withEngine (c : Config) (outCap len : Nat) (x : NodeState) :
    scanLoop c outCap len (x.withEngine e) { node := n, pos := 0, len := len, flags := 0#32 } =
      (scanLoop c outCap len x { node := n, pos := 0, len := len, flags := 0#32 }).map
        fun r => (r.1.withEngine e, r.2) := by
  rw [scanLoop_frame, scanLoop_frame, NodeState.withEngine]
  cases decodeCells c (outCap - x.outFifo.length) (cellsFrom x.rxFrame 0 len) <;> rfl

theorem exec_encode_withEngine {t : State} (executed : exec (.encode n arg) s = .next t) :
    exec (.encode n arg) (withEngineAt s n e) = .next (withEngineAt t n e) := by
  have cfg_eq : (withEngineAt s n e).cfg = s.cfg := State.setNode_cfg s n _
  obtain ⟨too_long, rfl⟩ | ⟨fits, rfl⟩ := execEncode_cases executed
  · rw [← cfg_eq] at too_long
    rw [exec_encode_of_too_long too_long, withEngineAt_raise]
  · rw [← withEngineAt_setNode_done, ← encodeNode_withEngine, ← withEngineAt_node, ← cfg_eq]
    exact exec_encode_of_fits (cfg_eq ▸ fits)

theorem exec_decode_withEngine {t : State} (executed : exec (.decode n arg) s = .next t) :
    exec (.decode n arg) (withEngineAt s n e) = .next (withEngineAt t n e) := by
  have cfg_eq : (withEngineAt s n e).cfg = s.cfg := State.setNode_cfg s n _
  have scan_eq := scanLoop_withEngine (n := n) e s.cfg (fifoCap s.cfg n .output) arg.toNat (s.node n)
  obtain ⟨too_long, rfl⟩ | ⟨fits, failed, rfl⟩ | ⟨y, sd, fits, scanned, rfl⟩ := execDecode_cases executed
  · rw [← cfg_eq] at too_long
    rw [exec_decode_of_too_long too_long, withEngineAt_raise]
  · rw [failed, ← withEngineAt_node, ← cfg_eq] at scan_eq
    rw [exec_decode_of_error (cfg_eq ▸ fits) scan_eq, withEngineAt_raise]
  · rw [scanned, ← withEngineAt_node, ← cfg_eq] at scan_eq
    rw [← withEngineAt_setNode_done]
    exact exec_decode_of_ok (cfg_eq ▸ fits) scan_eq

end

/-- Settles O37: both operations commute with putting other engine fields into the node. -/
theorem framerIgnoresEngine : Obligations.FramerIgnoresEngine := by
  intro s t n arg e i framer executed
  simp only [List.mem_cons, List.not_mem_nil, or_false] at framer
  obtain rfl | rfl := framer
  · exact exec_encode_withEngine e executed
  · exact exec_decode_withEngine e executed

/-! ## A round of ENCODE, FRAME and DECODE (R197, R200) -/

theorem frameItems_append (c : Config) (us ws : List Word) :
    frameItems c (us ++ ws) = frameItems c us ++ frameItems c ws := List.flatMap_append

/-- A frame of items and IDLE padding reads as the words of the items, with no flag. -/
theorem decodeCells_items {c : Config} (allowed : c.wf) (pad : Nat) (ws : List Word) :
    ∀ room, ws.length ≤ room →
      decodeCells c room ((frameItems c ws ++ List.replicate pad c.rsvIdle).map .written) = .ok (ws, 0#32) := by
  obtain ⟨idle, escape, -, -⟩ := classify_reserved allowed
  induction ws with
  | nil =>
    intro room _
    induction pad with
    | zero => rw [decodeCells.eq_def]; rfl
    | succ pad ih => exact (decodeCells_idle room _ idle).trans ih
  | cons w ws ih =>
    intro room enough
    have has_room : room ≠ 0 := Nat.ne_of_gt (Nat.zero_lt_of_lt enough)
    have rest := ih (room - 1) (Nat.le_pred_of_lt enough)
    by_cases reserved : w ∈ c.rsv
    · rw [frameItems_cons, frameItem_reserved reserved]
      exact (decodeCells_escape_written _ escape has_room w).trans (congrArg (Except.map fun r => (w :: r.1, r.2)) rest)
    · rw [frameItems_cons, frameItem_plain reserved]
      refine (decodeCells_literal room _ (classify_of_not_reserved reserved)).trans ?_
      rw [if_neg has_room]
      exact congrArg (Except.map fun r => (w :: r.1, r.2)) rest

/-- Cells read slot by slot, padded with IDLE to a length, are the items and the padding. -/
theorem cellsFrom_items {m : Memory} {len : Nat} {items : List Word} {d : Word} (items_fit : items.length ≤ len)
    (read_eq : ∀ i < len, m.read i = .written (items[i]?.getD d)) :
    cellsFrom m 0 len = (items ++ List.replicate (len - items.length) d).map .written := by
  refine List.ext_getElem (by simp; omega) fun i i_lt _ => ?_
  rw [cellsFrom_length] at i_lt
  simp only [cellsFrom, List.getElem_map, List.getElem_range, Nat.zero_add, read_eq i i_lt]
  obtain item | padding := lt_or_ge i items.length
  · rw [List.getElem?_eq_getElem item, List.getElem_append_left item, Option.getD_some]
  · rw [List.getElem?_eq_none padding, List.getElem_append_right padding, List.getElem_replicate, Option.getD_none]

/-- A round of ENCODE, FRAME and DECODE carries as many words from the front of IN as the frame holds, if OUT of the
peer has room for the words of IN, or for as many as the frame has slots. -/
theorem frame_round {s : State} (n : Node) {arg : Count} (allowed : s.cfg.wf) (fits : arg.toNat ≤ s.cfg.frameMax)
    (room : min (s.node n).inFifo.length arg.toNat ≤
      fifoCap s.cfg n.peer .output - (s.node n.peer).outFifo.length) :
    ∃ k t u v, exec (.encode n arg) s = .next t ∧ exec (.frame n arg) t = .next u ∧
      exec (.decode n.peer arg) u = .next v ∧ v.fault = s.fault ∧ k ≤ (s.node n).inFifo.length ∧
      (∀ w, (s.node n).inFifo[k]? = some w →
        arg.toNat < (frameItems s.cfg ((s.node n).inFifo.take k)).length + (frameItem s.cfg w).length) ∧
      (v.node n.peer).outFifo = (s.node n.peer).outFifo ++ (s.node n).inFifo.take k ∧
      (v.node n.peer).fxFlags = 0#32 ∧ (v.node n).fxCount = BitVec.ofNat 32 k ∧
      (v.node n).inFifo = (s.node n).inFifo.drop k := by
  obtain ⟨k, k_le, items_fit, longest, node_eq, read_eq⟩ := encodeNode_spec s.cfg arg.toNat (s.node n)
  have encoded := exec_encode_of_fits (n := n) fits
  generalize t_eq : (s.setNode n (encodeNode s.cfg arg.toNat (s.node n))).done = t at encoded
  have t_node : t.node n = encodeNode s.cfg arg.toNat (s.node n) := by rw [← t_eq, node_setNode_done]
  have t_peer : t.node n.peer = s.node n.peer := by rw [← t_eq, State.node_done, State.node_peer_setNode]
  have t_cfg : t.cfg = s.cfg := by rw [← t_eq, State.done_cfg, State.setNode_cfg]
  have t_fault : t.fault = s.fault := by rw [← t_eq, State.done_fault, State.setNode_fault]
  have written (i : Nat) (i_lt : i < arg.toNat) : (t.node n).txFrame.read i ≠ .unwritten := by
    rw [t_node, read_eq, if_pos i_lt]
    exact nofun
  obtain ⟨m, copied, m_read⟩ := copyWritten_ok _ _ (dst := (t.node n.peer).rxFrame) written
  have framed := exec_frame_of_ok (t_cfg ▸ fits) copied
  generalize u_eq : (t.setNode n.peer { t.node n.peer with rxFrame := m }).done = u at framed
  have u_node : u.node n = t.node n := by rw [← u_eq, State.node_done, State.node_setNode_peer]
  have u_peer : u.node n.peer = { s.node n.peer with rxFrame := m } := by rw [← u_eq, node_setNode_done, t_peer]
  have u_cfg : u.cfg = s.cfg := by rw [← u_eq, State.done_cfg, State.setNode_cfg, t_cfg]
  have u_fault : u.fault = s.fault := by rw [← u_eq, State.done_fault, State.setNode_fault, t_fault]
  have m_cells := cellsFrom_items (m := m) items_fit fun i i_lt => by
    rw [m_read, if_pos i_lt, t_node, read_eq, if_pos i_lt]
  have taken_room : ((s.node n).inFifo.take k).length ≤
      fifoCap s.cfg n.peer .output - (s.node n.peer).outFifo.length := by
    rw [List.length_take_of_le k_le]
    exact (Nat.le_min.2 ⟨k_le, (le_frameItems_length s.cfg k_le).trans items_fit⟩).trans room
  have scanned := scanLoop_frame u.cfg (fifoCap u.cfg n.peer .output) arg.toNat n.peer (u.node n.peer)
  rw [u_peer, u_cfg, m_cells, decodeCells_items allowed _ _ _ taken_room, ← u_peer] at scanned
  have decoded := exec_decode_of_ok (s := u) (n := n.peer) (u_cfg.symm ▸ fits) (u_cfg.symm ▸ scanned)
  refine ⟨k, t, u, _, encoded, framed, decoded, u_fault ▸ State.setNode_fault u n.peer _, k_le, longest, ?_, ?_, ?_, ?_⟩
  · rw [node_setNode_done, u_peer]
  · rw [node_setNode_done]
  · rw [State.node_done, State.node_setNode_peer, u_node, t_node, node_eq]
  · rw [State.node_done, State.node_setNode_peer, u_node, t_node, node_eq]

/-- Settles O38: a round that leaves a word in IN would leave that word's slots free, so the round carries all. -/
theorem frameRoundTrip : Obligations.FrameRoundTrip := by
  intro s n arg allowed fits slots room
  obtain ⟨k, t, u, v, encoded, framed, decoded, no_fault, k_le, longest, out_eq, flags_eq, count_eq, in_eq⟩ :=
    frame_round n allowed fits ((Nat.min_le_left _ _).trans room)
  have all_taken : k = (s.node n).inFifo.length := by
    by_contra some_left
    have more : k < (s.node n).inFifo.length := lt_of_le_of_ne k_le some_left
    have no_room := longest _ (List.getElem?_eq_getElem more)
    rw [← frameItems_length, ← List.take_append_drop k (s.node n).inFifo, List.drop_eq_getElem_cons more,
      frameItems_append, frameItems_cons, List.length_append, List.length_append] at slots
    omega
  subst all_taken
  rw [List.take_length] at out_eq
  rw [List.drop_length] at in_eq
  exact ⟨t, u, v, encoded, framed, decoded, no_fault, out_eq, flags_eq, count_eq, in_eq⟩

/-- Settles O39: what the round takes from the front of IN it puts behind OUT, and two slots hold the first item. -/
theorem frameRoundConservesWords : Obligations.FrameRoundConservesWords := by
  intro s n arg allowed fits room
  obtain ⟨k, t, u, v, encoded, framed, decoded, no_fault, k_le, longest, out_eq, flags_eq, -, in_eq⟩ :=
    frame_round n allowed fits ((Nat.min_le_right _ _).trans room)
  refine ⟨t, u, v, encoded, framed, decoded, no_fault, ?_, flags_eq, fun two_slots nonempty => ?_⟩
  · rw [out_eq, in_eq, List.append_assoc, List.take_append_drop]
  · have some_left : 0 < (s.node n).inFifo.length := List.length_pos_iff.2 nonempty
    have some_taken : k ≠ 0 := by
      rintro rfl
      have no_room := longest _ (List.getElem?_eq_getElem some_left)
      have item_le := frameItem_length_le s.cfg (s.node n).inFifo[0]
      rw [List.take_zero, frameItems_nil, List.length_nil] at no_room
      omega
    rw [in_eq, List.length_drop]
    omega

/-! ## DECODE, one frame word a step (log 6) -/

theorem run_succ {s t : State} (k : Nat) (stepped : step s = .next t) : core.run (k + 1) s = core.run k t := by
  simp only [Host.Core.run, show core.step s = .next t from stepped]

/-- The state of a scan that has ended in node `n` with node state `y` and flags `flags`. -/
def State.scanEnded (s : State) (n : Node) (y : NodeState) (flags : Word) : State :=
  { s.setNode n { y with fxFlags := flags } with scan := none, result := none }

/-- The state of a scan that stands at `sc`, with node state `x`. -/
def State.scanAt (s : State) (x : NodeState) (sc : Scan) : State := { s.setNode sc.node x with scan := some sc }

section
variable {s : State} {x y : NodeState} {sc sd : Scan}

theorem scanAt_cfg (s : State) (x : NodeState) (sc : Scan) : (s.scanAt x sc).cfg = s.cfg := State.setNode_cfg s _ x

theorem scanAt_node (s : State) (x : NodeState) (sc : Scan) : (s.scanAt x sc).node sc.node = x := by
  rw [State.scanAt, State.node_mk, State.node_setNode]

/-- One step of a scan runs one frame word, and the scan goes on or has ended. -/
theorem step_scanAt {w : Word} (no_fault : s.fault = none) (cell : x.rxFrame.read sc.pos = .written w)
    (scanned : scanWord (fifoCap s.cfg sc.node .output) (classify s.cfg w) x sc = .ok (y, sd)) :
    step (s.scanAt x sc) = .next (if sd.pos < sd.len then s.scanAt y sd else s.scanEnded sc.node y sd.flags) := by
  have same_node : sd.node = sc.node := by rw [(scanWord_frame scanned).2]
  rw [← scanAt_cfg s x sc] at scanned
  have stepped := step_of_frameWord (s := s.scanAt x sc) (sc := sc) ((State.setNode_fault s _ x).trans no_fault) rfl
    (by rw [scanAt_node]; exact cell)
  have executed := exec_frameWord_of_ok (s := s.scanAt x sc) (sc := sc) rfl (by rw [scanAt_node]; exact scanned)
  have after_eq : (s.scanAt x sc).afterWord sc.node y sd =
      if sd.pos < sd.len then s.scanAt y sd else s.scanEnded sc.node y sd.flags := by
    simp only [State.afterWord, State.scanAt, State.scanEnded, same_node]
    cases sc.node <;> rfl
  exact stepped.trans (executed.trans (congrArg _ after_eq))

/-- A scan that DECODE's loop takes to its end ends there too one frame word a step. -/
theorem run_scanAt (no_fault : s.fault = none) (k : Nat) :
    ∀ (x : NodeState) (sc : Scan), sc.pos < sc.len → sc.len ≤ sc.pos + k →
      scanLoop s.cfg (fifoCap s.cfg sc.node .output) k x sc = .ok (y, sd) →
      ∃ j ≤ k, core.run j (s.scanAt x sc) = .next (s.scanEnded sc.node y sd.flags) := by
  induction k with
  | zero => exact fun x sc in_frame enough => absurd enough (not_le.2 in_frame)
  | succ k ih =>
    intro x sc in_frame enough scanned
    cases cell : x.rxFrame.read sc.pos with
    | unwritten =>
      rw [scanLoop_of_unwritten k in_frame cell] at scanned
      exact absurd scanned nofun
    | written w =>
      rw [scanLoop_of_written k in_frame cell] at scanned
      cases word : scanWord (fifoCap s.cfg sc.node .output) (classify s.cfg w) x sc with
      | error code =>
        rw [word] at scanned
        exact absurd scanned nofun
      | ok r =>
        obtain ⟨x', sc'⟩ := r
        rw [word] at scanned
        have stepped := step_scanAt no_fault cell word
        have same_node : sc'.node = sc.node := by rw [(scanWord_frame word).2]
        have same_len : sc'.len = sc.len := by rw [(scanWord_frame word).2]
        obtain ⟨moved, -⟩ := scanWord_pos word in_frame
        obtain more | ended := lt_or_ge sc'.pos sc'.len
        · rw [if_pos more] at stepped
          obtain ⟨j, j_le, ran⟩ := ih x' sc' more (by omega) (by rw [same_node]; exact scanned)
          rw [same_node] at ran
          exact ⟨j + 1, Nat.succ_le_succ j_le, (run_succ j stepped).trans ran⟩
        · rw [if_neg (not_lt.2 ended)] at stepped
          have at_end : scanLoop s.cfg (fifoCap s.cfg sc.node .output) k x' sc' = .ok (y, sd) := scanned
          rw [scanLoop_ended k ended] at at_end
          obtain ⟨rfl, rfl⟩ := Prod.mk.inj (Except.ok.inj at_end)
          exact ⟨1, Nat.succ_le_succ (Nat.zero_le k), run_succ 0 stepped⟩

end

/-- Settles O40, by `run_scanAt` from the start of the frame. -/
theorem frameWordStepsAgreeWithDecode : Obligations.FrameWordStepsAgreeWithDecode := by
  intro s t n arg no_fault no_scan nonzero executed no_fault_t
  obtain ⟨-, rfl⟩ | ⟨-, -, rfl⟩ | ⟨y, sd, -, scanned, rfl⟩ := execDecode_cases executed
  · exact absurd no_fault_t nofun
  · exact absurd no_fault_t nofun
  · have nonempty : 0 < arg.toNat := Nat.pos_of_ne_zero (BitVec.toNat_ne_iff_ne.2 nonzero)
    obtain ⟨j, j_le, ran⟩ := run_scanAt no_fault arg.toNat _ { node := n, pos := 0, len := arg.toNat, flags := 0#32 }
      nonempty (Nat.zero_add _).ge scanned
    have start_eq : s.scanAt (s.node n) { node := n, pos := 0, len := arg.toNat, flags := 0#32 } =
        { s with scan := some { node := n, pos := 0, len := arg.toNat, flags := 0#32 } } := by
      rw [State.scanAt, State.setNode_node]
    have end_eq : s.scanEnded n y sd.flags = (s.setNode n { y with fxFlags := sd.flags }).done := by
      rw [State.scanEnded, State.done, State.setNode_scan, no_scan]
    rw [← start_eq, ← end_eq]
    exact ⟨j, j_le, ran⟩

end Sys2Proof.Machine
end
